-- ==== Sys2Proof/Word.lean ====
section
/-! DEFINITION. The word types of the block and the one-bit kind of a block (00_scope.md R6, R8). -/

namespace Sys2Proof

/-- `BYTE_W` = 8 (R6): the width of every data byte, payload byte and control byte. -/
abbrev Byte := BitVec 8

/-- `COUNT_W` = 32 (R6), and `IDX_W` = 32 as `Config.Legal` says: the width of the block count of a stream, and of `N` and
`NBLK`. -/
abbrev Word32 := BitVec 32

/-- `ACC_W` = 64 (R6), as `Config.Legal` says: the width of `SIZE`, `OUT_LEN` and `STR_LEN`. -/
abbrev Word64 := BitVec 64

/-- The kind of a block (R14): Literal (0) or Repeat (1). -/
inductive Kind where
  /-- Literal: the payload is the block's bytes, verbatim. -/
  | lit
  /-- Repeat: the payload is one byte, repeated `length` times. -/
  | rep
deriving DecidableEq, Repr

end Sys2Proof
end

