-- ==== Sys2Proof/Config.lean ====
section
/-! DEFINITION. The parameters of the block (00_scope.md R6, 92_eei_decisions.md section 2), which are fixed for a machine,
and the free values the spec leaves open: opaque constants without a body, about which nothing can be proved. -/

namespace Sys2Proof

/-- The four address spaces (R40, R60). -/
inductive MemSpace where
  | inp
  | blk
  | out
  | str
deriving DecidableEq, Repr

/-- The legal values of `COUNT_ORDER` (R6): "Little-endian, fixed, not switchable" (D4), so there is one. -/
inductive ByteOrder where
  /-- The lowest byte first. -/
  | little
deriving DecidableEq, Repr

/-- The parameters that R6 marks as decided or OPEN; those it takes from the source are constants (`Config.maxLen`,
`Config.repMax`, the types of Word.lean). A claim over all states is a claim over all of them: `State` carries one `Config`,
which no step changes (notes/assumptions/1.md). -/
structure Config where
  /-- `LIT_MAX`: the longest Literal block the encoder emits; legal set {127, 128} (D2). -/
  litMax : Nat
  /-- `COUNT_ORDER`: the byte order of the block count in a stream (D4). -/
  countOrder : ByteOrder
  /-- `N_MAX`: the largest input length COMPRESS accepts; 2^31 - 1 (D5). -/
  nMax : Nat
  /-- `IDX_W`: the width of `N`, `NBLK`, `E_I`, `D_B`; 32 (D5). `N` and `NBLK` are `Word32`, the working registers are
  bounded by it (`WidthsOk`). -/
  idxW : Nat
  /-- `ACC_W`: the width of `SIZE`, `OUT_LEN`, `STR_LEN`, `D_TOTAL`, `D_O`, `S_P`; 64 (D5). The first three are `Word64`, the
  working registers are bounded by it (`WidthsOk`). -/
  accW : Nat
  /-- `BLK_CAP`: the number of entries of the block store. -/
  blkCap : Nat
  /-- `OUT_CAP`: the number of bytes of `OUT`. -/
  outCap : Nat
  /-- `STR_CAP`: the number of bytes of `STR`. -/
  strCap : Nat
  /-- `IN_CAP`: the number of bytes of `IN`. -/
  inCap : Nat
deriving DecidableEq, Repr

/-- `MAX_LEN` (R6, R7): the largest block length the 7-bit length field can hold, `2 ^ LEN_BITS`. -/
def Config.maxLen : Nat := 2 ^ 7

/-- `REP_MAX` (R6): the longest Repeat block the encoder emits. -/
def Config.repMax : Nat := 128

/-- The values and ranges that R6 and 92_eei_decisions.md section 2 give the parameters. -/
abbrev Config.Legal (c : Config) : Prop :=
  (c.litMax = 127 ∨ c.litMax = 128) ∧ (1 ≤ c.blkCap ∧ c.blkCap ≤ 2 ^ 31 - 1) ∧ 4 ≤ c.strCap ∧
    (1 ≤ c.inCap ∧ c.inCap ≤ c.nMax) ∧ c.countOrder = .little ∧ c.nMax = 2 ^ 31 - 1 ∧ c.idxW = 32 ∧ c.accW = 64

/-- The decided values of R6, and capacities of the size that the small programs of 95_test_vectors.md section 9 need. DESIGN
CHOICE (notes/assumptions/1.md): the reset state needs one value of each capacity; no statement rests on these. -/
def Config.standard : Config where
  litMax := 128
  countOrder := .little
  nMax := 2 ^ 31 - 1
  idxW := 32
  accW := 64
  blkCap := 16
  outCap := 512
  strCap := 512
  inCap := 512

/-- FREE VALUE (R69, R47, U1, U5, U6, U7): what a location of a memory holds that nothing has written since the memory last
became unspecified; `epoch` counts how often that happened. Two reads of one location in one epoch agree, as R68 says. -/
opaque Config.unwritten : (space : MemSpace) → (epoch : Nat) → (address : Nat) → Byte

/-- FREE VALUE (R122, U4): the value on `PK_CTRL` for a length outside 1..128, a function of the inputs as R120 says. -/
opaque Config.packOutside : Kind → (len : Nat) → Byte

/-- FREE VALUE (R22, R23): which of the seven values other than `P_IDLE` the register `PHASE` holds from the write of this code
to `CMD` until the command's own start rule (notes/assumptions/26.md). -/
opaque Config.startPhase : (code : Byte) → Fin 7

/-- FREE VALUE (R331, U3): what the host gets when it reads anything but `STATUS` while `ST = BUSY`, a fresh value each
time. -/
opaque Config.busyRead : (draw : Nat) → Word64

end Sys2Proof
end

