-- ==== Sys2Proof/Syntax.lean ====
section
/-! DEFINITION. The instructions of the block, one constructor for each row of spec/opcode_table.json (30_encoding.md). -/

namespace Sys2Proof

/-- Every row of the opcode table. The rows stand in five spaces (R90, `Space` in Decode.lean): the blocks of a stream, the
header of a stream, the command codes, and the two combinational ports. -/
inductive Instr where
  /-- `LIT` (R92, R191): a Literal block with this payload. -/
  | lit (payload : List Byte)
  /-- `REP` (R93, R191): a Repeat block of `len` copies of `b`. -/
  | rep (len : Nat) (b : Byte)
  /-- `COUNT` (R95): the stream header, a signed 32-bit block count. -/
  | count (c : Word32)
  /-- `NOP`, code 0x00 (R301). -/
  | nop
  /-- `COMPRESS`, code 0x01 (R140). -/
  | compress
  /-- `DECOMPRESS`, code 0x02 (R190). -/
  | decompress
  /-- `SIZE`, code 0x03 (R180). -/
  | size
  /-- `SERIALIZE`, code 0x04 (R222). -/
  | serialize
  /-- `DESERIALIZE`, code 0x05 (R230). -/
  | deserialize
  /-- `RELEASE`, code 0x06 (R302). -/
  | release
  /-- `RESERVED`, code 0x07 (R303). -/
  | reserved07
  /-- `RESERVED`, codes 0x08 to 0x0F (R303), with the code's low bits. -/
  | reserved08 (low : BitVec 3)
  /-- `RESERVED`, codes 0x10 to 0x1F (R303). -/
  | reserved10 (low : BitVec 4)
  /-- `RESERVED`, codes 0x20 to 0x3F (R303). -/
  | reserved20 (low : BitVec 5)
  /-- `RESERVED`, codes 0x40 to 0x7F (R303). -/
  | reserved40 (low : BitVec 6)
  /-- `RESERVED`, codes 0x80 to 0xFF (R303). -/
  | reserved80 (low : BitVec 7)
  /-- `PACK` (R121): drive the pack port with a kind and an 8-bit length. -/
  | pack (kind : Kind) (len : Byte)
  /-- `UNPACK` (R124): drive the unpack port with a control byte. -/
  | unpack (c : Byte)
deriving DecidableEq, Repr

end Sys2Proof
end

