-- ==== Sys2Proof/WellFormed.lean ====
section
/-! DEFINITION. Which terms of `Instr` the spec gives an encoding: the lengths of the data model (10_state.md R41). -/

namespace Sys2Proof

/-- A block length is in 1..128 (R41, R7). -/
def lengthOk (len : Nat) : Bool := decide (1 ≤ len) && decide (len ≤ Config.maxLen)

/-- The instruction has an encoding. Every other constructor's fields are as wide as its row's, so they need no check. -/
def Instr.wellFormed : Instr → Bool
  | .lit payload => lengthOk payload.length
  | .rep len _ => lengthOk len
  | .count _ => true
  | .nop => true
  | .compress => true
  | .decompress => true
  | .size => true
  | .serialize => true
  | .deserialize => true
  | .release => true
  | .reserved07 => true
  | .reserved08 _ => true
  | .reserved10 _ => true
  | .reserved20 _ => true
  | .reserved40 _ => true
  | .reserved80 _ => true
  | .pack _ len => lengthOk len.toNat
  | .unpack _ => true

end Sys2Proof
end

