-- ==== Sys2Proof/Decode.lean ====
section
/-! DEFINITION. The control byte, the decoder of each encoding space and the encoder (30_encoding.md, 40_control_byte.md). -/

namespace Sys2Proof

/-! ### The control byte -/

/-- The kind bit (R91): 0 = Literal, 1 = Repeat. -/
def kindBit : Kind → Nat
  | .lit => 0
  | .rep => 1

/-- `kind(c) = c[0]` (R124). -/
def kindOf (c : Byte) : Kind := if c.getLsbD 0 then .rep else .lit

/-- `len(c) = zext(c[7:1]) + 1`, in 1..128 (R124, R97). -/
def lenOf (c : Byte) : Nat := (c.extractLsb' 1 7).toNat + 1

/-- `pack(kind, len) = kind + 2 * (len - 1)` for `len` in 1..128 (R121); outside, a free value (R122). -/
def packLen (k : Kind) (len : Nat) : Byte :=
  if lengthOk len then BitVec.ofNat 8 (kindBit k + 2 * (len - 1)) else Config.packOutside k len

/-- `need(c)` (R127): the number of payload bytes of a block with control byte `c`. -/
def need (c : Byte) : Nat :=
  match kindOf c with
  | .lit => lenOf c
  | .rep => 1

/-- `ssize(c) = 1 + need(c)` (R127, R94): the number of stream bytes of a block with control byte `c`. -/
def ssize (c : Byte) : Nat := 1 + need c

/-! ### The block count -/

/-- `le32` (R9): the four bytes of a 32-bit value, lowest first (R63). -/
def le32 (v : Word32) : List Byte :=
  [v.extractLsb' 0 8, v.extractLsb' 8 8, v.extractLsb' 16 8, v.extractLsb' 24 8]

/-- `unle32` (R9): the 32-bit value of four bytes, lowest first; read as signed by `BitVec.toInt` (R95). -/
def unle32 (b0 b1 b2 b3 : Byte) : Word32 := b3 ++ b2 ++ b1 ++ b0

/-! ### Decoding -/

/-- What is encoded (R90) and the two combinational ports, whose rows give the byte produced or consumed. -/
inductive Space where
  /-- A block of a stream, or the same bytes in a block-store entry. -/
  | block
  /-- The header of a stream. -/
  | header
  /-- A command code. -/
  | command
  /-- The byte the pack port produces. -/
  | packPort
  /-- The byte the unpack port consumes. -/
  | unpackPort
deriving DecidableEq, Repr

/-- Why bytes are no instruction of a space. No byte value is illegal in any space (R99, R102); bytes can only be missing. -/
inductive DecodeError where
  /-- There is no byte at all: no control byte, no command code, no port value. -/
  | noByte
  /-- The stream ends inside a block's payload (R236). -/
  | shortPayload
  /-- The stream has fewer than 4 bytes (R236). -/
  | shortHeader
deriving DecidableEq, Repr

/-- A block at the head of `bytes`, with the rest (R94). -/
def decodeBlock (bytes : List Byte) : Except DecodeError (Instr × List Byte) :=
  match bytes with
  | [] => .error .noByte
  | c :: rest =>
    match kindOf c, rest with
    | .lit, _ => if rest.length < lenOf c then .error .shortPayload else .ok (.lit (rest.take (lenOf c)), rest.drop (lenOf c))
    | .rep, [] => .error .shortPayload
    | .rep, b :: rest' => .ok (.rep (lenOf c) b, rest')

/-- The header at the head of `bytes`, with the rest (R95). -/
def decodeHeader (bytes : List Byte) : Except DecodeError (Instr × List Byte) :=
  match bytes with
  | b0 :: b1 :: b2 :: b3 :: rest => .ok (.count (unle32 b0 b1 b2 b3), rest)
  | _ => .error .shortHeader

/-- A command code; every byte is one (R102, R303). -/
def decodeCommand (v : Byte) : Instr :=
  if v = 0x00#8 then .nop
  else if v = 0x01#8 then .compress
  else if v = 0x02#8 then .decompress
  else if v = 0x03#8 then .size
  else if v = 0x04#8 then .serialize
  else if v = 0x05#8 then .deserialize
  else if v = 0x06#8 then .release
  else if v = 0x07#8 then .reserved07
  else if v &&& 0xF8#8 = 0x08#8 then .reserved08 (v.extractLsb' 0 3)
  else if v &&& 0xF0#8 = 0x10#8 then .reserved10 (v.extractLsb' 0 4)
  else if v &&& 0xE0#8 = 0x20#8 then .reserved20 (v.extractLsb' 0 5)
  else if v &&& 0xC0#8 = 0x40#8 then .reserved40 (v.extractLsb' 0 6)
  else .reserved80 (v.extractLsb' 0 7)

/-- The decoder: total on any bytes in every space. -/
def decode (sp : Space) (bytes : List Byte) : Except DecodeError (Instr × List Byte) :=
  match sp, bytes with
  | .block, _ => decodeBlock bytes
  | .header, _ => decodeHeader bytes
  | .command, v :: rest => .ok (decodeCommand v, rest)
  | .packPort, c :: rest => .ok (.pack (kindOf c) (BitVec.ofNat 8 (lenOf c)), rest)
  | .unpackPort, c :: rest => .ok (.unpack c, rest)
  | .command, [] => .error .noByte
  | .packPort, [] => .error .noByte
  | .unpackPort, [] => .error .noByte

/-! ### Encoding -/

/-- The space an instruction's bytes stand in (the table's "space"). -/
def spaceOf : Instr → Space
  | .lit _ => .block
  | .rep _ _ => .block
  | .count _ => .header
  | .nop => .command
  | .compress => .command
  | .decompress => .command
  | .size => .command
  | .serialize => .command
  | .deserialize => .command
  | .release => .command
  | .reserved07 => .command
  | .reserved08 _ => .command
  | .reserved10 _ => .command
  | .reserved20 _ => .command
  | .reserved40 _ => .command
  | .reserved80 _ => .command
  | .pack _ _ => .packPort
  | .unpack _ => .unpackPort

/-- The bytes of an instruction, in the order the hardware stores them (R92, R93, R95, R102; for the ports R91). -/
def encode : Instr → List Byte
  | .lit payload => packLen .lit payload.length :: payload
  | .rep len b => [packLen .rep len, b]
  | .count c => le32 c
  | .nop => [0x00#8]
  | .compress => [0x01#8]
  | .decompress => [0x02#8]
  | .size => [0x03#8]
  | .serialize => [0x04#8]
  | .deserialize => [0x05#8]
  | .release => [0x06#8]
  | .reserved07 => [0x07#8]
  | .reserved08 low => [0b00001#5 ++ low]
  | .reserved10 low => [0b0001#4 ++ low]
  | .reserved20 low => [0b001#3 ++ low]
  | .reserved40 low => [0b01#2 ++ low]
  | .reserved80 low => [0b1#1 ++ low]
  | .pack kind len => [packLen kind len.toNat]
  | .unpack c => [c]

/-- The number of stream or code bytes of an instruction (R94, R95, R102). -/
def encodedLength : Instr → Nat
  | .lit payload => 1 + payload.length
  | .rep _ _ => 2
  | .count _ => 4
  | .nop => 1
  | .compress => 1
  | .decompress => 1
  | .size => 1
  | .serialize => 1
  | .deserialize => 1
  | .release => 1
  | .reserved07 => 1
  | .reserved08 _ => 1
  | .reserved10 _ => 1
  | .reserved20 _ => 1
  | .reserved40 _ => 1
  | .reserved80 _ => 1
  | .pack _ _ => 1
  | .unpack _ => 1

/-! ### The table's words -/

/-- The lowest `n` bytes of `w`, the lowest first: how the hardware stores a word of the table. -/
def bytesOfWord : (n : Nat) → (w : Nat) → List Byte
  | 0, _ => []
  | n + 1, w => BitVec.ofNat 8 w :: bytesOfWord n (w / 256)

/-- The longest instruction has 129 bytes (R94). -/
def longestInstr : Nat := 129

/-- Which space a table word of `nbits` bits is read in. DESIGN CHOICE (notes/assumptions/2.md): the table's 8-bit rows stand
in four spaces that share all 256 byte values; 8 bits are read as a command code, 32 bits as a stream header, and any other
width as a block. -/
def tableSpace (nbits : Nat) : Space :=
  if nbits = 8 then .command else if nbits = 32 then .header else .block

/-- The bytes of a table word: `w`'s, and zeros up to the longest instruction of its space. -/
def tableBytes (nbits w : Nat) : List Byte :=
  match tableSpace nbits with
  | .command => bytesOfWord 1 w
  | .header => bytesOfWord 4 w
  | .block => bytesOfWord longestInstr (w % 2 ^ nbits)
  | .packPort => bytesOfWord 1 w
  | .unpackPort => bytesOfWord 1 w

/-- The instruction the decoder reads from an instruction whose bits are `w`. -/
def decodeTableWord (nbits w : Nat) : Option Instr :=
  match decode (tableSpace nbits) (tableBytes nbits w) with
  | .ok (i, _) => some i
  | .error _ => none

end Sys2Proof
end

