-- ==== Sys2Proof/Machine/State.lean ====
section
/-! DEFINITION. The state of the block: all that 10_state.md names, the ports of 40_control_byte.md R120, and the pending
actions of the host, which is the one agent outside the block (70_reset_and_hazards.md R330). Plain data throughout. -/

namespace Sys2Proof.Machine

/-- `PHASE` (R23): what the sequencer is doing. The reserved values 8 to 15 are never entered (U9). -/
inductive Phase where
  | idle
  | encLit
  | encRep
  | decSum
  | decExp
  | size
  | ser
  | des
deriving DecidableEq, Repr

/-- `STATUS.ST` (R30). -/
inductive St where
  | idle
  | busy
  | done
  | fail
deriving DecidableEq, Repr

/-- The value of `ERR` (R281): no failure, or one of the seven failure kinds. -/
inductive ErrKind where
  | none
  | invalidInput
  | allocationFailure
  | ioFailure
  | malformedCount
  | corruptStructure
  | malformedStream
  | illegalCommand
deriving DecidableEq, Repr

/-- The five flags of `FLAGS` (R32). -/
inductive Flag where
  | inPresent
  | cdValid
  | outValid
  | strPresent
  | strWritable
deriving DecidableEq, Repr

/-- The control registers CR0 to CR8 (R25). -/
inductive CReg where
  | cmd
  | status
  | err
  | flags
  | n
  | nblk
  | outLen
  | size
  | strLen
deriving DecidableEq, Repr

/-- The fields of a block-store entry (R41), each moved as a whole (R67); a payload index is in 0..127. -/
inductive EntryField where
  | present
  | ctrl
  | plen
  | pay (k : Fin 128)
deriving DecidableEq, Repr

/-- One access of the host to the block's registers and memories, or a reset (R330). -/
inductive HostAccess where
  /-- Assert reset (R320), at any time. -/
  | reset
  /-- Write a control register; writing `CMD` here makes `ST` BUSY and does not wait. A narrower register takes the low bits
  of `v`. -/
  | write (r : CReg) (v : Word64)
  /-- Write one flag of `FLAGS`. -/
  | writeFlag (f : Flag) (v : Bool)
  /-- Read a control register. -/
  | read (r : CReg)
  /-- Write the byte of `IN` at an address. -/
  | writeIn (a : Nat) (v : Byte)
  /-- Write the byte of `OUT` at an address: ignored, `OUT` is read-only to the host (R330, U10). -/
  | writeOut (a : Nat) (v : Byte)
  /-- Write the byte of `STR` at an address. -/
  | writeStr (a : Nat) (v : Byte)
  /-- Write one field of a block-store entry; `.present` takes bit 0 of `v`. -/
  | writeEntry (b : Nat) (f : EntryField) (v : Byte)
  /-- Read the byte of `IN` at an address. -/
  | readIn (a : Nat)
  /-- Read the byte of `OUT` at an address. -/
  | readOut (a : Nat)
  /-- Read the byte of `STR` at an address. -/
  | readStr (a : Nat)
  /-- Read one field of a block-store entry. -/
  | readEntry (b : Nat) (f : EntryField)
deriving DecidableEq, Repr

/-- One action of the host (R330). A host script (95_test_vectors.md section 9) is a list of these. -/
inductive HostAct where
  /-- An access, or a reset. -/
  | access (a : HostAccess)
  /-- Write a byte to `CMD` and wait until `ST` leaves BUSY: the whole command in one step (R300, R72). -/
  | command (v : Byte)
  /-- Let the sequencer go on until `ST` leaves BUSY. -/
  | wait
  /-- Let the sequencer take one step, so that the host can read `STATUS`, use a port or assert reset in the middle of a
  command. -/
  | tick
  /-- Drive `PK_KIND` and `PK_LEN` (R120), at any time. -/
  | pack (kind : Kind) (len : Byte)
  /-- Drive `UP_CTRL` (R120), at any time. -/
  | unpack (c : Byte)
deriving DecidableEq, Repr

/-- One memory: the bytes written since it last became unspecified, at strictly rising addresses, and how often it became
unspecified before (`epoch`, the index of the free values its unlisted addresses read as). -/
structure Mem where
  cells : List Host.Cell
  epoch : Nat
deriving DecidableEq, Repr

/-- The whole state. Fields that the spec does not name are marked as the model's own. -/
structure State where
  /-- The parameters of R6; no step changes them. The model's own place for them (notes/assumptions/1.md). -/
  cfg : Config
  /-- CR0 `CMD` (R25, R27). -/
  cmd : Byte
  /-- CR1 `STATUS`, field `ST` (R30). -/
  st : St
  /-- CR2 `ERR` (R31). -/
  err : ErrKind
  /-- CR3 `FLAGS` bit 0 (R32). -/
  inPresent : Bool
  /-- CR3 `FLAGS` bit 1 (R32, R33). -/
  cdValid : Bool
  /-- CR3 `FLAGS` bit 2 (R32, R36). -/
  outValid : Bool
  /-- CR3 `FLAGS` bit 3 (R32, R37). -/
  strPresent : Bool
  /-- CR3 `FLAGS` bit 4 (R32, R38). -/
  strWritable : Bool
  /-- CR4 `N` (R26). -/
  n : Word32
  /-- CR5 `NBLK` (R25). -/
  nblk : Word32
  /-- CR6 `OUT_LEN` (R25). -/
  outLen : Word64
  /-- CR7 `SIZE` (R25). -/
  size : Word64
  /-- CR8 `STR_LEN` (R25). -/
  strLen : Word64
  /-- `PHASE` (R21, R23). -/
  phase : Phase
  /-- The model's own: the host has written `CMD` (R300) and the command's own start rule is the sequencer's next transition
  (notes/assumptions/26.md). -/
  starting : Bool
  /-- `E_I` (R21, R24), a plain number; 32 bits suffice. -/
  eI : Nat
  /-- `E_M` (R21); 8 bits suffice. -/
  eM : Nat
  /-- `E_R` (R21); 8 bits suffice. -/
  eR : Nat
  /-- `E_FIRST` (R21). -/
  eFirst : Byte
  /-- `D_B` (R21, R24); 32 bits suffice. -/
  dB : Nat
  /-- `D_K` (R21); 8 bits suffice. -/
  dK : Nat
  /-- `D_O` (R21); 64 bits suffice. -/
  dO : Nat
  /-- `D_TOTAL` (R21); 64 bits suffice. -/
  dTotal : Nat
  /-- `S_B` (R21); 32 bits suffice. -/
  sB : Nat
  /-- `S_P` (R21, R24); 64 bits suffice. -/
  sP : Nat
  /-- `S_CNT` (R21), signed. -/
  sCnt : Word32
  /-- `IN` (R40). -/
  inMem : Mem
  /-- `BLK` (R40, R41): the fields of the entries, laid out by `fieldAddr`. -/
  blkMem : Mem
  /-- `OUT` (R40). -/
  outMem : Mem
  /-- `STR` (R40). -/
  strMem : Mem
  /-- `PK_KIND` (R120): what the host drives on the port. -/
  pkKind : Kind
  /-- `PK_LEN` (R120): what the host drives on the port. -/
  pkLen : Byte
  /-- `UP_CTRL` (R120): what the host drives on the port. -/
  upCtrl : Byte
  /-- The model's own: the host's actions still to come, the next one first (notes/assumptions/3.md). -/
  host : List HostAct
  /-- The model's own: the value the host's last read returned (notes/assumptions/4.md). -/
  lastRead : Word64
  /-- The model's own: how many free values of `Config.busyRead` have been drawn (notes/assumptions/5.md). -/
  draws : Nat
deriving DecidableEq, Repr

/-- Why the machine stops. -/
inductive Fault where
  /-- Raised by a host access (`hostAccess`) to an address outside the capacity of `IN`, `OUT` or `STR`, or by a host write to an
  entry outside the block store (R40). No command raises it. Safe: the spec gives such an access no result
  (notes/assumptions/6.md). -/
  | noSuchAddress
deriving DecidableEq, Repr

/-- Why an instruction or a host action has no meaning. -/
inductive Refusal where
  /-- Raised by no arm: every instruction has a meaning. Safe. -/
  | notModelled (mnemonic : String)
  /-- Raised by a command and by every host write while `ST = BUSY` (R304, R331, U2). Safe: the spec leaves the effect
  undefined and asks for a refusal. -/
  | hostWriteWhileBusy
  /-- Raised by `LIT`, `REP` and `COUNT` outside the pass of the sequencer that executes them: no rule has the block execute
  one there. Safe, and no step reaches it (notes/assumptions/7.md). -/
  | blockOutsidePass
deriving DecidableEq, Repr

/-- A memory nothing has written. -/
def emptyMem : Mem where
  cells := []
  epoch := 0

/-- The state right after reset of a block with parameters `c` (R47, R320). The values of the working registers other than
`PHASE`, of the ports and of the model's own fields are DESIGN CHOICES (notes/assumptions/8.md); no rule reads one of them
before it is written. -/
def State.resetWith (c : Config) : State where
  cfg := c
  cmd := 0#8
  st := .idle
  err := .none
  inPresent := false
  cdValid := false
  outValid := false
  strPresent := false
  strWritable := false
  n := 0#32
  nblk := 0#32
  outLen := 0#64
  size := 0#64
  strLen := 0#64
  phase := .idle
  starting := false
  eI := 0
  eM := 0
  eR := 0
  eFirst := 0#8
  dB := 0
  dK := 0
  dO := 0
  dTotal := 0
  sB := 0
  sP := 0
  sCnt := 0#32
  inMem := emptyMem
  blkMem := emptyMem
  outMem := emptyMem
  strMem := emptyMem
  pkKind := .lit
  pkLen := 0#8
  upCtrl := 0#8
  host := []
  lastRead := 0#64
  draws := 0

/-- The machine right after reset, with no host action pending. -/
def State.reset : State := State.resetWith Config.standard

end Sys2Proof.Machine
end

