-- ==== Sys2Proof/Machine/Ops.lean ====
section
/-! DEFINITION. The named operations over memory and registers: reading and writing a memory (20_memory.md), releasing
(60_exceptions.md R291, R302), starting a command (R300), raising a failure (R290, R291) and finishing. -/

namespace Sys2Proof.Machine

/-! ### One memory -/

/-- The number of addresses of one entry: `.present`, `.ctrl`, `.plen` and 128 payload bytes (R41). -/
def entrySize : Nat := 131

/-- Where a field of entry `b` stands in `BLK`. DESIGN CHOICE (notes/assumptions/9.md): the spec gives entries no byte
addresses. No two fields of any entries share an address (R60). -/
def fieldAddr (b : Nat) : EntryField → Nat
  | .present => entrySize * b
  | .ctrl => entrySize * b + 1
  | .plen => entrySize * b + 2
  | .pay k => entrySize * b + 3 + k.val

/-- What an address that is not listed holds: 0 in a `.present` field (R47, R291: a released entry is absent), and no value
anywhere else (R69). -/
def unlisted (sp : MemSpace) (a : Nat) : Option Byte :=
  match sp with
  | .blk => if a % entrySize = 0 then some 0#8 else none
  | .inp => none
  | .out => none
  | .str => none

/-- The byte listed at `a`. -/
def lookup (cells : List Host.Cell) (a : Nat) : Option Byte :=
  match cells with
  | [] => none
  | c :: rest => if c.1 = a then some c.2 else lookup rest a

/-- List `v` at `a`, keeping the addresses rising. -/
def insertCell (cells : List Host.Cell) (a : Nat) (v : Byte) : List Host.Cell :=
  match cells with
  | [] => [(a, v)]
  | c :: rest =>
    if a < c.1 then (a, v) :: c :: rest else if a = c.1 then (a, v) :: rest else c :: insertCell rest a v

/-- List nothing at `a`. -/
def eraseCell (cells : List Host.Cell) (a : Nat) : List Host.Cell :=
  match cells with
  | [] => []
  | c :: rest => if c.1 = a then rest else c :: eraseCell rest a

/-- The canonical form: addresses strictly rising, and no entry equal to what an unlisted address holds. -/
abbrev Mem.wf (sp : MemSpace) (m : Mem) : Prop :=
  m.cells.Pairwise (fun c d => c.1 < d.1) ∧ ∀ c ∈ m.cells, unlisted sp c.1 ≠ some c.2

/-- The byte at `a` (R68): the last byte written, or what an unlisted address holds, or a free value (R69, U1). -/
def Mem.read (sp : MemSpace) (m : Mem) (a : Nat) : Byte :=
  match lookup m.cells a, unlisted sp a with
  | some v, _ => v
  | none, some v => v
  | none, none => Config.unwritten sp m.epoch a

/-- Write one byte, keeping the canonical form. -/
def Mem.write (sp : MemSpace) (m : Mem) (a : Nat) (v : Byte) : Mem :=
  if unlisted sp a = some v then { m with cells := eraseCell m.cells a } else { m with cells := insertCell m.cells a v }

/-- Every byte becomes unspecified, every `.present` 0: nothing is listed and the free values are fresh ones. -/
def Mem.forget (m : Mem) : Mem where
  cells := []
  epoch := m.epoch + 1

/-- `MemRead(S, a, n)` (R10). -/
def Mem.readBytes (sp : MemSpace) (m : Mem) (a : Nat) : (n : Nat) → List Byte
  | 0 => []
  | n + 1 => m.read sp a :: m.readBytes sp (a + 1) n

/-- `MemWrite(S, a, |bs|, bs)` (R10), in ascending address order (R67). -/
def Mem.writeBytes (sp : MemSpace) (m : Mem) (a : Nat) : (bs : List Byte) → Mem
  | [] => m
  | b :: bs => (m.write sp a b).writeBytes sp (a + 1) bs

/-! ### Releasing -/

/-- Release the block store (D12, R302): every entry absent, its other fields unspecified (U7). -/
def releaseStore (s : State) : State :=
  { s with cdValid := false, nblk := 0#32, blkMem := s.blkMem.forget }

/-- Invalidate the output (R300): `OUT_VALID <- 0; OUT_LEN <- 0`. -/
def releaseOutput (s : State) : State :=
  { s with outValid := false, outLen := 0#64 }

/-- Every byte of `OUT` becomes unspecified (R190, R291, U5). -/
def forgetOut (s : State) : State :=
  { s with outMem := s.outMem.forget }

/-- Every byte of `STR` becomes unspecified: SERIALIZE writes a new stream (R222, U6). -/
def forgetStr (s : State) : State :=
  { s with strMem := s.strMem.forget }

/-! ### Command control -/

/-- The registers of R300 that every command's start writes. -/
def setBusy (v : Byte) (s : State) : State :=
  { s with cmd := v, st := .busy, err := .none }

/-- Starting a command (R300): `CMD <- v; ST <- BUSY; ERR <- 0`, and the pre-clear of the command `v`. -/
def beginCommand (v : Byte) (s : State) : State :=
  if v = 0x01#8 ∨ v = 0x05#8 then releaseStore (setBusy v s)
  else if v = 0x02#8 then releaseOutput (setBusy v s)
  else setBusy v s

/-- The values of `PHASE` other than `P_IDLE` (R23). -/
def busyPhase (k : Fin 7) : Phase :=
  match k with
  | 0 => .encLit
  | 1 => .encRep
  | 2 => .decSum
  | 3 => .decExp
  | 4 => .size
  | 5 => .ser
  | 6 => .des

/-- A host write of `v` to `CMD` that does not wait: the common start (R300) as a transition of its own, with `ST` BUSY at once
(R330). `PHASE` leaves `P_IDLE` with it (R23), for a value that means nothing before the command's own start rule writes it
(R22): a free value (notes/assumptions/26.md). -/
def writeCmd (v : Byte) (s : State) : State :=
  { beginCommand v s with phase := busyPhase (Config.startPhase v), starting := true }

/-- The end of a command with a result: `PHASE <- P_IDLE; ST <- DONE; ERR <- 0` (R156, R204, R226, R238, R301, R302). -/
def finish (s : State) : State :=
  { s with phase := .idle, st := .done, err := .none }

/-- The clean-up on failure of the running command, which `CMD` holds (R291). -/
def cleanUp (s : State) : State :=
  if s.cmd = 0x01#8 ∨ s.cmd = 0x05#8 then releaseStore s
  else if s.cmd = 0x02#8 then forgetOut (releaseOutput s)
  else if s.cmd = 0x03#8 then { s with size := 0#64 }
  else s

/-- `PHASE <- P_IDLE; ST <- FAIL; ERR <- code(K)` (R290). -/
def setFail (k : ErrKind) (s : State) : State :=
  { s with phase := .idle, st := .fail, err := k }

/-- `raise K` (R290): the clean-up of the running command, then the failure, as one transition. The one way a command
fails (R280, R295). -/
def raise (k : ErrKind) (s : State) : State := setFail k (cleanUp s)

/-! ### Reset -/

/-- The reset event (R320, R321), in any state: the reset state of the same block, every memory unspecified anew. What is
outside the block stays: the host's pending actions, its last read, and what it drives on the ports. -/
def resetEvent (s : State) : State :=
  { State.resetWith s.cfg with
    inMem := s.inMem.forget, blkMem := s.blkMem.forget, outMem := s.outMem.forget, strMem := s.strMem.forget
    pkKind := s.pkKind, pkLen := s.pkLen, upCtrl := s.upCtrl
    host := s.host, lastRead := s.lastRead, draws := s.draws }

end Sys2Proof.Machine
end

