-- ==== Sys2Proof/Machine/Operands.lean ====
section
/-! DEFINITION. The operands of the commands: bytes of `IN`, `OUT` and `STR`, and the entries of the block store
(10_state.md R40 to R42). -/

namespace Sys2Proof.Machine

/-! ### Bytes -/

/-- `IN[a]`. -/
def inByte (s : State) (a : Nat) : Byte := s.inMem.read .inp a

/-- `OUT[a]`. -/
def outByte (s : State) (a : Nat) : Byte := s.outMem.read .out a

/-- `STR[a]`. -/
def strByte (s : State) (a : Nat) : Byte := s.strMem.read .str a

/-- `IN[a..a+n-1]`. -/
def inBytes (s : State) (a n : Nat) : List Byte := s.inMem.readBytes .inp a n

/-- `OUT[a..a+n-1]`. -/
def outBytes (s : State) (a n : Nat) : List Byte := s.outMem.readBytes .out a n

/-- `STR[a..a+n-1]`. -/
def strBytes (s : State) (a n : Nat) : List Byte := s.strMem.readBytes .str a n

/-- The byte sequence COMPRESS compresses: `IN[0..N-1]` (R140). -/
def input (s : State) : List Byte := inBytes s 0 s.n.toNat

/-- The decoded byte sequence: `OUT[0..OUT_LEN-1]` (R40). -/
def output (s : State) : List Byte := outBytes s 0 s.outLen.toNat

/-- The serial stream: `STR[0..STR_LEN-1]` (R40). -/
def stream (s : State) : List Byte := strBytes s 0 s.strLen.toNat

/-- The four bytes of the block count as they stand in `STR`, from the bytes in the order lowest first, and back
(`COUNT_ORDER`, R6, R63): both orders agree where it is little-endian. -/
def inOrder (o : ByteOrder) (bs : List Byte) : List Byte :=
  match o with
  | .little => bs

/-! ### Entries of the block store -/

/-- `BLK[b].present`; an entry at or beyond `BLK_CAP` is absent (R76). -/
def entryPresent (s : State) (b : Nat) : Bool :=
  decide (b < s.cfg.blkCap) && (s.blkMem.read .blk (fieldAddr b .present)).getLsbD 0

/-- `BLK[b].ctrl`. -/
def entryCtrl (s : State) (b : Nat) : Byte := s.blkMem.read .blk (fieldAddr b .ctrl)

/-- `BLK[b].plen`. -/
def entryPlen (s : State) (b : Nat) : Byte := s.blkMem.read .blk (fieldAddr b .plen)

/-- `BLK[b].pay[0..n-1]`. -/
def entryPay (s : State) (b n : Nat) : List Byte := s.blkMem.readBytes .blk (entrySize * b + 3) n

/-- `need(e)` (R42). -/
def entryNeed (s : State) (b : Nat) : Nat := need (entryCtrl s b)

/-- The payload bytes the readers use: the first `need(e)` (R42). -/
def entryPayload (s : State) (b : Nat) : List Byte := entryPay s b (entryNeed s b)

/-- An entry is usable when it is present and holds at least `need(e)` payload bytes (R42). -/
def usable (s : State) (b : Nat) : Bool :=
  entryPresent s b && decide (entryNeed s b ≤ (entryPlen s b).toNat)

/-- An entry is well-formed when it is present and holds exactly `need(e)` payload bytes (R42). -/
def entryWellFormed (s : State) (b : Nat) : Bool :=
  entryPresent s b && decide ((entryPlen s b).toNat = entryNeed s b)

/-- Write entry `b` with a control byte and its payload, and make it present (R145, R235). -/
def storeEntry (b : Nat) (ctrl : Byte) (payload : List Byte) (s : State) : State :=
  let m1 := s.blkMem.write .blk (fieldAddr b .ctrl) ctrl
  let m2 := m1.write .blk (fieldAddr b .plen) (BitVec.ofNat 8 payload.length)
  let m3 := m2.writeBytes .blk (entrySize * b + 3) payload
  { s with blkMem := m3.write .blk (fieldAddr b .present) 1#8 }

/-- `CD_VALID = 0` or `NBLK = 0`: there is no CompressedData, or an empty one (R35). -/
def noData (s : State) : Bool := !s.cdValid || decide (s.nblk = 0#32)

/-! ### The outputs of the ports (R120) -/

/-- `PK_CTRL`. -/
def pkCtrl (s : State) : Byte := packLen s.pkKind s.pkLen.toNat

/-- `UP_KIND`. -/
def upKind (s : State) : Kind := kindOf s.upCtrl

/-- `UP_LEN`. -/
def upLen (s : State) : Byte := BitVec.ofNat 8 (lenOf s.upCtrl)

end Sys2Proof.Machine
end

