-- ==== Sys2Proof/Machine/Ports.lean ====
section
/-! DEFINITION. The meanings of `PACK` and `UNPACK`, the two halves of the combinational unit (40_control_byte.md R120): the
host drives a port's inputs, at any time, and the outputs `pkCtrl`, `upKind` and `upLen` are functions of them. -/

namespace Sys2Proof.Machine

/-- `PACK` (R121): drive `PK_KIND` and `PK_LEN`; `PK_CTRL` is `pkCtrl` of the new state, for a length outside 1..128 a free
value (R122; notes/assumptions/11.md). -/
def execPack (kind : Kind) (len : Byte) (s : State) : Host.Outcome State Fault Refusal :=
  .next { s with pkKind := kind, pkLen := len }

/-- `UNPACK` (R124): drive `UP_CTRL`; `UP_KIND` and `UP_LEN` are `upKind` and `upLen` of the new state. -/
def execUnpack (c : Byte) (s : State) : Host.Outcome State Fault Refusal :=
  .next { s with upCtrl := c }

end Sys2Proof.Machine
end

