-- ==== Sys2Proof/Machine/Codec.lean ====
section
/-! DEFINITION. The codec as functions on byte and block sequences, independent of the sequencer's transitions: the normative
definitions of 41_encoder.md R142 and R143, 43_decoder.md R191 to R193, 42_size.md R180 and 44_stream.md R221 and R231. -/

namespace Sys2Proof.Machine

/-- A block (R41, R103): kind, length and payload as one value. -/
inductive Block where
  | lit (payload : List Byte)
  | rep (len : Nat) (b : Byte)
deriving DecidableEq, Repr

/-- The instruction that a block is (R90). -/
def Block.instr : Block → Instr
  | .lit payload => .lit payload
  | .rep len b => .rep len b

/-- The kind of a block. -/
def Block.kind : Block → Kind
  | .lit _ => .lit
  | .rep _ _ => .rep

/-- The length of a block: the number of bytes it stands for (R14). -/
def Block.len : Block → Nat
  | .lit payload => payload.length
  | .rep len _ => len

/-- The stored bytes of a block (R41). -/
def Block.payload : Block → List Byte
  | .lit payload => payload
  | .rep _ b => [b]

/-- The control byte of a block (R91). -/
def Block.ctrl (k : Block) : Byte := packLen k.kind k.len

/-- `expand` (R191). -/
def Block.expand : Block → List Byte
  | .lit payload => payload
  | .rep len b => List.replicate len b

/-! ### Encoding a sequence -/

/-- `lit_span` (R142) of the bytes from a position on: how many leading bytes have a successor and differ from it, at most
`cap`. -/
def litSpan : (cap : Nat) → List Byte → Nat
  | cap + 1, x :: y :: rest => if x ≠ y then litSpan cap (y :: rest) + 1 else 0
  | _, _ => 0

/-- `rep_span` (R142) of the bytes from a position on: how many leading bytes equal `x`, at most `cap`. -/
def repSpan : (cap : Nat) → (x : Byte) → List Byte → Nat
  | cap + 1, x, y :: rest => if y = x then repSpan cap x rest + 1 else 0
  | _, _, _ => 0

/-- The loop of R143 from a position on; every iteration takes at least one byte, so `fuel` is their number. -/
def encodeFrom (litMax : Nat) : (fuel : Nat) → List Byte → List Block
  | fuel + 1, x :: rest =>
    let bytes := x :: rest
    let m := litSpan litMax bytes
    let r := repSpan Config.repMax x bytes
    if 0 < m then .lit (bytes.take m) :: encodeFrom litMax fuel (bytes.drop m)
    else .rep r x :: encodeFrom litMax fuel (bytes.drop r)
  | _, _ => []

/-- `encode(IN, N)` (R143). -/
def encodeBytes (litMax : Nat) (bytes : List Byte) : List Block := encodeFrom litMax bytes.length bytes

/-! ### Decoding a sequence -/

/-- `decode` (R192). -/
def decodeBlocks : List Block → List Byte
  | [] => []
  | k :: rest => k.expand ++ decodeBlocks rest

/-- `total` (R193). -/
def totalLen : List Block → Nat
  | [] => 0
  | k :: rest => k.len + totalLen rest

/-! ### The stream -/

/-- The sum of `ssize` over a sequence (R180, R127). -/
def totalSize : List Block → Nat
  | [] => 0
  | k :: rest => ssize k.ctrl + totalSize rest

/-- `ser1` of each block in turn (R221). -/
def serializeBlocks : List Block → List Byte
  | [] => []
  | k :: rest => k.ctrl :: k.payload ++ serializeBlocks rest

/-- `serialize` (R221). -/
def serializeStream (ks : List Block) : List Byte := le32 (BitVec.ofNat 32 ks.length) ++ serializeBlocks ks

/-- The loop of `parse` (R231): `count` blocks, and the bytes after the last one. -/
def parseBlocks : (count : Nat) → List Byte → Except ErrKind (List Block × List Byte)
  | 0, bytes => .ok ([], bytes)
  | count + 1, bytes =>
    match decodeBlock bytes with
    | .ok (.lit payload, rest) => (parseBlocks count rest).map fun r => (.lit payload :: r.1, r.2)
    | .ok (.rep len b, rest) => (parseBlocks count rest).map fun r => (.rep len b :: r.1, r.2)
    | _ => .error .malformedStream

/-- `parse` (R231), with the bytes after the last block, which are ignored (R237). -/
def parseStream (blkCap : Nat) (bytes : List Byte) : Except ErrKind (List Block × List Byte) :=
  match bytes with
  | b0 :: b1 :: b2 :: b3 :: rest =>
    if (unle32 b0 b1 b2 b3).toInt ≤ 0 then .error .malformedCount
    else if blkCap < (unle32 b0 b1 b2 b3).toNat then .error .allocationFailure
    else parseBlocks (unle32 b0 b1 b2 b3).toNat rest
  | _ => .error .malformedStream

/-! ### The block store as a sequence -/

/-- The block a usable entry holds (R42, R191): excess payload bytes are not part of it. -/
def entryBlock (s : State) (b : Nat) : Block :=
  match kindOf (entryCtrl s b) with
  | .lit => .lit (entryPayload s b)
  | .rep => .rep (lenOf (entryCtrl s b)) (s.blkMem.read .blk (entrySize * b + 3))

/-- The blocks of entries `b .. b+n-1`. -/
def blocksFrom (s : State) (b : Nat) : (n : Nat) → List Block
  | 0 => []
  | n + 1 => entryBlock s b :: blocksFrom s (b + 1) n

/-- The CompressedData in the block store: `BLK[0..NBLK-1]` (R40). -/
def storedBlocks (s : State) : List Block := blocksFrom s 0 s.nblk.toNat

/-- Every entry `b .. b+n-1` is usable. -/
def allUsable (s : State) (b : Nat) : (n : Nat) → Bool
  | 0 => true
  | n + 1 => usable s b && allUsable s (b + 1) n

/-- Every entry `b .. b+n-1` is well-formed. -/
def allWellFormed (s : State) (b : Nat) : (n : Nat) → Bool
  | 0 => true
  | n + 1 => entryWellFormed s b && allWellFormed s (b + 1) n

/-- Every entry of the CompressedData is usable. -/
def storeUsable (s : State) : Bool := allUsable s 0 s.nblk.toNat

end Sys2Proof.Machine
end

