-- ==== Sys2Proof/Machine/Decoder.lean ====
section
/-! DEFINITION. The decoder (43_decoder.md): the start rule of DECOMPRESS, the transitions S1, S2 and X1, and the expansion of
one block as the decoder executes it. -/

namespace Sys2Proof.Machine

/-- The start rule of DECOMPRESS (R200), after `beginCommand`. -/
def startDecompress (s : State) : State :=
  if noData s then raise .invalidInput s
  else { s with dB := 0, dTotal := 0, dK := 0, dO := 0, phase := .decSum }

/-- S1, sum one block (R201). -/
def sumBlock (s : State) : State :=
  if usable s s.dB then { s with dTotal := s.dTotal + lenOf (entryCtrl s s.dB), dB := s.dB + 1 }
  else raise .corruptStructure s

/-- S2, allocate (R202). The bytes of `OUT` that this command does not write are unspecified from here on (R190, U5). -/
def allocateOut (s : State) : State :=
  if s.cfg.outCap < s.dTotal then raise .allocationFailure s
  else { forgetOut s with dB := 0, dK := 0, dO := 0, phase := .decExp }

/-- One transition in `P_DEC_SUM` (R206). -/
def decSumStep (s : State) : State := if s.dB < s.nblk.toNat then sumBlock s else allocateOut s

/-- The end of DECOMPRESS with a result (R204). -/
def finishDecompress (s : State) : State :=
  finish { s with outLen := BitVec.ofNat 64 s.dTotal, outValid := true }

/-- The end of block `D_B` in the expansion pass (R203): the next block, or the end after the last one. -/
def endBlock (s : State) : State :=
  if s.dB + 1 = s.nblk.toNat then finishDecompress { s with dK := 0, dB := s.dB + 1 }
  else { s with dK := 0, dB := s.dB + 1 }

/-- The byte X1 writes (R203): of a Literal the payload byte `D_K`, of a Repeat the one payload byte. -/
def expansionByte (s : State) : Byte :=
  match kindOf (entryCtrl s s.dB) with
  | .lit => s.blkMem.read .blk (entrySize * s.dB + 3 + s.dK)
  | .rep => s.blkMem.read .blk (entrySize * s.dB + 3)

/-- `OUT[D_O] <- byte; D_O <- D_O + 1` (R203). -/
def putByte (v : Byte) (s : State) : State :=
  { s with outMem := s.outMem.write .out s.dO v, dO := s.dO + 1 }

/-- X1, write one byte (R203). -/
def expandByte (s : State) : State :=
  let t := putByte (expansionByte s) s
  if s.dK + 1 < lenOf (entryCtrl s s.dB) then { t with dK := s.dK + 1 } else endBlock t

/-- What the decoder does on a block whose expansion is `bytes` (R191): write the bytes not yet written, `D_K` on, and go on
to the next block. The X1 transitions of one block, in one step (R72). -/
def expandBlock (bytes : List Byte) (s : State) : State :=
  let rest := bytes.drop s.dK
  endBlock { s with outMem := s.outMem.writeBytes .out s.dO rest, dO := s.dO + rest.length }

end Sys2Proof.Machine
end

