-- ==== Sys2Proof/Machine/Stream.lean ====
section
/-! DEFINITION. The stream writer and reader (44_stream.md): SERIALIZE (R222 to R226) and DESERIALIZE (R230 to R239). -/

namespace Sys2Proof.Machine

/-! ### The writer -/

/-- The pre-check loop of SERIALIZE (R224) over `n` entries from `b` on: the sum of `ssize`, or nothing at the first entry
that is not usable. -/
def checkEntries (s : State) (b : Nat) (total : Nat) : (n : Nat) → Option Nat
  | 0 => some total
  | n + 1 => if usable s b then checkEntries s (b + 1) (total + ssize (entryCtrl s b)) n else none

/-- The header and the start of the write loop (R225), once the pre-check has found `total`. -/
def writeHeader (total : Nat) (s : State) : State :=
  let t := forgetStr s
  { t with strMem := t.strMem.writeBytes .str 0 (inOrder s.cfg.countOrder (le32 s.nblk)), sP := 4, sB := 0, dTotal := total }

/-- The pre-check of the entries and of the room (R224), and the header. -/
def preCheck (s : State) : State :=
  match checkEntries s 0 0 s.nblk.toNat with
  | none => raise .corruptStructure s
  | some total => if s.cfg.strCap < 4 + total then raise .ioFailure s else writeHeader total s

/-- The start rule of SERIALIZE with the whole pre-check (R223, R224), and the header (R225). DESIGN CHOICE
(notes/assumptions/10.md): one transition, since `PHASE` is `P_SER` throughout and the grain is not observable (R72). -/
def startSerialize (s : State) : State :=
  if noData s then raise .invalidInput { s with phase := .ser }
  else if !s.strWritable then raise .ioFailure { s with phase := .ser }
  else preCheck { s with phase := .ser }

/-- One block of the write loop (R225). -/
def writeBlock (s : State) : State :=
  let bytes := entryCtrl s s.sB :: entryPayload s s.sB
  { s with strMem := s.strMem.writeBytes .str s.sP bytes, sP := s.sP + bytes.length, sB := s.sB + 1 }

/-- The end of SERIALIZE with a result (R226). -/
def finishSerialize (s : State) : State :=
  finish { s with strLen := BitVec.ofNat 64 s.sP, strPresent := true }

/-- One transition in `P_SER`. -/
def serStep (s : State) : State := if s.sB < s.nblk.toNat then writeBlock s else finishSerialize s

/-! ### The reader -/

/-- The start rule of DESERIALIZE (R232), after `beginCommand`. -/
def startDeserialize (s : State) : State :=
  let t := { s with phase := .des, sP := 0, sB := 0 }
  if !s.strPresent then raise .ioFailure t else t

/-- What the reader does on the header `COUNT c` (R233, R234). -/
def acceptCount (c : Word32) (s : State) : State :=
  let t := { s with sCnt := c, sP := 4 }
  if c.toInt ≤ 0 then raise .malformedCount t
  else if s.cfg.blkCap < c.toNat then raise .allocationFailure t
  else t

/-- The end of DESERIALIZE with a result (R238). -/
def finishDeserialize (s : State) : State := finish { s with nblk := s.sCnt, cdValid := true }

/-- What the reader does on a whole block with this control byte and payload (R235): store it as entry `S_B`. -/
def loadBlock (ctrl : Byte) (payload : List Byte) (s : State) : State :=
  let t := { storeEntry s.sB ctrl payload s with sP := s.sP + 1 + payload.length, sB := s.sB + 1 }
  if s.sCnt.toNat ≤ s.sB + 1 then finishDeserialize t else t

/-- The bytes the reader sees at `S_P`: those of the stream, at most one longest block (R236: no byte at or beyond `STR_LEN`
is read). -/
def bytesAhead (s : State) : List Byte := strBytes s s.sP (min longestInstr (s.strLen.toNat - s.sP))

end Sys2Proof.Machine
end

