-- ==== Sys2Proof/Machine/Fetch.lean ====
section
/-! DEFINITION. Fetching: `D_B` and `S_P` are the block's program counters (10_state.md R24); the decoder executes the blocks
of `BLK`, the stream reader the bytes of `STR` (20_memory.md R74). -/

namespace Sys2Proof.Machine

/-- What the sequencer has to do next. -/
inductive Fetched where
  /-- Execute this instruction. -/
  | instr (i : Instr)
  /-- The stream ends too early: raise this failure (R233, R235, R236). -/
  | fails (k : ErrKind)
  /-- No instruction is fetched in this phase: one of the sequencer's own transitions. -/
  | nothing
deriving DecidableEq, Repr

/-- The bytes of entry `b`: its control byte and the payload bytes the readers use (R103). -/
def entryBytes (s : State) (b : Nat) : List Byte := entryCtrl s b :: entryPayload s b

/-- The instruction at the head of `bytes` in a space, or the failure `MalformedStream`. -/
def fetchFrom (sp : Space) (bytes : List Byte) : Fetched :=
  match decode sp bytes with
  | .ok (i, _) => .instr i
  | .error _ => .fails .malformedStream

/-- Fetch at the position register of the running pass. -/
def fetch (s : State) : Fetched :=
  match s.phase with
  | .decExp => fetchFrom .block (entryBytes s s.dB)
  | .des =>
    if s.sP = 0 then fetchFrom .header (inOrder s.cfg.countOrder (strBytes s 0 (min 4 s.strLen.toNat)))
    else fetchFrom .block (bytesAhead s)
  | .idle => .nothing
  | .encLit => .nothing
  | .encRep => .nothing
  | .decSum => .nothing
  | .size => .nothing
  | .ser => .nothing

end Sys2Proof.Machine
end

