-- ==== Sys2Proof/Machine/Blocks.lean ====
section
/-! DEFINITION. The meanings of the stream instructions `LIT`, `REP` and `COUNT`: what the pass that is running does on one
(R191 in the decoder's expansion pass, R233 to R235 in the stream reader). -/

namespace Sys2Proof.Machine

/-- A block with this control byte, payload and expansion, executed by the pass that is running. Outside both passes the
block executes no stream instruction (R74; notes/assumptions/7.md). -/
def executeBlock (ctrl : Byte) (payload bytes : List Byte) (s : State) : Host.Outcome State Fault Refusal :=
  match s.phase with
  | .decExp => .next (expandBlock bytes s)
  | .des => .next (loadBlock ctrl payload s)
  | .idle => .refused .blockOutsidePass
  | .encLit => .refused .blockOutsidePass
  | .encRep => .refused .blockOutsidePass
  | .decSum => .refused .blockOutsidePass
  | .size => .refused .blockOutsidePass
  | .ser => .refused .blockOutsidePass

/-- `LIT` (R191, R235): the payload, verbatim. -/
def execLit (payload : List Byte) (s : State) : Host.Outcome State Fault Refusal :=
  executeBlock (packLen .lit payload.length) payload payload s

/-- `REP` (R191, R235): `len` copies of the payload byte. -/
def execRep (len : Nat) (b : Byte) (s : State) : Host.Outcome State Fault Refusal :=
  executeBlock (packLen .rep len) [b] (List.replicate len b) s

/-- `COUNT` (R95, R233, R234), executed by the stream reader at the head of the stream. -/
def execCount (c : Word32) (s : State) : Host.Outcome State Fault Refusal :=
  match s.phase with
  | .des => .next (acceptCount c s)
  | .decExp => .refused .blockOutsidePass
  | .idle => .refused .blockOutsidePass
  | .encLit => .refused .blockOutsidePass
  | .encRep => .refused .blockOutsidePass
  | .decSum => .refused .blockOutsidePass
  | .size => .refused .blockOutsidePass
  | .ser => .refused .blockOutsidePass

end Sys2Proof.Machine
end

