-- ==== Sys2Proof/Machine/Encoder.lean ====
section
/-! DEFINITION. The encoder state machine (41_encoder.md): the start rule of COMPRESS and the transitions T1 to T5. -/

namespace Sys2Proof.Machine

/-- The input checks of COMPRESS (R141). -/
def inputBad (s : State) : Bool :=
  !s.inPresent || decide (s.n = 0#32) || decide (min s.cfg.nMax s.cfg.inCap < s.n.toNat)

/-- The start rule of COMPRESS (R150), after `beginCommand`. -/
def startCompress (s : State) : State :=
  if inputBad s then raise .invalidInput s else { s with eI := 0, eM := 0, eR := 0, phase := .encLit }

/-- `emit(k, l, p)` (R145), or the state after its failure when the store is full. -/
def emit (k : Kind) (len : Nat) (payload : List Byte) (s : State) : Except State State :=
  if s.cfg.blkCap ≤ s.nblk.toNat then .error (raise .allocationFailure s)
  else .ok { storeEntry s.nblk.toNat (packLen k len) payload s with nblk := s.nblk + 1#32 }

/-- The guard of T1 (R151): the byte after the literal span has a successor and differs from it. -/
def litGoesOn (s : State) : Bool :=
  decide (s.eM < s.cfg.litMax) && decide (s.eI + s.eM + 1 < s.n.toNat) &&
    decide (inByte s (s.eI + s.eM) ≠ inByte s (s.eI + s.eM + 1))

/-- The guard of T4 (R154): the byte after the repeat span is the same byte. -/
def repGoesOn (s : State) : Bool :=
  decide (s.eR < Config.repMax) && decide (s.eI + s.eR < s.n.toNat) && decide (inByte s (s.eI + s.eR) = s.eFirst)

/-- T1, extend literal (R151). -/
def extendLiteral (s : State) : State := { s with eM := s.eM + 1 }

/-- T2, close literal (R152). -/
def closeLiteral (s : State) : State :=
  match emit .lit s.eM (inBytes s s.eI s.eM) s with
  | .error t => t
  | .ok t => { t with eI := s.eI + s.eM, eM := 0 }

/-- T3, open repeat (R153). -/
def openRepeat (s : State) : State := { s with eFirst := inByte s s.eI, eR := 1, phase := .encRep }

/-- T4, extend repeat (R154). -/
def extendRepeat (s : State) : State := { s with eR := s.eR + 1 }

/-- The end of COMPRESS with a result (R156). -/
def finishCompress (s : State) : State := finish { s with cdValid := true }

/-- T5, close repeat (R155). -/
def closeRepeat (s : State) : State :=
  match emit .rep s.eR [s.eFirst] s with
  | .error t => t
  | .ok t =>
    if s.eI + s.eR = s.n.toNat then finishCompress { t with eI := s.eI + s.eR, eR := 0 }
    else { t with eI := s.eI + s.eR, eR := 0, eM := 0, phase := .encLit }

/-- One transition in `P_ENC_LIT` (R158). -/
def encLitStep (s : State) : State :=
  if litGoesOn s then extendLiteral s else if 0 < s.eM then closeLiteral s else openRepeat s

/-- One transition in `P_ENC_REP` (R158). -/
def encRepStep (s : State) : State :=
  if repGoesOn s then extendRepeat s else closeRepeat s

end Sys2Proof.Machine
end

