-- ==== Sys2Proof/Machine/Size.lean ====
section
/-! DEFINITION. The size pass (42_size.md R181). -/

namespace Sys2Proof.Machine

/-- The start rule of SIZE (R181), after `beginCommand`. -/
def startSize (s : State) : State :=
  if noData s then raise .invalidInput { s with dB := 0, dTotal := 0, phase := .size }
  else { s with dB := 0, dTotal := 0, phase := .size }

/-- One block of the pass (R181). -/
def sizeBlock (s : State) : State :=
  if usable s s.dB then { s with dTotal := s.dTotal + ssize (entryCtrl s s.dB), dB := s.dB + 1 }
  else raise .corruptStructure s

/-- The end of SIZE with a result (R181). -/
def finishSize (s : State) : State := finish { s with size := BitVec.ofNat 64 s.dTotal }

/-- One transition in `P_SIZE` (R181). -/
def sizeStep (s : State) : State := if s.dB < s.nblk.toNat then sizeBlock s else finishSize s

end Sys2Proof.Machine
end

