-- ==== Sys2Proof/Machine/Start.lean ====
section
/-! DEFINITION. The start rules of the commands (60_exceptions.md R300: what follows the common start, `beginCommand`), and the
one of the command that `CMD` holds. NOP, RELEASE and the reserved codes end with theirs. -/

namespace Sys2Proof.Machine

/-- The effect of `RELEASE` (R302). -/
def startRelease (s : State) : State := finish (releaseStore s)

/-- The effect of a reserved code (R303). -/
def startReserved (s : State) : State := raise .illegalCommand s

/-- The start rule of the command with code `v` (R300). -/
def startRule (v : Byte) (s : State) : State :=
  match decodeCommand v with
  | .nop => finish s
  | .compress => startCompress s
  | .decompress => startDecompress s
  | .size => startSize s
  | .serialize => startSerialize s
  | .deserialize => startDeserialize s
  | .release => startRelease s
  | _ => startReserved s

/-- The sequencer's first transition of a command whose code the host has written to `CMD`: its own start rule. -/
def takeStart (s : State) : State := startRule s.cmd { s with starting := false }

end Sys2Proof.Machine
end

