-- ==== Sys2Proof/Machine/Sequencer.lean ====
section
/-! DEFINITION. The sequencer: one transition (the tables R158 and R206, and the loops R181, R225, R235), and a command run to
its end (10_state.md R20, R30). -/

namespace Sys2Proof.Machine

/-- One transition of the stream reader (R233 to R235): the header at the head of the stream, then one block. -/
def desStep (s : State) : State :=
  match fetch s with
  | .instr (.count c) => acceptCount c s
  | .instr (.lit payload) => loadBlock (packLen .lit payload.length) payload s
  | .instr (.rep len b) => loadBlock (packLen .rep len) [b] s
  | .fails k => raise k s
  | _ => s

/-- One transition of the sequencer in the running pass, at the grain of the spec's step rules. The one before the passes, the
start rule of a command, is `takeStart`. -/
def transition (s : State) : State :=
  match s.phase with
  | .idle => s
  | .encLit => encLitStep s
  | .encRep => encRepStep s
  | .decSum => decSumStep s
  | .decExp => expandByte s
  | .size => sizeStep s
  | .ser => serStep s
  | .des => desStep s

/-- The sequencer runs, alone, until `ST` is no longer BUSY (R20, R30); `fuel` bounds the transitions (R340). -/
def runToEnd : (fuel : Nat) → State → State
  | 0, s => s
  | fuel + 1, s => if s.st = .busy then runToEnd fuel (transition s) else s

/-- More transitions than any command makes from the state `s` after its start rule: COMPRESS at most `2 * N` (R160), DECOMPRESS at most
`129 * NBLK + 1` (R207), SIZE and SERIALIZE `NBLK + 1`, DESERIALIZE at most `1 + BLK_CAP`. -/
def fuelFor (s : State) : Nat := 2 * s.n.toNat + 129 * s.nblk.toNat + s.cfg.blkCap + 4

/-- A started command, run to its end. -/
def runCommand (s : State) : State := runToEnd (fuelFor s) s

end Sys2Proof.Machine
end

