-- ==== Sys2Proof/Machine/Commands.lean ====
section
/-! DEFINITION. The meanings of the seven command codes (10_state.md R27): a write of the code to `CMD`, and the command run to
its end. The state between is not observable (R72); the command step by step begins with `HostAccess.write .cmd`, in HostPort.lean. -/

namespace Sys2Proof.Machine

/-- A command written to `CMD`: refused while one is running (R304, U2), else started (R300), its own start rule `own`
applied, and run to its end. -/
def command (code : Byte) (own : State → State) (s : State) : Host.Outcome State Fault Refusal :=
  if s.st = .busy then .refused .hostWriteWhileBusy else .next (runCommand (own (beginCommand code s)))

/-- `NOP` (R301). -/
def execNop (s : State) : Host.Outcome State Fault Refusal := command 0x00#8 finish s

/-- `COMPRESS` (R140). -/
def execCompress (s : State) : Host.Outcome State Fault Refusal := command 0x01#8 startCompress s

/-- `DECOMPRESS` (R190). -/
def execDecompress (s : State) : Host.Outcome State Fault Refusal := command 0x02#8 startDecompress s

/-- `SIZE` (R180). -/
def execSize (s : State) : Host.Outcome State Fault Refusal := command 0x03#8 startSize s

/-- `SERIALIZE` (R222). -/
def execSerialize (s : State) : Host.Outcome State Fault Refusal := command 0x04#8 startSerialize s

/-- `DESERIALIZE` (R230). -/
def execDeserialize (s : State) : Host.Outcome State Fault Refusal := command 0x05#8 startDeserialize s

/-- `RELEASE` (R302). -/
def execRelease (s : State) : Host.Outcome State Fault Refusal := command 0x06#8 startRelease s

end Sys2Proof.Machine
end

