-- ==== Sys2Proof/Machine/Reserved.lean ====
section
/-! DEFINITION. The meanings of the reserved command codes 0x07 to 0xFF (60_exceptions.md R303, R288): each fails with
IllegalCommand, and `CMD` holds the code written. -/

namespace Sys2Proof.Machine

/-- Code 0x07. -/
def execReserved07 (s : State) : Host.Outcome State Fault Refusal := command 0x07#8 startReserved s

/-- Codes 0x08 to 0x0F. -/
def execReserved08 (low : BitVec 3) (s : State) : Host.Outcome State Fault Refusal :=
  command (0b00001#5 ++ low) startReserved s

/-- Codes 0x10 to 0x1F. -/
def execReserved10 (low : BitVec 4) (s : State) : Host.Outcome State Fault Refusal :=
  command (0b0001#4 ++ low) startReserved s

/-- Codes 0x20 to 0x3F. -/
def execReserved20 (low : BitVec 5) (s : State) : Host.Outcome State Fault Refusal :=
  command (0b001#3 ++ low) startReserved s

/-- Codes 0x40 to 0x7F. -/
def execReserved40 (low : BitVec 6) (s : State) : Host.Outcome State Fault Refusal :=
  command (0b01#2 ++ low) startReserved s

/-- Codes 0x80 to 0xFF. -/
def execReserved80 (low : BitVec 7) (s : State) : Host.Outcome State Fault Refusal :=
  command (0b1#1 ++ low) startReserved s

end Sys2Proof.Machine
end

