-- ==== Sys2Proof/Machine/Dispatch.lean ====
section
/-! DEFINITION. One arm per instruction of the opcode table. -/

namespace Sys2Proof.Machine

def exec (i : Instr) (s : State) : Host.Outcome State Fault Refusal :=
  match i with
  | .lit payload => Sys2Proof.Machine.execLit payload s
  | .rep len b => Sys2Proof.Machine.execRep len b s
  | .count c => Sys2Proof.Machine.execCount c s
  | .nop => Sys2Proof.Machine.execNop s
  | .compress => Sys2Proof.Machine.execCompress s
  | .decompress => Sys2Proof.Machine.execDecompress s
  | .size => Sys2Proof.Machine.execSize s
  | .serialize => Sys2Proof.Machine.execSerialize s
  | .deserialize => Sys2Proof.Machine.execDeserialize s
  | .release => Sys2Proof.Machine.execRelease s
  | .reserved07 => Sys2Proof.Machine.execReserved07 s
  | .reserved08 low => Sys2Proof.Machine.execReserved08 low s
  | .reserved10 low => Sys2Proof.Machine.execReserved10 low s
  | .reserved20 low => Sys2Proof.Machine.execReserved20 low s
  | .reserved40 low => Sys2Proof.Machine.execReserved40 low s
  | .reserved80 low => Sys2Proof.Machine.execReserved80 low s
  | .pack kind len => Sys2Proof.Machine.execPack kind len s
  | .unpack c => Sys2Proof.Machine.execUnpack c s

end Sys2Proof.Machine
end

