-- ==== Sys2Proof/Machine/Flags.lean ====
section
/-! DEFINITION. The status, error and flag words as the host reads and writes them (10_state.md R23, R25, R30 to R32). There
are no arithmetic flags (R32). -/

namespace Sys2Proof.Machine

/-- The number of a `PHASE` value (R23). -/
def phaseCode : Phase → BitVec 4
  | .idle => 0#4
  | .encLit => 1#4
  | .encRep => 2#4
  | .decSum => 3#4
  | .decExp => 4#4
  | .size => 5#4
  | .ser => 6#4
  | .des => 7#4

/-- The number of an `ST` value (R30). -/
def stCode : St → BitVec 2
  | .idle => 0#2
  | .busy => 1#2
  | .done => 2#2
  | .fail => 3#2

/-- The number of a failure kind (R281). -/
def errCode : ErrKind → BitVec 3
  | .none => 0#3
  | .invalidInput => 1#3
  | .allocationFailure => 2#3
  | .ioFailure => 3#3
  | .malformedCount => 4#3
  | .corruptStructure => 5#3
  | .malformedStream => 6#3
  | .illegalCommand => 7#3

/-- `STATUS` as read: `ST` in bits 1:0, bits 7:2 read as 0 (R30). -/
def statusWord (s : State) : Byte := (stCode s.st).setWidth 8

/-- `ERR` as read: bits 7:3 read as 0 (R31). -/
def errWord (s : State) : Byte := (errCode s.err).setWidth 8

/-- `FLAGS` as read: bits 7:5 read as 0 (R32). -/
def flagsWord (s : State) : Byte :=
  0#3 ++ BitVec.ofBool s.strWritable ++ BitVec.ofBool s.strPresent ++ BitVec.ofBool s.outValid ++ BitVec.ofBool s.cdValid
    ++ BitVec.ofBool s.inPresent

/-- A host write of one flag; `OUT_VALID` is read-only to the host and ignores it (R32, R330). -/
def setFlag (f : Flag) (v : Bool) (s : State) : State :=
  match f with
  | .inPresent => { s with inPresent := v }
  | .cdValid => { s with cdValid := v }
  | .outValid => s
  | .strPresent => { s with strPresent := v }
  | .strWritable => { s with strWritable := v }

/-- A host write of `FLAGS`: each writable flag takes its bit, `OUT_VALID` and the reserved bits ignore theirs (R32, U11). -/
def setFlags (v : Byte) (s : State) : State :=
  { s with
    inPresent := v.getLsbD 0, cdValid := v.getLsbD 1, strPresent := v.getLsbD 3, strWritable := v.getLsbD 4 }

/-- A control register as the host reads it, zero-extended to 64 bits (R25). -/
def regWord (s : State) (r : CReg) : Word64 :=
  match r with
  | .cmd => s.cmd.setWidth 64
  | .status => (statusWord s).setWidth 64
  | .err => (errWord s).setWidth 64
  | .flags => (flagsWord s).setWidth 64
  | .n => s.n.setWidth 64
  | .nblk => s.nblk.setWidth 64
  | .outLen => s.outLen
  | .size => s.size
  | .strLen => s.strLen

end Sys2Proof.Machine
end

