-- ==== Sys2Proof/Machine/HostPort.lean ====
section
/-! DEFINITION. What the host does besides commands run to their end and the ports (70_reset_and_hazards.md R330, R331): reset,
register and memory accesses, and starting a command without waiting for it. -/

namespace Sys2Proof.Machine

/-- A host write of a control register (R25), while not BUSY. A write of any byte to `CMD` is the common start of a command:
`ST` becomes BUSY at once (R300, R330), and what the command itself does, be it to end or to fail, is for the sequencer's next
transitions. `STATUS`, `ERR`, `OUT_LEN` and `SIZE` are read-only: the write
is ignored (R330, U10). -/
def writeReg (r : CReg) (v : Word64) (s : State) : State :=
  match r with
  | .cmd => writeCmd (v.setWidth 8) s
  | .status => s
  | .err => s
  | .flags => setFlags (v.setWidth 8) s
  | .n => { s with n := v.setWidth 32 }
  | .nblk => { s with nblk := v.setWidth 32 }
  | .outLen => s
  | .size => s
  | .strLen => { s with strLen := v }

/-- What a field of an entry takes of a host write: `.present` is one bit (R41). -/
def fieldValue (f : EntryField) (v : Byte) : Byte :=
  match f with
  | .present => v &&& 1#8
  | .ctrl => v
  | .plen => v
  | .pay _ => v

/-- A field of an entry as the host reads it; an entry at or beyond `BLK_CAP` reads as absent (R76). -/
def fieldWord (s : State) (b : Nat) (f : EntryField) : Byte :=
  match f with
  | .present => (BitVec.ofBool (entryPresent s b)).setWidth 8
  | .ctrl => entryCtrl s b
  | .plen => entryPlen s b
  | .pay k => s.blkMem.read .blk (fieldAddr b (.pay k))

/-- A host write: refused while BUSY (R331, U2), else `t`. -/
def hostWrite (t : State) (s : State) : Host.Outcome State Fault Refusal :=
  if s.st = .busy then .refused .hostWriteWhileBusy else .next t

/-- A host write to an address of a memory with `cap` addresses (notes/assumptions/6.md). -/
def hostWriteAt (a cap : Nat) (t : State) (s : State) : Host.Outcome State Fault Refusal :=
  if s.st = .busy then .refused .hostWriteWhileBusy
  else if a < cap then .next t
  else .fault .noSuchAddress

/-- A host read of anything but `STATUS`: while BUSY a free value, with no effect on the command (R331, U3), else `v`. No read
changes the block (R68). -/
def hostRead (v : Word64) (s : State) : Host.Outcome State Fault Refusal :=
  if s.st = .busy then .next { s with lastRead := Config.busyRead s.draws, draws := s.draws + 1 }
  else .next { s with lastRead := v }

/-- A host read of an address of a memory with `cap` addresses. -/
def hostReadAt (a cap : Nat) (v : Byte) (s : State) : Host.Outcome State Fault Refusal :=
  if a < cap then hostRead (v.setWidth 64) s else .fault .noSuchAddress

/-- A host read of a control register; `STATUS` may be read at any time (R330). -/
def hostReadReg (r : CReg) (s : State) : Host.Outcome State Fault Refusal :=
  match r with
  | .status => .next { s with lastRead := regWord s .status }
  | .cmd => hostRead (regWord s .cmd) s
  | .err => hostRead (regWord s .err) s
  | .flags => hostRead (regWord s .flags) s
  | .n => hostRead (regWord s .n) s
  | .nblk => hostRead (regWord s .nblk) s
  | .outLen => hostRead (regWord s .outLen) s
  | .size => hostRead (regWord s .size) s
  | .strLen => hostRead (regWord s .strLen) s

/-- A reset, or a host access, taken from the head of the pending actions. -/
def hostAccess (a : HostAccess) (s : State) : Host.Outcome State Fault Refusal :=
  match a with
  | .reset => .next (resetEvent s)
  | .write r v => hostWrite (writeReg r v s) s
  | .writeFlag f v => hostWrite (setFlag f v s) s
  | .read r => hostReadReg r s
  | .writeIn x v => hostWriteAt x s.cfg.inCap { s with inMem := s.inMem.write .inp x v } s
  | .writeOut x _ => hostWriteAt x s.cfg.outCap s s
  | .writeStr x v => hostWriteAt x s.cfg.strCap { s with strMem := s.strMem.write .str x v } s
  | .writeEntry b f v =>
    hostWriteAt b s.cfg.blkCap { s with blkMem := s.blkMem.write .blk (fieldAddr b f) (fieldValue f v) } s
  | .readIn x => hostReadAt x s.cfg.inCap (inByte s x) s
  | .readOut x => hostReadAt x s.cfg.outCap (outByte s x) s
  | .readStr x => hostReadAt x s.cfg.strCap (strByte s x) s
  | .readEntry b f => hostRead ((fieldWord s b f).setWidth 64) s

end Sys2Proof.Machine
end

