-- ==== Sys2Proof/Machine/Step.lean ====
section
/-! DEFINITION. One step of the machine. The host's next pending action comes first; where it has none, or waits, the
sequencer goes on if a command is running (10_state.md R20), and an idle block takes no step (70_reset_and_hazards.md R322,
R330). -/

namespace Sys2Proof.Machine

/-- The sequencer's next step while BUSY: the start rule of a command just written to `CMD`; else execute the instruction at its
position register, or one of its own transitions. -/
def sequencerStep (s : State) : Host.Outcome State Fault Refusal :=
  if s.starting then .next (takeStart s)
  else
    match fetch s with
    | .instr i => exec i s
    | .fails k => .next (raise k s)
    | .nothing => .next (transition s)

def step (s : State) : Host.Outcome State Fault Refusal :=
  match s.host with
  | [] => if s.st = .busy then sequencerStep s else .next s
  | .wait :: rest => if s.st = .busy then sequencerStep s else .next { s with host := rest }
  | .tick :: rest => if s.st = .busy then sequencerStep { s with host := rest } else .next { s with host := rest }
  | .command v :: rest => exec (decodeCommand v) { s with host := rest }
  | .pack kind len :: rest => exec (.pack kind len) { s with host := rest }
  | .unpack c :: rest => exec (.unpack c) { s with host := rest }
  | .access a :: rest => hostAccess a { s with host := rest }

/-- `s` with a command code as the host's next write to `CMD`. -/
def withCommand (v : Byte) (s : State) : State := { s with host := .command v :: s.host }

/-- `s` with the stream reader at the head of a stream of these bytes. -/
def withHeader (bytes : List Byte) (s : State) : State :=
  { s with
    strMem := s.strMem.forget.writeBytes .str 0 bytes, strLen := BitVec.ofNat 64 bytes.length, strPresent := true
    cmd := 0x05#8, st := .busy, err := .none, phase := .des, starting := false, sP := 0, sB := 0, host := .wait :: s.host }

/-- `s` with the decoder's expansion pass at its only block, entry 0. -/
def withBlock (ctrl : Byte) (payload : List Byte) (s : State) : State :=
  { storeEntry 0 ctrl payload s with
    nblk := 1#32, cdValid := true, cmd := 0x02#8, st := .busy, err := .none, phase := .decExp, starting := false
    dB := 0, dK := 0, dO := 0, dTotal := lenOf ctrl, outValid := false, outLen := 0#64, host := .wait :: s.host }

/-- `s` with the instruction of a table word where `step` fetches next (notes/assumptions/2.md). -/
def State.withFetchWord (s : State) (nbits w : Nat) : State :=
  match tableSpace nbits, tableBytes nbits w with
  | .command, v :: _ => withCommand v s
  | .header, bytes => withHeader bytes s
  | .block, c :: rest => withBlock c (rest.take (need c)) s
  | _, _ => s

end Sys2Proof.Machine
end

