-- ==== Sys2Proof/Safety.lean ====
section
/-! DEFINITION. What a safe run is, in the terms the claims use: the outcomes that are no stop, what the host owes the block
(70_reset_and_hazards.md R330, R331), and the invariants of the machine (41_encoder.md R159, 43_decoder.md R207). -/

namespace Sys2Proof.Machine

/-! ### Outcomes and the host's duties -/

/-- The step went on. -/
def goesOn (o : Host.Outcome State Fault Refusal) : Prop := ∃ t, o = .next t

/-- The access is one the host may make in this state (R330, R331): reset and reading `STATUS` at any time, everything else
only while not BUSY, and only at addresses that exist. -/
def accessAllowed (a : HostAccess) (s : State) : Prop :=
  match a with
  | .reset => True
  | .read .status => True
  | .read _ => s.st ≠ .busy
  | .write _ _ => s.st ≠ .busy
  | .writeFlag _ _ => s.st ≠ .busy
  | .writeIn x _ => s.st ≠ .busy ∧ x < s.cfg.inCap
  | .writeOut x _ => s.st ≠ .busy ∧ x < s.cfg.outCap
  | .writeStr x _ => s.st ≠ .busy ∧ x < s.cfg.strCap
  | .writeEntry b _ _ => s.st ≠ .busy ∧ b < s.cfg.blkCap
  | .readIn x => s.st ≠ .busy ∧ x < s.cfg.inCap
  | .readOut x => s.st ≠ .busy ∧ x < s.cfg.outCap
  | .readStr x => s.st ≠ .busy ∧ x < s.cfg.strCap
  | .readEntry _ _ => s.st ≠ .busy

/-- The host's next action, if it has one, is one it may take. -/
def hostObeys (s : State) : Prop :=
  match s.host with
  | [] => True
  | .access a :: _ => accessAllowed a s
  | .command _ :: _ => s.st ≠ .busy
  | .wait :: _ => True
  | .tick :: _ => True
  | .pack _ _ :: _ => True
  | .unpack _ :: _ => True

/-! ### Invariants -/

/-- No entry of the block store is present (R302). -/
def storeEmpty (s : State) : Prop := ∀ b, entryPresent s b = false

/-- The memories are in their canonical form. -/
structure MemOk (s : State) : Prop where
  inWf : s.inMem.wf .inp
  blkWf : s.blkMem.wf .blk
  outWf : s.outMem.wf .out
  strWf : s.strMem.wf .str

/-- No memory lists an address outside its capacity (R40, R76). -/
structure CapsOk (s : State) : Prop where
  inCap : ∀ c ∈ s.inMem.cells, c.1 < s.cfg.inCap
  blkCap : ∀ c ∈ s.blkMem.cells, c.1 < entrySize * s.cfg.blkCap
  outCap : ∀ c ∈ s.outMem.cells, c.1 < s.cfg.outCap
  strCap : ∀ c ∈ s.strMem.cells, c.1 < s.cfg.strCap

/-- The control registers agree with each other: `PHASE` is `P_IDLE` exactly when not BUSY (R23), `ERR` is nonzero exactly
after a failure (R31), and without a decoded result `OUT_LEN` is 0 (R291, R300). -/
structure ControlOk (s : State) : Prop where
  legal : s.cfg.Legal
  phaseIdle : s.phase = .idle ↔ s.st ≠ .busy
  errFail : s.err ≠ .none ↔ s.st = .fail
  noOutput : s.outValid = false → s.outLen = 0#64

/-- Every working register fits the width R21 gives it (`IDX_W` and `ACC_W` are R6's), so that none of them ever wraps (R9,
R24). -/
structure WidthsOk (s : State) : Prop where
  eI : s.eI < 2 ^ s.cfg.idxW
  eM : s.eM < 2 ^ 8
  eR : s.eR < 2 ^ 8
  dB : s.dB < 2 ^ s.cfg.idxW
  dK : s.dK < 2 ^ 8
  dO : s.dO < 2 ^ s.cfg.accW
  dTotal : s.dTotal < 2 ^ s.cfg.accW
  sB : s.sB < 2 ^ s.cfg.idxW
  sP : s.sP < 2 ^ s.cfg.accW

/-- The blocks emitted so far are well-formed, no more than the store holds or the input has bytes, expand to the input before
`E_I` (R159 (b), (e)), fill the store alone (R300: it was released), and are the first blocks of the normative sequence, whose rest is that of the input from `E_I` on
(R160). -/
structure Covered (s : State) : Prop where
  running : s.cmd = 0x01#8 ∧ inputBad s = false ∧ s.cdValid = false
  cap : s.nblk.toNat ≤ s.cfg.blkCap
  count : s.nblk.toNat ≤ s.eI
  wellFormed : allWellFormed s 0 s.nblk.toNat = true
  rest : ∀ b, s.nblk.toNat ≤ b → entryPresent s b = false
  expands : decodeBlocks (storedBlocks s) = inBytes s 0 s.eI
  agrees : encodeBytes s.cfg.litMax (input s) =
    storedBlocks s ++ encodeBytes s.cfg.litMax (inBytes s s.eI (s.n.toNat - s.eI))

/-- The literal scan (R159 (a), (c)). -/
structure LitScan (s : State) : Prop extends Covered s where
  span : s.eM ≤ s.cfg.litMax
  inside : s.eI + s.eM + 1 ≤ s.n.toNat
  differ : ∀ k < s.eM, inByte s (s.eI + k) ≠ inByte s (s.eI + k + 1)
  closed : s.eR = 0

/-- The repeat scan (R159 (a), (d)), which opens at an equal pair or at the last byte (R153). -/
structure RepScan (s : State) : Prop extends Covered s where
  span : 1 ≤ s.eR ∧ s.eR ≤ Config.repMax
  inside : s.eI + s.eR ≤ s.n.toNat
  same : ∀ k < s.eR, inByte s (s.eI + k) = s.eFirst
  opened : s.eI + 1 < s.n.toNat → inByte s s.eI = inByte s (s.eI + 1)
  closed : s.eM = 0

/-- The summing pass of the decoder (R201). -/
structure SumPass (s : State) : Prop where
  running : s.cmd = 0x02#8 ∧ noData s = false ∧ s.outValid = false
  position : s.dB ≤ s.nblk.toNat
  usable : allUsable s 0 s.dB = true
  total : s.dTotal = totalLen (blocksFrom s 0 s.dB)

/-- The expansion pass of the decoder (R207). -/
structure ExpandPass (s : State) : Prop where
  running : s.cmd = 0x02#8 ∧ noData s = false ∧ s.outValid = false
  position : s.dB < s.nblk.toNat ∧ s.dK < lenOf (entryCtrl s s.dB)
  usable : storeUsable s = true
  address : s.dO = totalLen (blocksFrom s 0 s.dB) + s.dK
  total : s.dTotal = totalLen (storedBlocks s) ∧ s.dTotal ≤ s.cfg.outCap
  written : outBytes s 0 s.dO = (decodeBlocks (storedBlocks s)).take s.dO

/-- The size pass (R181). -/
structure SizePass (s : State) : Prop where
  running : s.cmd = 0x03#8 ∧ noData s = false
  position : s.dB ≤ s.nblk.toNat
  usable : allUsable s 0 s.dB = true
  total : s.dTotal = totalSize (blocksFrom s 0 s.dB)

/-- The stream writer's loop (R225). -/
structure WritePass (s : State) : Prop where
  running : s.cmd = 0x04#8 ∧ noData s = false ∧ s.strWritable = true
  position : s.sB ≤ s.nblk.toNat
  usable : storeUsable s = true
  address : s.sP = 4 + totalSize (blocksFrom s 0 s.sB)
  total : s.dTotal = totalSize (storedBlocks s) ∧ 4 + s.dTotal ≤ s.cfg.strCap
  written : strBytes s 0 s.sP = le32 s.nblk ++ serializeBlocks (blocksFrom s 0 s.sB)

/-- The stream reader: at the header, or with `S_B` of `S_CNT` blocks stored (R235). -/
structure ReadPass (s : State) : Prop where
  running : s.cmd = 0x05#8 ∧ s.strPresent = true ∧ s.cdValid = false ∧ s.nblk = 0#32
  rest : ∀ b, s.sB ≤ b → entryPresent s b = false
  position : (s.sP = 0 ∧ s.sB = 0) ∨
    (4 ≤ s.sP ∧ s.sP ≤ s.strLen.toNat ∧ (stream s).take 4 = le32 s.sCnt ∧ 0 < s.sCnt.toInt ∧
      s.sCnt.toNat ≤ s.cfg.blkCap ∧ s.sB < s.sCnt.toNat ∧ allWellFormed s 0 s.sB = true ∧
      parseBlocks s.sB ((stream s).drop 4) = .ok (blocksFrom s 0 s.sB, (stream s).drop s.sP))

/-- What holds between a command's common start and its own start rule: BUSY, and the pre-clear of the command has been done
(R300). -/
structure StartPending (s : State) : Prop where
  busy : s.st = .busy
  released : s.cmd = 0x01#8 ∨ s.cmd = 0x05#8 → s.cdValid = false ∧ s.nblk = 0#32 ∧ storeEmpty s
  invalidated : s.cmd = 0x02#8 → s.outValid = false

/-- What holds in the running pass. -/
def PassOk (s : State) : Prop :=
  match s.phase with
  | .idle => True
  | .encLit => LitScan s
  | .encRep => RepScan s
  | .decSum => SumPass s
  | .decExp => ExpandPass s
  | .size => SizePass s
  | .ser => WritePass s
  | .des => ReadPass s

/-- The invariant of the machine, with all of the host's liberties: reset establishes it and every step keeps it. -/
structure Inv (s : State) : Prop where
  mem : MemOk s
  caps : CapsOk s
  control : ControlOk s
  widths : WidthsOk s
  start : s.starting = true → StartPending s
  pass : s.starting = false → PassOk s

/-! ### Frames

What a command may write; everything else is as before. -/

/-- COMPRESS (R140): the block store, its count and flag, `CMD`, `STATUS`, `ERR` and its own working registers. -/
def CompressFrame (s t : State) : Prop :=
  t = { s with
    cmd := 0x01#8, st := t.st, err := t.err, cdValid := t.cdValid, nblk := t.nblk, blkMem := t.blkMem, phase := .idle
    eI := t.eI, eM := t.eM, eR := t.eR, eFirst := t.eFirst }

/-- DECOMPRESS (R190): the output, its length and flag, `CMD`, `STATUS`, `ERR` and its own working registers. -/
def DecompressFrame (s t : State) : Prop :=
  t = { s with
    cmd := 0x02#8, st := t.st, err := t.err, outValid := t.outValid, outLen := t.outLen, outMem := t.outMem, phase := .idle
    dB := t.dB, dK := t.dK, dO := t.dO, dTotal := t.dTotal }

/-- SIZE (R180): `SIZE`, `CMD`, `STATUS`, `ERR` and its own working registers. -/
def SizeFrame (s t : State) : Prop :=
  t = { s with
    cmd := 0x03#8, st := t.st, err := t.err, size := t.size, phase := .idle, dB := t.dB, dTotal := t.dTotal }

/-- SERIALIZE (R222): the stream, its length and flag, `CMD`, `STATUS`, `ERR` and its own working registers. -/
def SerializeFrame (s t : State) : Prop :=
  t = { s with
    cmd := 0x04#8, st := t.st, err := t.err, strPresent := t.strPresent, strLen := t.strLen, strMem := t.strMem
    phase := .idle, dTotal := t.dTotal, sB := t.sB, sP := t.sP }

/-- DESERIALIZE (R230): the block store, its count and flag, `CMD`, `STATUS`, `ERR` and its own working registers. -/
def DeserializeFrame (s t : State) : Prop :=
  t = { s with
    cmd := 0x05#8, st := t.st, err := t.err, cdValid := t.cdValid, nblk := t.nblk, blkMem := t.blkMem, phase := .idle
    sB := t.sB, sP := t.sP, sCnt := t.sCnt }

/-- The state without its hidden registers: `PHASE` stays, every other working register is erased (R22, R46). -/
def visible (s : State) : State :=
  { s with
    eI := 0, eM := 0, eR := 0, eFirst := 0#8, dB := 0, dK := 0, dO := 0, dTotal := 0, sB := 0, sP := 0, sCnt := 0#32 }

/-- A failed command (R290): `ST = FAIL` with this kind. -/
def failedWith (k : ErrKind) (t : State) : Prop := t.st = .fail ∧ t.err = k

/-- A finished command (R30): `ST = DONE`, no failure. -/
def done (t : State) : Prop := t.st = .done ∧ t.err = .none

end Sys2Proof.Machine
end

