-- ==== Sys2Proof/Certificates/Slice0/Obligations.lean ====
section
/-! DEFINITION. The statements for the provers. Each is about every state that meets its hypotheses, whatever the parameters of
the block are. -/

open Sys2Proof Sys2Proof.Machine

/-! ### Reset -/

/-- R47: what reset leaves, for any parameters: every control register reads 0, `PHASE` is `P_IDLE` and no entry is present; what
the rule leaves unspecified in the memories reads as a free value. The values of the other working registers are the model's
(log entry 8) and are not stated. -/
def Obligations.ResetStateValues : Prop :=
  State.reset = State.resetWith Config.standard ∧
    ∀ c : Config, (State.resetWith c).cfg = c ∧ (∀ r, regWord (State.resetWith c) r = 0#64) ∧
      (State.resetWith c).phase = .idle ∧ storeEmpty (State.resetWith c) ∧
      (∀ a, inByte (State.resetWith c) a = Config.unwritten .inp 0 a ∧ outByte (State.resetWith c) a = Config.unwritten .out 0 a ∧
        strByte (State.resetWith c) a = Config.unwritten .str 0 a) ∧
      ∀ b f, f ≠ .present →
        (State.resetWith c).blkMem.read .blk (fieldAddr b f) = Config.unwritten .blk 0 (fieldAddr b f)

/-- R320, R321: reset in any state, also while BUSY, leaves what R47 says; the bytes of the memories, and the fields of the
block store other than `.present`, become new free values.
That the host's pending actions and the ports' inputs stay is the model's (log entry 12). -/
def Obligations.ResetInAnyState : Prop :=
  ∀ s, ∃ t, hostAccess .reset s = .next t ∧ t.cfg = s.cfg ∧ (∀ r, regWord t r = 0#64) ∧ t.phase = .idle ∧ storeEmpty t ∧
    (∀ a, inByte t a = Config.unwritten .inp (s.inMem.epoch + 1) a ∧ outByte t a = Config.unwritten .out (s.outMem.epoch + 1) a ∧
      strByte t a = Config.unwritten .str (s.strMem.epoch + 1) a) ∧
    (∀ b f, f ≠ .present →
      t.blkMem.read .blk (fieldAddr b f) = Config.unwritten .blk (s.blkMem.epoch + 1) (fieldAddr b f)) ∧
    t.host = s.host ∧ t.pkKind = s.pkKind ∧ t.pkLen = s.pkLen ∧ t.upCtrl = s.upCtrl

/-! ### Encodings -/

/-- Words of the spec's tables (R98, R102, R108, R241): each decodes to the instruction it stands for. -/
def Obligations.SpecWordsDecode : Prop :=
  decode .block [0x04#8, 0x61#8, 0x62#8, 0x61#8] = .ok (.lit [0x61#8, 0x62#8, 0x61#8], []) ∧
    decode .block [0x0B#8, 0x62#8, 0x07#8] = .ok (.rep 6 0x62#8, [0x07#8]) ∧
    decode .block [0xFF#8, 0x00#8] = .ok (.rep 128 0x00#8, []) ∧
    decode .block [0x04#8, 0x61#8, 0x62#8] = .error .shortPayload ∧
    decode .header [0x03#8, 0x00#8, 0x00#8, 0x00#8] = .ok (.count 3#32, []) ∧
    decode .header [0x00#8, 0x00#8, 0x00#8, 0x01#8] = .ok (.count 0x01000000#32, []) ∧
    decode .command [0x01#8] = .ok (.compress, []) ∧ decode .command [0x06#8] = .ok (.release, []) ∧
    decode .command [0x07#8] = .ok (.reserved07, []) ∧ decode .command [0xFF#8] = .ok (.reserved80 0x7F#7, []) ∧
    decode .packPort [0x0B#8] = .ok (.pack .rep 6#8, []) ∧ decode .unpackPort [0x80#8] = .ok (.unpack 0x80#8, [])

/-- Decoding an encoded well-formed instruction gives it back, with the bytes after it (R94, R95, R102, R121). -/
def Obligations.DecodeEncodeRoundTrip : Prop :=
  ∀ (i : Instr) (rest : List Byte), i.wellFormed = true → decode (spaceOf i) (encode i ++ rest) = .ok (i, rest)

/-- Each byte is a command code: the instruction it decodes to has that byte as its whole encoding, so no code is lost or
doubled (R102, R303). -/
def Obligations.EveryByteIsACommand : Prop :=
  (∀ v : Byte, spaceOf (decodeCommand v) = .command ∧ encode (decodeCommand v) = [v]) ∧
    ∀ i : Instr, spaceOf i = .command → ∃ v : Byte, decodeCommand v = i

/-- R126: `pack` and `unpack` are inverse bijections. -/
def Obligations.PackUnpackInverse : Prop :=
  (∀ (k : Kind) (len : Nat), 1 ≤ len → len ≤ 128 → kindOf (packLen k len) = k ∧ lenOf (packLen k len) = len) ∧
    ∀ c : Byte, packLen (kindOf c) (lenOf c) = c

/-- R127: the payload length and the serialized size of a block, with their ranges. -/
def Obligations.NeedAndSsize : Prop :=
  ∀ c : Byte, need c = (if kindOf c = .rep then 1 else lenOf c) ∧ ssize c = 1 + need c ∧ 1 ≤ need c ∧ need c ≤ 128 ∧
    2 ≤ ssize c ∧ ssize c ≤ 129

/-- R240: the parser reads back what the serializer writes, and what it accepts is what the serializer would write. -/
def Obligations.StreamRoundTrip : Prop :=
  (∀ (cap : Nat) (ks : List Block) (rest : List Byte), (∀ k ∈ ks, 1 ≤ k.len ∧ k.len ≤ 128) → 1 ≤ ks.length → ks.length ≤ cap →
      cap ≤ 2 ^ 31 - 1 → parseStream cap (serializeStream ks ++ rest) = .ok (ks, rest)) ∧
    ∀ (cap : Nat) (bytes rest : List Byte) (ks : List Block), parseStream cap bytes = .ok (ks, rest) →
      bytes = serializeStream ks ++ rest

/-! ### The step -/

/-- What a step does. The clauses on the host's list are the model's choice (log entry 3: the spec has no agent's schedule): its
head comes first, `.wait` and `.tick` are taken off it as said, and `.command` is a whole command in one step (log entry 18). So is
the grain of the sequencer's step (log entry 20): the start rule of a command just written to `CMD` (log entry 26), else the
instruction at the position register, a failure where the stream is too short, or one of the sequencer's own transitions. Of the
spec: what the
position registers point at is what is executed (R24, R74), and an idle block takes no step (R322, R330). -/
def Obligations.StepRunsTheFetchedInstruction : Prop :=
  ∀ s : State,
    (∀ v rest, s.host = .command v :: rest → step s = exec (decodeCommand v) { s with host := rest }) ∧
    (∀ k l rest, s.host = .pack k l :: rest → step s = exec (.pack k l) { s with host := rest }) ∧
    (∀ c rest, s.host = .unpack c :: rest → step s = exec (.unpack c) { s with host := rest }) ∧
    (∀ a rest, s.host = .access a :: rest → step s = hostAccess a { s with host := rest }) ∧
    (s.st ≠ .busy → (s.host = [] → step s = .next s) ∧
      ∀ rest, s.host = .wait :: rest ∨ s.host = .tick :: rest → step s = .next { s with host := rest }) ∧
    (s.st = .busy → (s.host = [] ∨ ∃ rest, s.host = .wait :: rest) → step s = sequencerStep s) ∧
    (s.st = .busy → ∀ rest, s.host = .tick :: rest → step s = sequencerStep { s with host := rest }) ∧
    (s.starting = true → sequencerStep s = .next (takeStart s)) ∧
    (s.starting = false →
      (∀ i, fetch s = .instr i → sequencerStep s = exec i s) ∧
      (∀ k, fetch s = .fails k → sequencerStep s = .next (raise k s)) ∧
      (fetch s = .nothing → sequencerStep s = .next (transition s))) ∧
    (s.phase = .decExp → ∀ i rest, decode .block (entryBytes s s.dB) = .ok (i, rest) → fetch s = .instr i) ∧
    (s.phase = .des → s.sP = 0 → ∀ i rest, decode .header ((stream s).take 4) = .ok (i, rest) → fetch s = .instr i) ∧
    (s.phase = .des → s.sP ≠ 0 → ∀ i rest, s.sP ≤ s.strLen.toNat → decode .block ((stream s).drop s.sP) = .ok (i, rest) →
      fetch s = .instr i)

/-! ### The ports -/

/-- R121: PACK completes for every kind and every length in 1..128, in every state. -/
def Obligations.PackCompletes : Prop :=
  ∀ (k : Kind) (len : Byte) (s : State), 1 ≤ len.toNat → len.toNat ≤ 128 →
    exec (.pack k len) s = .next { s with pkKind := k, pkLen := len } ∧
      (pkCtrl { s with pkKind := k, pkLen := len }).toNat = kindBit k + 2 * (len.toNat - 1)

/-- R122, U4: with a length outside 1..128 PACK completes and `PK_CTRL` is a free value. That it completes is the model's choice
(log entry 11): the rule gives `pack` no meaning there. -/
def Obligations.PackOutsideTheDomainIsFree : Prop :=
  ∀ (k : Kind) (len : Byte) (s : State), len.toNat = 0 ∨ 128 < len.toNat →
    exec (.pack k len) s = .next { s with pkKind := k, pkLen := len } ∧
      pkCtrl { s with pkKind := k, pkLen := len } = Config.packOutside k len.toNat

/-- R124: UNPACK completes for every byte, in every state. -/
def Obligations.UnpackCompletes : Prop :=
  ∀ (c : Byte) (s : State), exec (.unpack c) s = .next { s with upCtrl := c } ∧
    upKind { s with upCtrl := c } = (if c.getLsbD 0 then .rep else .lit) ∧
    (upLen { s with upCtrl := c }).toNat = (c.extractLsb' 1 7).toNat + 1

/-! ### Command control -/

/-- R300, R330: a host write of any byte to `CMD` while not BUSY makes `ST` BUSY at once, whatever the command then does; the
command's own start rule is the sequencer's next step, which for NOP, RELEASE and the reserved codes is its last one, and leaves
what it leaves in a command run in one step. That the two transitions are two steps, with a free value of `PHASE` other than
`P_IDLE` between them, is the model's reading of R22, R23, R300 and R330 (log entry 26). -/
def Obligations.CommandWriteIsBusyAtOnce : Prop :=
  ∀ (v : Byte) (s : State), s.st ≠ .busy →
    hostAccess (.write .cmd (v.setWidth 64)) s = .next (writeCmd v s) ∧ (writeCmd v s).st = .busy ∧
    writeCmd v s = { beginCommand v s with phase := busyPhase (Config.startPhase v), starting := true } ∧
    (writeCmd v s).phase ≠ .idle ∧
    (∀ rest, step { writeCmd v s with host := .access (.read .status) :: rest } =
      .next { writeCmd v s with host := rest, lastRead := 1#64 }) ∧
    sequencerStep (writeCmd v s) = .next (takeStart (writeCmd v s)) ∧
    (s.starting = false → takeStart (writeCmd v s) = startRule v (beginCommand v s)) ∧
    (v = 0x00#8 ∨ 0x06#8 ≤ v → (takeStart (writeCmd v s)).st = if v = 0x00#8 ∨ v = 0x06#8 then .done else .fail)

/-- R23: the numbers of the `PHASE` values, of which 8 to 15 are never entered, and that `PHASE` is `P_IDLE` exactly while not
BUSY: so it is right after reset, and every step keeps it so, from any state at all. -/
def Obligations.PhaseIsIdleExactlyWhenNotBusy : Prop :=
  phaseCode .idle = 0#4 ∧ phaseCode .encLit = 1#4 ∧ phaseCode .encRep = 2#4 ∧ phaseCode .decSum = 3#4 ∧
    phaseCode .decExp = 4#4 ∧ phaseCode .size = 5#4 ∧ phaseCode .ser = 6#4 ∧ phaseCode .des = 7#4 ∧
    (∀ p, (phaseCode p).toNat < 8) ∧
    (∀ c : Config, (State.resetWith c).phase = .idle ↔ (State.resetWith c).st ≠ .busy) ∧
    ∀ s t : State, (s.phase = .idle ↔ s.st ≠ .busy) → step s = .next t → (t.phase = .idle ↔ t.st ≠ .busy)

/-- R300: a command code written while not BUSY starts the command, in this order: the common start with its pre-clear, the
command's own start rule, and the run to its end. -/
def Obligations.CommandStart : Prop :=
  ∀ (v : Byte) (s : State),
    (s.st ≠ .busy → exec (decodeCommand v) s = .next (runCommand (startRule v (beginCommand v s)))) ∧
    (beginCommand v s).cmd = v ∧ (beginCommand v s).st = .busy ∧ (beginCommand v s).err = .none ∧
    (v = 0x01#8 ∨ v = 0x05#8 → (beginCommand v s).cdValid = false ∧ (beginCommand v s).nblk = 0#32 ∧ storeEmpty (beginCommand v s) ∧
      beginCommand v s = { s with
        cmd := v, st := .busy, err := .none, cdValid := false, nblk := 0#32, blkMem := (beginCommand v s).blkMem }) ∧
    (v = 0x02#8 → beginCommand v s = { s with cmd := v, st := .busy, err := .none, outValid := false, outLen := 0#64 }) ∧
    (v ≠ 0x01#8 → v ≠ 0x05#8 → v ≠ 0x02#8 → beginCommand v s = { s with cmd := v, st := .busy, err := .none })

/-- R304, R331, U2: while BUSY every command code and every write of the host is refused by name. The refusal is the treatment
U2 asks for. -/
def Obligations.BusyWritesAreRefused : Prop :=
  ∀ s : State, s.st = .busy →
    (∀ v : Byte, exec (decodeCommand v) s = .refused .hostWriteWhileBusy) ∧
    (∀ r v, hostAccess (.write r v) s = .refused .hostWriteWhileBusy) ∧
    (∀ f v, hostAccess (.writeFlag f v) s = .refused .hostWriteWhileBusy) ∧
    (∀ a v, hostAccess (.writeIn a v) s = .refused .hostWriteWhileBusy ∧
      hostAccess (.writeOut a v) s = .refused .hostWriteWhileBusy ∧ hostAccess (.writeStr a v) s = .refused .hostWriteWhileBusy) ∧
    ∀ b f v, hostAccess (.writeEntry b f v) s = .refused .hostWriteWhileBusy

/-- R301: NOP completes in every state that is not BUSY, and changes nothing else. -/
def Obligations.NopCompletes : Prop :=
  ∀ s : State, s.st ≠ .busy → exec .nop s = .next { s with cmd := 0x00#8, st := .done, err := .none, phase := .idle }

/-- R302: RELEASE completes in every state that is not BUSY, an empty store included, changes nothing else, and a following
DECOMPRESS fails with InvalidInput. -/
def Obligations.ReleaseCompletes : Prop :=
  ∀ s : State, s.st ≠ .busy → ∃ t, exec .release s = .next t ∧ storeEmpty t ∧
    t = { s with
      cmd := 0x06#8, st := .done, err := .none, phase := .idle, cdValid := false, nblk := 0#32, blkMem := t.blkMem } ∧
    ∃ u, exec .decompress t = .next u ∧ failedWith .invalidInput u

/-- R303: every reserved code completes in every state that is not BUSY with the failure IllegalCommand; `CMD` holds the code and
nothing else changes. -/
def Obligations.ReservedCodesFail : Prop :=
  ∀ s : State, s.st ≠ .busy →
    exec .reserved07 s = .next { s with cmd := 0x07#8, st := .fail, err := .illegalCommand, phase := .idle } ∧
    (∀ low, exec (.reserved08 low) s =
      .next { s with cmd := 0b00001#5 ++ low, st := .fail, err := .illegalCommand, phase := .idle }) ∧
    (∀ low, exec (.reserved10 low) s =
      .next { s with cmd := 0b0001#4 ++ low, st := .fail, err := .illegalCommand, phase := .idle }) ∧
    (∀ low, exec (.reserved20 low) s =
      .next { s with cmd := 0b001#3 ++ low, st := .fail, err := .illegalCommand, phase := .idle }) ∧
    (∀ low, exec (.reserved40 low) s =
      .next { s with cmd := 0b01#2 ++ low, st := .fail, err := .illegalCommand, phase := .idle }) ∧
    ∀ low, exec (.reserved80 low) s = .next { s with cmd := 0b1#1 ++ low, st := .fail, err := .illegalCommand, phase := .idle }

/-! ### The blocks -/

/-- R191, R203: in the decoder's expansion pass every well-formed block completes. The bytes of its expansion from `D_K` on
stand in `OUT` from `D_O` on, every other byte of `OUT` is as before, and the decoder is at the next block, or done after the
last one. -/
def Obligations.BlocksExpandInTheDecoder : Prop :=
  ∀ (k : Block) (s : State), 1 ≤ k.len → k.len ≤ 128 → s.phase = .decExp → s.outMem.wf .out → s.dK < k.len →
    ∃ t, exec k.instr s = .next t ∧
      outBytes t s.dO (k.len - s.dK) = k.expand.drop s.dK ∧
      (∀ a, a < s.dO ∨ s.dO + (k.len - s.dK) ≤ a → outByte t a = outByte s a) ∧
      t = if s.dB + 1 = s.nblk.toNat then
          { s with
            outMem := t.outMem, dO := s.dO + (k.len - s.dK), dK := 0, dB := s.dB + 1, phase := .idle, st := .done, err := .none
            outValid := true, outLen := BitVec.ofNat 64 s.dTotal }
        else { s with outMem := t.outMem, dO := s.dO + (k.len - s.dK), dK := 0, dB := s.dB + 1 }

/-- R191: what the block of an entry expands to: a Literal to its first `len` payload bytes, a Repeat to `len` copies of its
first one; the length is `len` in both cases, and further payload bytes do not matter. -/
def Obligations.ExpansionOfAnEntry : Prop :=
  ∀ (s : State) (b : Nat),
    (kindOf (entryCtrl s b) = .lit → (entryBlock s b).expand = entryPay s b (lenOf (entryCtrl s b))) ∧
    (kindOf (entryCtrl s b) = .rep →
      (entryBlock s b).expand = List.replicate (lenOf (entryCtrl s b)) (s.blkMem.read .blk (fieldAddr b (.pay 0)))) ∧
    (entryBlock s b).expand.length = lenOf (entryCtrl s b) ∧ 1 ≤ (entryBlock s b).expand.length ∧
    (entryBlock s b).expand.length ≤ 128

/-- R235: in the stream reader every well-formed block completes. It is stored as entry `S_B`, present and well-formed, every
field of the other entries is as before, and the reader is at the next block, or done after the last one. -/
def Obligations.BlocksLoadInTheReader : Prop :=
  ∀ (k : Block) (s : State), 1 ≤ k.len → k.len ≤ 128 → s.phase = .des → s.blkMem.wf .blk → s.sB < s.cfg.blkCap →
    ∃ t, exec k.instr s = .next t ∧ entryWellFormed t s.sB = true ∧ entryCtrl t s.sB = k.ctrl ∧ entryPayload t s.sB = k.payload ∧
      (∀ b f, b ≠ s.sB → t.blkMem.read .blk (fieldAddr b f) = s.blkMem.read .blk (fieldAddr b f)) ∧
      t = if s.sCnt.toNat ≤ s.sB + 1 then
          { s with
            blkMem := t.blkMem, sP := s.sP + 1 + k.payload.length, sB := s.sB + 1, phase := .idle, st := .done, err := .none
            nblk := s.sCnt, cdValid := true }
        else { s with blkMem := t.blkMem, sP := s.sP + 1 + k.payload.length, sB := s.sB + 1 }

/-- R233, R234: COUNT in the stream reader completes for a count in 1..`BLK_CAP`; a count that is not positive fails with
MalformedCount, a larger one with AllocationFailure, and the store is released. -/
def Obligations.CountInTheReader : Prop :=
  ∀ (c : Word32) (s : State), s.phase = .des →
    (0 < c.toInt → c.toNat ≤ s.cfg.blkCap → exec (.count c) s = .next { s with sCnt := c, sP := 4 }) ∧
    (c.toInt ≤ 0 ∨ s.cfg.blkCap < c.toNat → s.cmd = 0x05#8 → ∃ t, exec (.count c) s = .next t ∧
      failedWith (if c.toInt ≤ 0 then .malformedCount else .allocationFailure) t ∧ storeEmpty t ∧
      t = { s with
        st := .fail, err := t.err, phase := .idle, cdValid := false, nblk := 0#32, blkMem := t.blkMem, sCnt := c, sP := 4 })

/-- The model's choice (log entry 7): a block or a header outside the pass that executes it is refused by name; no rule has the
block execute one there. -/
def Obligations.BlocksOutsideTheirPass : Prop :=
  ∀ s : State, s.phase ≠ .decExp → s.phase ≠ .des →
    (∀ payload, exec (.lit payload) s = .refused .blockOutsidePass) ∧
    (∀ len b, exec (.rep len b) s = .refused .blockOutsidePass) ∧ ∀ c, exec (.count c) s = .refused .blockOutsidePass

/-- R72, R203: in the expansion pass, where no start rule is pending, a block executed in one step leaves what its X1 transitions
leave one after the other, and the command is BUSY before each of them. -/
def Obligations.BlockGrainIsNotObservable : Prop :=
  ∀ s : State, Inv s → s.st = .busy → s.starting = false → s.phase = .decExp →
    sequencerStep s = .next (runToEnd (lenOf (entryCtrl s s.dB) - s.dK) s) ∧
      ∀ j < lenOf (entryCtrl s s.dB) - s.dK, (runToEnd j s).st = .busy

/-! ### The encoder -/

/-- R142: `lit_span` is the largest number of leading bytes, at most the cap, each of which has a successor and differs from
it; `rep_span` the largest number of leading bytes, at most the cap, that equal the first one. -/
def Obligations.SpansAreLargest : Prop :=
  (∀ (cap m : Nat) (bytes : List Byte), m ≤ litSpan cap bytes ↔
      m ≤ cap ∧ ∀ t < m, ∃ x y, bytes[t]? = some x ∧ bytes[t + 1]? = some y ∧ x ≠ y) ∧
    ∀ (cap r : Nat) (x : Byte) (rest : List Byte), r ≤ repSpan (cap + 1) x (x :: rest) ↔
      r ≤ cap + 1 ∧ ∀ t < r, (x :: rest)[t]? = some x

/-- R147: the blocks of an input cover it without gap or overlap, every length is in 1..128, there is at least one block of a
non-empty input and at most one a byte, and one byte gives one Repeat block. -/
def Obligations.BlocksCoverTheInput : Prop :=
  ∀ (litMax : Nat) (bytes : List Byte), litMax = 127 ∨ litMax = 128 →
    decodeBlocks (encodeBytes litMax bytes) = bytes ∧ totalLen (encodeBytes litMax bytes) = bytes.length ∧
    (∀ k ∈ encodeBytes litMax bytes, 1 ≤ k.len ∧ k.len ≤ 128) ∧
    (bytes ≠ [] → 1 ≤ (encodeBytes litMax bytes).length) ∧ (encodeBytes litMax bytes).length ≤ bytes.length ∧
    ∀ x, encodeBytes litMax [x] = [.rep 1 x]

/-- R148: the canonical form of what the encoder emits: its items 1 to 5, for two blocks that follow each other; item 6 repeats
items 3 and 4. -/
def Obligations.CanonicalForm : Prop :=
  ∀ (litMax : Nat) (bytes : List Byte), litMax = 127 ∨ litMax = 128 →
    (∀ k, (encodeBytes litMax bytes).getLast? = some k → k.kind = .rep) ∧
    (∀ k ∈ encodeBytes litMax bytes, k.kind = .lit → k.payload.IsChain (· ≠ ·)) ∧
    ∀ (front back : List Block) (j k : Block), encodeBytes litMax bytes = front ++ j :: k :: back →
      (j.kind = .lit → j.payload.getLast? ≠ k.expand.head?) ∧
      (j.kind = .lit → j.len < litMax → k.kind = .rep) ∧
      (j.kind = .rep → 2 ≤ j.len) ∧
      (j.kind = .rep → j.len < 128 → j.expand.head? ≠ k.expand.head?)

/-- R263: the length bounds of what the encoder emits, by kind, and of every entry whatever made it. -/
def Obligations.LengthBounds : Prop :=
  (∀ (litMax : Nat) (bytes : List Byte), litMax = 127 ∨ litMax = 128 → ∀ k ∈ encodeBytes litMax bytes,
      1 ≤ k.len ∧ k.len ≤ 128 ∧ (k.kind = .lit → k.len ≤ litMax) ∧ (k.kind = .rep → k.len ≤ Config.repMax)) ∧
    ∀ (s : State) (b : Nat), 1 ≤ (entryBlock s b).len ∧ (entryBlock s b).len ≤ 128

/-- R264: two equal bytes are one Repeat block of length 2. -/
def Obligations.RepeatPreference : Prop :=
  ∀ (litMax : Nat) (x : Byte), litMax = 127 ∨ litMax = 128 → encodeBytes litMax [x, x] = [.rep 2 x]

/-- R265: the boundary at 128 equal bytes, and the same run followed by another byte. -/
def Obligations.BoundaryAt128 : Prop :=
  ∀ (litMax : Nat) (x y : Byte), litMax = 127 ∨ litMax = 128 →
    encodeBytes litMax (List.replicate 128 x) = [.rep 128 x] ∧
    encodeBytes litMax (List.replicate 129 x) = [.rep 128 x, .rep 1 x] ∧
    (x ≠ y → encodeBytes litMax (List.replicate 129 x ++ [y]) = [.rep 128 x, .lit [x], .rep 1 y])

/-- R268 (d): two inputs of one length whose equal pairs stand at the same positions give blocks of the same kinds and
lengths. -/
def Obligations.ShapeDependsOnEqualPairs : Prop :=
  ∀ (litMax : Nat) (xs ys : List Byte), xs.length = ys.length →
    (∀ j, j + 1 < xs.length → (xs[j]? = xs[j + 1]? ↔ ys[j]? = ys[j + 1]?)) →
    (encodeBytes litMax xs).map (fun k => (k.kind, k.len)) = (encodeBytes litMax ys).map (fun k => (k.kind, k.len))

/-- R183, R268 (c): the serialized size of what the encoder emits is at least 2 and at most twice the input. -/
def Obligations.SizeOfEncoding : Prop :=
  ∀ (litMax : Nat) (bytes : List Byte), litMax = 127 ∨ litMax = 128 → bytes ≠ [] →
    2 ≤ totalSize (encodeBytes litMax bytes) ∧ totalSize (encodeBytes litMax bytes) ≤ 2 * bytes.length

/-- R140, R141, R144: COMPRESS completes in every state that is not BUSY. With a good input and room for its blocks the store
holds exactly the normative sequence in well-formed entries and no other entry is present; else it fails, InvalidInput before
AllocationFailure, and the store is empty. Nothing outside its frame changes. -/
def Obligations.CompressResult : Prop :=
  ∀ s : State, s.st ≠ .busy → s.cfg.Legal → ∃ t, exec .compress s = .next t ∧ CompressFrame s t ∧
    (s.inPresent = true → s.n.toNat ≠ 0 → s.n.toNat ≤ min s.cfg.nMax s.cfg.inCap →
      (encodeBytes s.cfg.litMax (input s)).length ≤ s.cfg.blkCap →
      done t ∧ t.cdValid = true ∧ t.nblk.toNat = (encodeBytes s.cfg.litMax (input s)).length ∧
        storedBlocks t = encodeBytes s.cfg.litMax (input s) ∧ allWellFormed t 0 t.nblk.toNat = true ∧
        ∀ b, t.nblk.toNat ≤ b → entryPresent t b = false) ∧
    (s.inPresent = true → s.n.toNat ≠ 0 → s.n.toNat ≤ min s.cfg.nMax s.cfg.inCap →
      s.cfg.blkCap < (encodeBytes s.cfg.litMax (input s)).length →
      failedWith .allocationFailure t ∧ t.cdValid = false ∧ t.nblk = 0#32 ∧ storeEmpty t) ∧
    (s.inPresent = false ∨ s.n.toNat = 0 ∨ min s.cfg.nMax s.cfg.inCap < s.n.toNat →
      failedWith .invalidInput t ∧ t.cdValid = false ∧ t.nblk = 0#32 ∧ storeEmpty t)

/-- R160: from the start rule on, COMPRESS of a good input with room for its blocks ends after exactly `N + NBLK` transitions
with the normative sequence. -/
def Obligations.CompressTransitionCount : Prop :=
  ∀ s : State, s.cfg.Legal → inputBad s = false → (encodeBytes s.cfg.litMax (input s)).length ≤ s.cfg.blkCap →
    (∀ j < s.n.toNat + (encodeBytes s.cfg.litMax (input s)).length,
      (runToEnd j (startCompress (beginCommand 0x01#8 s))).st = .busy) ∧
    (runToEnd (s.n.toNat + (encodeBytes s.cfg.litMax (input s)).length) (startCompress (beginCommand 0x01#8 s))).st = .done ∧
    storedBlocks (runToEnd (s.n.toNat + (encodeBytes s.cfg.litMax (input s)).length) (startCompress (beginCommand 0x01#8 s))) =
      encodeBytes s.cfg.litMax (input s)

/-- R266: COMPRESS reads nothing but `IN_PRESENT`, `N`, the input bytes and the parameters. -/
def Obligations.CompressIsDeterministic : Prop :=
  ∀ s u : State, s.st ≠ .busy → u.st ≠ .busy → s.cfg.Legal → u.cfg = s.cfg → u.inPresent = s.inPresent → u.n = s.n →
    input u = input s → ∃ t w, exec .compress s = .next t ∧ exec .compress u = .next w ∧ t.st = w.st ∧ t.err = w.err ∧
      t.nblk = w.nblk ∧ storedBlocks t = storedBlocks w ∧
      ∃ t' w', exec .size t = .next t' ∧ exec .size w = .next w' ∧ t'.size = w'.size

/-! ### The decoder and the size pass -/

/-- R190, R193, R194: DECOMPRESS completes in every state that is not BUSY. With usable entries and room, `OUT` holds the
expansions one after the other and `OUT_LEN` their total; else it fails, InvalidInput before CorruptStructure before
AllocationFailure. Nothing outside its frame changes. -/
def Obligations.DecompressResult : Prop :=
  ∀ s : State, s.st ≠ .busy → ∃ t, exec .decompress s = .next t ∧ DecompressFrame s t ∧
    (s.cdValid = true → s.nblk.toNat ≠ 0 → storeUsable s = true → totalLen (storedBlocks s) ≤ s.cfg.outCap →
      done t ∧ t.outValid = true ∧ t.outLen.toNat = totalLen (storedBlocks s) ∧ output t = decodeBlocks (storedBlocks s)) ∧
    (s.cdValid = true → s.nblk.toNat ≠ 0 → storeUsable s = true → s.cfg.outCap < totalLen (storedBlocks s) →
      failedWith .allocationFailure t ∧ t.outValid = false ∧ t.outLen = 0#64) ∧
    (s.cdValid = true → s.nblk.toNat ≠ 0 → storeUsable s = false →
      failedWith .corruptStructure t ∧ t.outValid = false ∧ t.outLen = 0#64) ∧
    (s.cdValid = false ∨ s.nblk.toNat = 0 → failedWith .invalidInput t ∧ t.outValid = false ∧ t.outLen = 0#64)

/-- R207: from the start rule on, a DECOMPRESS that succeeds ends after exactly `NBLK + 1 + total` transitions. -/
def Obligations.DecompressTransitionCount : Prop :=
  ∀ s : State, noData s = false → storeUsable s = true → totalLen (storedBlocks s) ≤ s.cfg.outCap →
    (∀ j < s.nblk.toNat + 1 + totalLen (storedBlocks s), (runToEnd j (startDecompress (beginCommand 0x02#8 s))).st = .busy) ∧
    (runToEnd (s.nblk.toNat + 1 + totalLen (storedBlocks s)) (startDecompress (beginCommand 0x02#8 s))).st = .done

/-- R180, R182: SIZE completes in every state that is not BUSY. With usable entries `SIZE` is the sum of the serialized sizes,
without the header; else it fails and `SIZE` is 0, InvalidInput before CorruptStructure. Nothing outside its frame changes. -/
def Obligations.SizeResult : Prop :=
  ∀ s : State, s.st ≠ .busy → ∃ t, exec .size s = .next t ∧ SizeFrame s t ∧
    (s.cdValid = true → s.nblk.toNat ≠ 0 → storeUsable s = true →
      done t ∧ t.size.toNat = totalSize (storedBlocks s) ∧ 2 ≤ t.size.toNat) ∧
    (s.cdValid = true → s.nblk.toNat ≠ 0 → storeUsable s = false → failedWith .corruptStructure t ∧ t.size = 0#64) ∧
    (s.cdValid = false ∨ s.nblk.toNat = 0 → failedWith .invalidInput t ∧ t.size = 0#64)

/-- R76, U12: a count of blocks above the store's capacity makes the readers fail with CorruptStructure. -/
def Obligations.EntriesBeyondTheStoreAreAbsent : Prop :=
  ∀ s : State, s.st ≠ .busy → s.cdValid = true → s.cfg.blkCap < s.nblk.toNat → s.strWritable = true →
    (∀ b, s.cfg.blkCap ≤ b → entryPresent s b = false) ∧
    (∃ t, exec .size s = .next t ∧ failedWith .corruptStructure t) ∧
    (∃ t, exec .decompress s = .next t ∧ failedWith .corruptStructure t) ∧
    ∃ t, exec .serialize s = .next t ∧ failedWith .corruptStructure t

/-! ### The stream -/

/-- R222, R223: SERIALIZE completes in every state that is not BUSY. With none of the four no-op conditions the stream is the
serialization of the stored blocks; under the first that holds, in the rule's order, nothing changes but `CMD`, `STATUS`, `ERR`
and `PHASE`, and, where the pre-check of R224 has run, its hidden `S_B` and `D_TOTAL`, of which nothing is stated. Nothing outside
its frame changes. -/
def Obligations.SerializeResult : Prop :=
  ∀ s : State, s.st ≠ .busy → ∃ t, exec .serialize s = .next t ∧ SerializeFrame s t ∧
    (s.cdValid = true → s.nblk.toNat ≠ 0 → s.strWritable = true → storeUsable s = true →
      4 + totalSize (storedBlocks s) ≤ s.cfg.strCap →
      done t ∧ t.strPresent = true ∧ t.strLen.toNat = 4 + totalSize (storedBlocks s) ∧
        stream t = serializeStream (storedBlocks s)) ∧
    (s.cdValid = true → s.nblk.toNat ≠ 0 → s.strWritable = true → storeUsable s = true →
      s.cfg.strCap < 4 + totalSize (storedBlocks s) →
      t = { s with cmd := 0x04#8, st := .fail, err := .ioFailure, phase := .idle, sB := t.sB, dTotal := t.dTotal }) ∧
    (s.cdValid = true → s.nblk.toNat ≠ 0 → s.strWritable = true → storeUsable s = false →
      t = { s with cmd := 0x04#8, st := .fail, err := .corruptStructure, phase := .idle, sB := t.sB, dTotal := t.dTotal }) ∧
    (s.cdValid = true → s.nblk.toNat ≠ 0 → s.strWritable = false →
      t = { s with cmd := 0x04#8, st := .fail, err := .ioFailure, phase := .idle }) ∧
    (s.cdValid = false ∨ s.nblk.toNat = 0 → t = { s with cmd := 0x04#8, st := .fail, err := .invalidInput, phase := .idle })

/-- R230, R231, R239: DESERIALIZE completes in every state that is not BUSY. Without a stream it fails with IOFailure; else it
does what the parser says: on an accepted stream the store holds exactly the parsed blocks in well-formed entries, else it fails
with the parser's failure and the store is empty. Nothing outside its frame changes. -/
def Obligations.DeserializeResult : Prop :=
  ∀ s : State, s.st ≠ .busy → ∃ t, exec .deserialize s = .next t ∧ DeserializeFrame s t ∧
    (∀ ks rest, s.strPresent = true → parseStream s.cfg.blkCap (stream s) = .ok (ks, rest) →
      done t ∧ t.cdValid = true ∧ t.nblk.toNat = ks.length ∧ storedBlocks t = ks ∧ allWellFormed t 0 t.nblk.toNat = true ∧
        ∀ b, t.nblk.toNat ≤ b → entryPresent t b = false) ∧
    (∀ k, s.strPresent = true → parseStream s.cfg.blkCap (stream s) = .error k →
      failedWith k t ∧ t.cdValid = false ∧ t.nblk = 0#32 ∧ storeEmpty t) ∧
    (s.strPresent = false → failedWith .ioFailure t ∧ t.cdValid = false ∧ t.nblk = 0#32 ∧ storeEmpty t)

/-- R231, R233 to R236: the parser's failures in their order, on the bytes of the stream. -/
def Obligations.ParserFailures : Prop :=
  ∀ (cap : Nat) (bytes : List Byte),
    (bytes.length < 4 → parseStream cap bytes = .error .malformedStream) ∧
    (∀ c rest, bytes = le32 c ++ rest → c.toInt ≤ 0 → parseStream cap bytes = .error .malformedCount) ∧
    (∀ c rest, bytes = le32 c ++ rest → 0 < c.toInt → cap < c.toNat → parseStream cap bytes = .error .allocationFailure) ∧
    ∀ (c : Word32) (ks : List Block) (rest : List Byte), bytes = le32 c ++ (serializeBlocks ks ++ rest) → 0 < c.toInt →
      c.toNat ≤ cap → (∀ k ∈ ks, 1 ≤ k.len ∧ k.len ≤ 128) → ks.length < c.toNat →
      (rest = [] ∨ ∃ v tail, rest = v :: tail ∧ tail.length < need v) → parseStream cap bytes = .error .malformedStream

/-! ### The laws of the whole codec -/

/-- R260: decoding what was encoded gives the input back, as functions and as the commands COMPRESS, DECOMPRESS. -/
def Obligations.RoundTrip : Prop :=
  (∀ (litMax : Nat) (bytes : List Byte), litMax = 127 ∨ litMax = 128 →
      decodeBlocks (encodeBytes litMax bytes) = bytes ∧ totalLen (encodeBytes litMax bytes) = bytes.length) ∧
    ∀ s : State, s.st ≠ .busy → s.cfg.Legal → s.inPresent = true → 1 ≤ s.n.toNat → s.n.toNat ≤ min s.cfg.nMax s.cfg.inCap →
      (encodeBytes s.cfg.litMax (input s)).length ≤ s.cfg.blkCap → s.n.toNat ≤ s.cfg.outCap →
      ∃ t u, exec .compress s = .next t ∧ exec .decompress t = .next u ∧ done u ∧ u.outLen.toNat = s.n.toNat ∧
        output u = input s

/-- R261: SIZE is the length of the serialization without its header, as functions and as the commands SIZE, SERIALIZE. -/
def Obligations.SizeAgreesWithTheStream : Prop :=
  (∀ ks : List Block, (∀ k ∈ ks, 1 ≤ k.len ∧ k.len ≤ 128) → (serializeStream ks).length = 4 + totalSize ks) ∧
    ∀ s : State, s.st ≠ .busy → ∃ t u, exec .size s = .next t ∧ exec .serialize t = .next u ∧
      (done t → done u → u.strLen.toNat = t.size.toNat + 4)

/-- R262: the persistence round trip, as functions and as the commands COMPRESS, SERIALIZE, DESERIALIZE, DECOMPRESS. -/
def Obligations.PersistenceRoundTrip : Prop :=
  (∀ (litMax cap : Nat) (bytes : List Byte), litMax = 127 ∨ litMax = 128 → bytes ≠ [] →
      (encodeBytes litMax bytes).length ≤ cap → cap ≤ 2 ^ 31 - 1 →
      ∃ ks rest, parseStream cap (serializeStream (encodeBytes litMax bytes)) = .ok (ks, rest) ∧ decodeBlocks ks = bytes) ∧
    ∀ s : State, s.st ≠ .busy → s.cfg.Legal → s.inPresent = true → 1 ≤ s.n.toNat → s.n.toNat ≤ min s.cfg.nMax s.cfg.inCap →
      s.strWritable = true → s.n.toNat ≤ s.cfg.blkCap → 2 * s.n.toNat + 4 ≤ s.cfg.strCap → s.n.toNat ≤ s.cfg.outCap →
      ∃ t u v w, exec .compress s = .next t ∧ exec .serialize t = .next u ∧ exec .deserialize u = .next v ∧
        exec .decompress v = .next w ∧ done w ∧ output w = input s

/-- R267: the "no result" signal: COMPRESS of an empty or a null input, DESERIALIZE without a stream. -/
def Obligations.FailureSignals : Prop :=
  ∀ s : State, s.st ≠ .busy →
    (s.n.toNat = 0 ∨ s.inPresent = false → ∃ t, exec .compress s = .next t ∧ t.st = .fail ∧ t.cdValid = false) ∧
    (s.strPresent = false → ∃ t, exec .deserialize s = .next t ∧ t.st = .fail ∧ t.cdValid = false)

/-- R292: a failed command leaves the state before it, modified only by the start sequence (R300) and the clean-up (R290, R291),
the hidden registers and the released bytes aside. -/
def Obligations.FailuresArePrecise : Prop :=
  ∀ (v : Byte) (s t : State), s.st ≠ .busy → s.cfg.Legal → exec (decodeCommand v) s = .next t → t.st = .fail →
    visible t = visible { raise t.err (beginCommand v s) with blkMem := t.blkMem, outMem := t.outMem } ∧
    (v = 0x01#8 ∨ v = 0x05#8 → storeEmpty t) ∧ (v ≠ 0x01#8 → v ≠ 0x05#8 → t.blkMem = s.blkMem) ∧
    (v ≠ 0x02#8 → t.outMem = s.outMem)

/-- R34, R35: reset leaves an empty store, no command leaves anything in a store that is not valid if it found none there, and
no command makes an empty CompressedData. -/
def Obligations.StoreValidity : Prop :=
  (∀ c : Config, (State.resetWith c).cdValid = false ∧ (State.resetWith c).nblk = 0#32 ∧ storeEmpty (State.resetWith c)) ∧
    ∀ (v : Byte) (s t : State), s.st ≠ .busy → s.cfg.Legal → exec (decodeCommand v) s = .next t →
      ((s.cdValid = false → s.nblk = 0#32 ∧ storeEmpty s) → t.cdValid = false → t.nblk = 0#32 ∧ storeEmpty t) ∧
      (t.cdValid = true ∧ t.nblk = 0#32 → s.cdValid = true ∧ s.nblk = 0#32)

/-! ### The machine as a whole -/

/-- The invariant holds right after reset, for any legal parameters (R47). -/
def Obligations.InvariantAtReset : Prop := Inv State.reset ∧ ∀ c : Config, c.Legal → Inv (State.resetWith c)

/-- Every step keeps the invariant: canonical memories within their capacities, `PHASE`, `ST` and `ERR` in agreement, every working register within its width, and the running pass where R159 and R207 say it is. -/
def Obligations.EveryStepKeepsTheInvariant : Prop :=
  ∀ s t : State, Inv s → step s = .next t → Inv t

/-- R30: every command ends after finitely many transitions, from any state of the invariant in the middle of one, and a command
that `exec` answers has ended. Where the command's own start rule is still to come (log entry 26), the sequencer's next step is
that rule, and the passes follow it. -/
def Obligations.EveryCommandEnds : Prop :=
  (∀ s : State, Inv s → s.st = .busy → s.starting = false →
      ∃ k, k ≤ fuelFor s ∧ (∀ j < k, (runToEnd j s).st = .busy) ∧ (runToEnd k s).st ≠ .busy) ∧
    (∀ s : State, Inv s → s.starting = true →
      ∃ t k, sequencerStep s = .next t ∧ t.starting = false ∧ k ≤ fuelFor t ∧ (∀ j < k, (runToEnd j t).st = .busy) ∧
        (runToEnd k t).st ≠ .busy) ∧
    ∀ (s : State) (v : Byte), Inv s → s.st ≠ .busy →
      ∃ t, exec (decodeCommand v) s = .next t ∧ (t.st = .done ∨ t.st = .fail) ∧ t.phase = .idle

/-- R71, R72: a command that the host starts without waiting, and whose end it then waits for step by step, ends in the state
that the command run in one step ends in. -/
def Obligations.StepwiseRunEndsTheSame : Prop :=
  ∀ (s : State) (v : Byte) (rest : List HostAct), Inv s → s.st ≠ .busy → s.host = .wait :: rest →
    ∃ k t, exec (decodeCommand v) s = .next t ∧
      core.run k { s with host := .access (.write .cmd (v.setWidth 64)) :: s.host } = .next { t with host := rest }

/-- R330, R331: while the host keeps its duties the machine never stops. -/
def Obligations.MachineNeverStopsAnObedientHost : Prop :=
  ∀ s : State, Inv s → hostObeys s → goesOn (step s)

/-- R330, U10: a host write to a read-only register, to `OUT_VALID` or to `OUT` is ignored. -/
def Obligations.ReadOnlyToTheHost : Prop :=
  ∀ s : State, s.st ≠ .busy →
    (∀ v, hostAccess (.write .status v) s = .next s ∧ hostAccess (.write .err v) s = .next s ∧
      hostAccess (.write .outLen v) s = .next s ∧ hostAccess (.write .size v) s = .next s ∧
      hostAccess (.writeFlag .outValid (v.getLsbD 0)) s = .next s) ∧
    (∀ a v, a < s.cfg.outCap → hostAccess (.writeOut a v) s = .next s) ∧
    ∀ v t, hostAccess (.write .flags v) s = .next t → t.outValid = s.outValid

/-- R30, R31, R32, R281, U11: the values of `STATUS` and `ERR`, the bits of `FLAGS`, and that the reserved bits read as 0, in
every state. -/
def Obligations.StatusErrAndFlagsLayout : Prop :=
  ∀ s : State,
    (regWord s .status).toNat = (match s.st with | .idle => 0 | .busy => 1 | .done => 2 | .fail => 3) ∧
    (regWord s .err).toNat = (match s.err with
      | .none => 0
      | .invalidInput => 1
      | .allocationFailure => 2
      | .ioFailure => 3
      | .malformedCount => 4
      | .corruptStructure => 5
      | .malformedStream => 6
      | .illegalCommand => 7) ∧
    (regWord s .flags).getLsbD 0 = s.inPresent ∧ (regWord s .flags).getLsbD 1 = s.cdValid ∧
    (regWord s .flags).getLsbD 2 = s.outValid ∧ (regWord s .flags).getLsbD 3 = s.strPresent ∧
    (regWord s .flags).getLsbD 4 = s.strWritable ∧ (regWord s .flags).toNat < 32

/-- R68, R330, R331, U3: what a host read answers. `STATUS` may be read at any time, and reads BUSY while a command runs; while
not BUSY a read answers the value of the register, byte or field; while BUSY a read of anything else answers a free value. No read
changes anything in the block or of a running command. That the answer stands in `lastRead` is the model's (log entry 4), as are
the counter of the free values (log entry 5), the zero extension to 64 bits (log entry 17), and the fault at an address that no
memory has (log entry 6). -/
def Obligations.HostReads : Prop :=
  ∀ s : State,
    hostAccess (.read .status) s = .next { s with lastRead := regWord s .status } ∧
    (s.st = .busy → regWord s .status = 1#64) ∧
    (s.st ≠ .busy →
      (∀ r, hostAccess (.read r) s = .next { s with lastRead := regWord s r }) ∧
      (∀ a, a < s.cfg.inCap → hostAccess (.readIn a) s = .next { s with lastRead := (inByte s a).setWidth 64 }) ∧
      (∀ a, a < s.cfg.outCap → hostAccess (.readOut a) s = .next { s with lastRead := (outByte s a).setWidth 64 }) ∧
      (∀ a, a < s.cfg.strCap → hostAccess (.readStr a) s = .next { s with lastRead := (strByte s a).setWidth 64 }) ∧
      (∀ b, hostAccess (.readEntry b .present) s = .next { s with lastRead := if entryPresent s b then 1#64 else 0#64 }) ∧
      ∀ b f, f ≠ .present →
        hostAccess (.readEntry b f) s = .next { s with lastRead := (s.blkMem.read .blk (fieldAddr b f)).setWidth 64 }) ∧
    (s.st = .busy →
      (∀ r, r ≠ .status →
        hostAccess (.read r) s = .next { s with lastRead := Config.busyRead s.draws, draws := s.draws + 1 }) ∧
      (∀ a, a < s.cfg.inCap →
        hostAccess (.readIn a) s = .next { s with lastRead := Config.busyRead s.draws, draws := s.draws + 1 }) ∧
      (∀ a, a < s.cfg.outCap →
        hostAccess (.readOut a) s = .next { s with lastRead := Config.busyRead s.draws, draws := s.draws + 1 }) ∧
      (∀ a, a < s.cfg.strCap →
        hostAccess (.readStr a) s = .next { s with lastRead := Config.busyRead s.draws, draws := s.draws + 1 }) ∧
      ∀ b f, hostAccess (.readEntry b f) s = .next { s with lastRead := Config.busyRead s.draws, draws := s.draws + 1 }) ∧
    ∀ a, (s.cfg.inCap ≤ a → hostAccess (.readIn a) s = .fault .noSuchAddress) ∧
      (s.cfg.outCap ≤ a → hostAccess (.readOut a) s = .fault .noSuchAddress) ∧
      (s.cfg.strCap ≤ a → hostAccess (.readStr a) s = .fault .noSuchAddress)

/-- R25, R32, R68: what the host wrote is what it reads, a write changes nothing else, and a read changes nothing in the block. A
write to `CMD` starts a command, so `CMD` is read back after it. The model's choices, which no rule gives: a write carries 64 bits,
of which a narrower register takes the low ones and `.present` takes bit 0, one flag can be written alone, and a read is
zero-extended (log entry 17); a `.plen` of 129 to 255 reads back as written (log entry 16). -/
def Obligations.HostReadsWhatItWrote : Prop :=
  ∀ s : State, s.st ≠ .busy →
    (∀ v : Word64, ∃ t, hostAccess (.write .n v) s = .next t ∧ t = { s with n := v.setWidth 32 } ∧
      hostAccess (.read .n) t = .next { t with lastRead := (v.setWidth 32).setWidth 64 }) ∧
    (∀ v : Word64, ∃ t, hostAccess (.write .nblk v) s = .next t ∧ t = { s with nblk := v.setWidth 32 } ∧
      hostAccess (.read .nblk) t = .next { t with lastRead := (v.setWidth 32).setWidth 64 }) ∧
    (∀ v : Word64, ∃ t, hostAccess (.write .strLen v) s = .next t ∧ t = { s with strLen := v } ∧
      hostAccess (.read .strLen) t = .next { t with lastRead := v }) ∧
    (∀ v : Word64, ∃ t w, hostAccess (.write .flags v) s = .next t ∧
      t = { s with
        inPresent := v.getLsbD 0, cdValid := v.getLsbD 1, strPresent := v.getLsbD 3, strWritable := v.getLsbD 4 } ∧
      hostAccess (.read .flags) t = .next { t with lastRead := w } ∧
      w.getLsbD 0 = v.getLsbD 0 ∧ w.getLsbD 1 = v.getLsbD 1 ∧ w.getLsbD 2 = s.outValid ∧ w.getLsbD 3 = v.getLsbD 3 ∧
      w.getLsbD 4 = v.getLsbD 4 ∧ w.toNat < 32) ∧
    (∀ v : Bool, hostAccess (.writeFlag .inPresent v) s = .next { s with inPresent := v } ∧
      hostAccess (.writeFlag .cdValid v) s = .next { s with cdValid := v } ∧
      hostAccess (.writeFlag .strPresent v) s = .next { s with strPresent := v } ∧
      hostAccess (.writeFlag .strWritable v) s = .next { s with strWritable := v }) ∧
    (∀ (v : Byte) (t : State), exec (decodeCommand v) s = .next t → t.st ≠ .busy →
      hostAccess (.read .cmd) t = .next { t with lastRead := v.setWidth 64 }) ∧
    (∀ a v, a < s.cfg.inCap → s.inMem.wf .inp → ∃ t, hostAccess (.writeIn a v) s = .next t ∧ t = { s with inMem := t.inMem } ∧
      hostAccess (.readIn a) t = .next { t with lastRead := v.setWidth 64 } ∧ ∀ b, b ≠ a → inByte t b = inByte s b) ∧
    (∀ a v, a < s.cfg.strCap → s.strMem.wf .str → ∃ t, hostAccess (.writeStr a v) s = .next t ∧
      t = { s with strMem := t.strMem } ∧
      hostAccess (.readStr a) t = .next { t with lastRead := v.setWidth 64 } ∧ ∀ b, b ≠ a → strByte t b = strByte s b) ∧
    ∀ b f v, b < s.cfg.blkCap → s.blkMem.wf .blk → ∃ t, hostAccess (.writeEntry b f v) s = .next t ∧
      t = { s with blkMem := t.blkMem } ∧
      hostAccess (.readEntry b f) t = .next { t with lastRead := (fieldValue f v).setWidth 64 } ∧
      ∀ b' f', (b', f') ≠ (b, f) → t.blkMem.read .blk (fieldAddr b' f') = s.blkMem.read .blk (fieldAddr b' f')

/-- R33, R36, R37, R38, R61: which command writes what. -/
def Obligations.CommandsWriteOnlyTheirOwn : Prop :=
  ∀ (i : Instr) (s t : State), Inv s → spaceOf i = .command → exec i s = .next t →
    t.cfg = s.cfg ∧ t.n = s.n ∧ t.inMem = s.inMem ∧ t.inPresent = s.inPresent ∧ t.strWritable = s.strWritable ∧
    (i ≠ .compress → i ≠ .deserialize → i ≠ .release →
      t.cdValid = s.cdValid ∧ t.nblk = s.nblk ∧ t.blkMem = s.blkMem) ∧
    (i ≠ .decompress → t.outValid = s.outValid ∧ t.outLen = s.outLen ∧ t.outMem = s.outMem) ∧
    (i ≠ .size → t.size = s.size) ∧
    (i ≠ .serialize → t.strPresent = s.strPresent ∧ t.strLen = s.strLen ∧ t.strMem = s.strMem)

/-- R22, R46: no command reads a working register before it has written it: two states that differ only in working registers give
results that differ only in working registers. -/
def Obligations.WorkingRegistersAreDead : Prop :=
  ∀ (v : Byte) (s u : State), s.st ≠ .busy → visible s = visible u →
    ∃ t w, exec (decodeCommand v) s = .next t ∧ exec (decodeCommand v) u = .next w ∧ visible t = visible w
end

