-- ==== Sys2Proof/Laws/ControlByte.lean ====
section
/-! SUPPORT. The laws of the control byte (40_control_byte.md R121 to R127) and of the block count's byte order. -/

namespace Sys2Proof

theorem lengthOk_iff {len : Nat} : lengthOk len = true ↔ 1 ≤ len ∧ len ≤ 128 := by
  rw [lengthOk, Bool.and_eq_true, decide_eq_true_iff, decide_eq_true_iff]
  exact Iff.rfl

theorem lenOf_eq (c : Byte) : lenOf c = c.toNat / 2 + 1 := by
  simp only [lenOf, BitVec.extractLsb'_toNat, Nat.shiftRight_eq_div_pow]
  have := c.isLt
  omega

theorem kindOf_eq (c : Byte) : kindOf c = if c.toNat % 2 = 1 then .rep else .lit := by
  simp only [kindOf, BitVec.getLsbD, Nat.testBit_zero, decide_eq_true_eq]

theorem lenOf_pos (c : Byte) : 1 ≤ lenOf c := by rw [lenOf_eq]; omega

theorem lenOf_le (c : Byte) : lenOf c ≤ 128 := by
  rw [lenOf_eq]
  have := c.isLt
  omega

theorem lengthOk_lenOf (c : Byte) : lengthOk (lenOf c) = true := lengthOk_iff.2 ⟨lenOf_pos c, lenOf_le c⟩

theorem toNat_packLen (k : Kind) {len : Nat} (h : lengthOk len = true) :
    (packLen k len).toNat = kindBit k + 2 * (len - 1) := by
  obtain ⟨h1, h2⟩ := lengthOk_iff.1 h
  rw [packLen, if_pos h, BitVec.toNat_ofNat]
  cases k <;> simp only [kindBit] <;> omega

theorem kindOf_packLen (k : Kind) {len : Nat} (h : lengthOk len = true) : kindOf (packLen k len) = k := by
  rw [kindOf_eq, toNat_packLen k h]
  cases k
  · rw [if_neg (by simp only [kindBit]; omega)]
  · rw [if_pos (by simp only [kindBit]; omega)]

theorem lenOf_packLen (k : Kind) {len : Nat} (h : lengthOk len = true) : lenOf (packLen k len) = len := by
  obtain ⟨h1, h2⟩ := lengthOk_iff.1 h
  rw [lenOf_eq, toNat_packLen k h]
  cases k <;> simp only [kindBit] <;> omega

/-- `pack(unpack(c)) = c`. -/
theorem packLen_unpack (c : Byte) : packLen (kindOf c) (lenOf c) = c := by
  apply BitVec.eq_of_toNat_eq
  rw [toNat_packLen _ (lengthOk_lenOf c), kindOf_eq, lenOf_eq]
  split <;> simp only [kindBit] <;> omega

theorem need_pos (c : Byte) : 1 ≤ need c := by
  unfold need; split
  · exact lenOf_pos c
  · exact Nat.le_refl 1

theorem need_le (c : Byte) : need c ≤ 128 := by
  unfold need; split
  · exact lenOf_le c
  · omega

theorem need_lit {c : Byte} (h : kindOf c = .lit) : need c = lenOf c := by simp [need, h]

theorem need_rep {c : Byte} (h : kindOf c = .rep) : need c = 1 := by simp [need, h]

theorem need_packLen_lit {len : Nat} (h : lengthOk len = true) : need (packLen .lit len) = len := by
  rw [need_lit (kindOf_packLen _ h), lenOf_packLen _ h]

theorem need_packLen_rep {len : Nat} (h : lengthOk len = true) : need (packLen .rep len) = 1 :=
  need_rep (kindOf_packLen _ h)

/-! ### The block count -/

theorem toNat_unle32 (b0 b1 b2 b3 : Byte) :
    (unle32 b0 b1 b2 b3).toNat = b0.toNat + 2 ^ 8 * b1.toNat + 2 ^ 16 * b2.toNat + 2 ^ 24 * b3.toNat := by
  have h0 := b0.isLt; have h1 := b1.isLt; have h2 := b2.isLt; have h3 := b3.isLt
  simp only [unle32, BitVec.toNat_append, Nat.shiftLeft_eq]
  rw [Nat.or_comm, ← Nat.shiftLeft_eq, Nat.or_comm, ← Nat.shiftLeft_add_eq_or_of_lt h0]
  rw [← Nat.shiftLeft_eq, ← Nat.shiftLeft_add_eq_or_of_lt h1, ← Nat.shiftLeft_eq, ← Nat.shiftLeft_add_eq_or_of_lt h2]
  simp only [Nat.shiftLeft_eq]
  omega

theorem le32_bytes (v : Word32) : ∃ b0 b1 b2 b3, le32 v = [b0, b1, b2, b3] ∧ unle32 b0 b1 b2 b3 = v := by
  refine ⟨_, _, _, _, rfl, ?_⟩
  apply BitVec.eq_of_toNat_eq
  have := v.isLt
  rw [toNat_unle32]
  simp only [BitVec.extractLsb'_toNat, Nat.shiftRight_eq_div_pow]
  omega

@[simp] theorem length_le32 (v : Word32) : (le32 v).length = 4 := rfl

/-! ### Blocks -/

theorem decodeBlock_lit {payload : List Byte} (h : lengthOk payload.length = true) (rest : List Byte) :
    decodeBlock (packLen .lit payload.length :: (payload ++ rest)) = .ok (.lit payload, rest) := by
  have hl := lenOf_packLen .lit h
  simp [decodeBlock, kindOf_packLen .lit h, hl]

theorem decodeBlock_rep {len : Nat} (h : lengthOk len = true) (b : Byte) (rest : List Byte) :
    decodeBlock (packLen .rep len :: b :: rest) = .ok (.rep len b, rest) := by
  simp [decodeBlock, kindOf_packLen .rep h, lenOf_packLen .rep h]

/-- What the block decoder can answer: a block whose bytes are the head of what it was given. -/
theorem decodeBlock_ok {bytes : List Byte} {i : Instr} {rest : List Byte} (h : decodeBlock bytes = .ok (i, rest)) :
    (∃ payload, i = .lit payload ∧ lengthOk payload.length = true ∧
        bytes = packLen .lit payload.length :: (payload ++ rest)) ∨
      ∃ len b, i = .rep len b ∧ lengthOk len = true ∧ bytes = packLen .rep len :: b :: rest := by
  match bytes, h with
  | c :: tail, h =>
    have hc := packLen_unpack c
    simp only [decodeBlock] at h
    cases hk : kindOf c with
    | lit =>
      rw [hk] at h hc
      simp only at h
      split at h
      · cases h
      · next hlt =>
        cases h
        have hlen : (tail.take (lenOf c)).length = lenOf c := by simp; omega
        exact .inl ⟨_, rfl, by rw [hlen]; exact lengthOk_lenOf c, by rw [hlen, List.take_append_drop, hc]⟩
    | rep =>
      rw [hk] at h hc
      match tail, h with
      | b :: tail', h =>
        cases h
        exact .inr ⟨_, _, rfl, lengthOk_lenOf c, by rw [hc]⟩

/-- The block decoder answers a block exactly when the bytes reach to the end of the block's payload (R94). -/
theorem decodeBlock_error_iff (c : Byte) (rest : List Byte) :
    (∃ e, decodeBlock (c :: rest) = .error e) ↔ rest.length < need c := by
  cases hk : kindOf c with
  | lit =>
    simp only [decodeBlock, hk, need_lit hk]
    by_cases h : rest.length < lenOf c <;> simp [h]
  | rep =>
    simp only [need_rep hk]
    cases rest with
    | nil => simp [decodeBlock, hk]
    | cons b rest => simp [decodeBlock, hk]

end Sys2Proof
end

