-- ==== Sys2Proof/Laws/Memory.lean ====
section
/-! SUPPORT. The laws of one memory: what a read gives after a write, that every operation keeps the canonical form, and the
same for runs of bytes (20_memory.md R67 to R70). -/

namespace Sys2Proof.Machine

/-! ### Listed cells -/

theorem lookup_eq_none_of_lt {cells : List Host.Cell} {a : Nat} (h : ∀ c ∈ cells, a < c.1) : lookup cells a = none := by
  induction cells with
  | nil => rfl
  | cons c rest ih =>
    have hc := h c (by simp)
    rw [lookup, if_neg (by omega)]
    exact ih fun d hd => h d (by simp [hd])

theorem lookup_mem {cells : List Host.Cell} {a : Nat} {v : Byte} (h : lookup cells a = some v) : (a, v) ∈ cells := by
  induction cells with
  | nil => simp [lookup] at h
  | cons c rest ih =>
    rw [lookup] at h
    split at h
    · next hc => cases h; subst hc; simp
    · exact List.mem_cons_of_mem _ (ih h)

theorem lookup_insertCell (cells : List Host.Cell) (a b : Nat) (v : Byte) :
    lookup (insertCell cells a v) b = if a = b then some v else lookup cells b := by
  induction cells with
  | nil => simp [insertCell, lookup]
  | cons c rest ih =>
    rw [insertCell]
    split
    · simp [lookup]
    · split
      · next h1 h2 => subst h2; by_cases hb : c.1 = b <;> simp [lookup, hb]
      · by_cases hb : c.1 = b
        · have : a ≠ b := by omega
          simp [lookup, hb, this]
        · simp only [lookup, hb, if_false, ih]

theorem lookup_eraseCell {cells : List Host.Cell} (h : cells.Pairwise (fun c d => c.1 < d.1)) (a b : Nat) :
    lookup (eraseCell cells a) b = if a = b then none else lookup cells b := by
  induction cells with
  | nil => simp [eraseCell, lookup]
  | cons c rest ih =>
    obtain ⟨hc, hr⟩ := List.pairwise_cons.1 h
    rw [eraseCell]
    by_cases hca : c.1 = a
    · rw [if_pos hca]
      by_cases hb : a = b
      · subst hb; rw [if_pos rfl]
        exact lookup_eq_none_of_lt fun d hd => hca ▸ hc d hd
      · rw [if_neg hb, lookup, if_neg (by omega)]
    · rw [if_neg hca, lookup, ih hr]
      by_cases hb : c.1 = b
      · have : a ≠ b := by omega
        simp [lookup, hb, this]
      · simp [lookup, hb]

theorem mem_insertCell {cells : List Host.Cell} {a : Nat} {v : Byte} {c : Host.Cell} (h : c ∈ insertCell cells a v) :
    c = (a, v) ∨ c ∈ cells := by
  induction cells with
  | nil => simpa [insertCell] using h
  | cons d rest ih =>
    rw [insertCell] at h
    split at h
    · simpa using h
    · split at h
      · rcases List.mem_cons.1 h with h | h
        · exact .inl h
        · exact .inr (List.mem_cons_of_mem _ h)
      · rcases List.mem_cons.1 h with h | h
        · exact .inr (by simp [h])
        · exact (ih h).imp id (List.mem_cons_of_mem _)

theorem mem_eraseCell {cells : List Host.Cell} {a : Nat} {c : Host.Cell} (h : c ∈ eraseCell cells a) : c ∈ cells := by
  induction cells with
  | nil => simp [eraseCell] at h
  | cons d rest ih =>
    rw [eraseCell] at h
    split at h
    · exact List.mem_cons_of_mem _ h
    · rcases List.mem_cons.1 h with h | h
      · simp [h]
      · exact List.mem_cons_of_mem _ (ih h)

theorem pairwise_insertCell {cells : List Host.Cell} (h : cells.Pairwise (fun c d => c.1 < d.1)) (a : Nat) (v : Byte) :
    (insertCell cells a v).Pairwise (fun c d => c.1 < d.1) := by
  induction cells with
  | nil => simp [insertCell]
  | cons c rest ih =>
    obtain ⟨hc, hr⟩ := List.pairwise_cons.1 h
    rw [insertCell]
    split
    · next hlt =>
      refine List.pairwise_cons.2 ⟨?_, h⟩
      intro d hd
      rcases List.mem_cons.1 hd with hd | hd
      · subst hd; exact hlt
      · exact Nat.lt_trans hlt (hc d hd)
    · split
      · next heq => exact List.pairwise_cons.2 ⟨fun d hd => heq ▸ hc d hd, hr⟩
      · refine List.pairwise_cons.2 ⟨?_, ih hr⟩
        intro d hd
        rcases mem_insertCell hd with hd | hd
        · subst hd; simp only; omega
        · exact hc d hd

theorem pairwise_eraseCell {cells : List Host.Cell} (h : cells.Pairwise (fun c d => c.1 < d.1)) (a : Nat) :
    (eraseCell cells a).Pairwise (fun c d => c.1 < d.1) := by
  induction cells with
  | nil => simp [eraseCell]
  | cons c rest ih =>
    obtain ⟨hc, hr⟩ := List.pairwise_cons.1 h
    rw [eraseCell]
    split
    · exact hr
    · exact List.pairwise_cons.2 ⟨fun d hd => hc d (mem_eraseCell hd), ih hr⟩

/-! ### One byte -/

/-- What a byte reads as is decided by what is listed there. -/
theorem read_of_lookup {sp : MemSpace} {m m' : Mem} {a : Nat} (h : lookup m.cells a = lookup m'.cells a)
    (he : m.epoch = m'.epoch) : m.read sp a = m'.read sp a := by
  simp [Mem.read, h, he]

theorem read_write_same {sp : MemSpace} {m : Mem} (h : m.wf sp) (a : Nat) (v : Byte) : (m.write sp a v).read sp a = v := by
  by_cases hv : unlisted sp a = some v
  · simp [Mem.write, Mem.read, lookup_eraseCell h.1, hv]
  · simp [Mem.write, Mem.read, lookup_insertCell, hv]

theorem read_write_ne {sp : MemSpace} {m : Mem} (h : m.wf sp) {a b : Nat} (hab : a ≠ b) (v : Byte) :
    (m.write sp a v).read sp b = m.read sp b := by
  refine read_of_lookup ?_ ?_ <;> by_cases hv : unlisted sp a = some v
  · simp [Mem.write, lookup_eraseCell h.1, hab, hv]
  · simp [Mem.write, lookup_insertCell, hab, hv]
  · simp [Mem.write, hv]
  · simp [Mem.write, hv]

/-- A write, whole: the byte written at its address, every other byte as before. -/
theorem read_write {sp : MemSpace} {m : Mem} (h : m.wf sp) (a b : Nat) (v : Byte) :
    (m.write sp a v).read sp b = if a = b then v else m.read sp b := by
  split
  · next hab => subst hab; exact read_write_same h a v
  · next hab => exact read_write_ne h hab v

@[simp] theorem epoch_write (sp : MemSpace) (m : Mem) (a : Nat) (v : Byte) : (m.write sp a v).epoch = m.epoch := by
  unfold Mem.write; split <;> rfl

/-! ### The canonical form -/

theorem emptyMem_wf (sp : MemSpace) : emptyMem.wf sp := by simp [Mem.wf, emptyMem]

theorem forget_wf (sp : MemSpace) (m : Mem) : m.forget.wf sp := by simp [Mem.wf, Mem.forget]

theorem write_wf {sp : MemSpace} {m : Mem} (h : m.wf sp) (a : Nat) (v : Byte) : (m.write sp a v).wf sp := by
  unfold Mem.write
  split
  · exact ⟨pairwise_eraseCell h.1 a, fun c hc => h.2 c (mem_eraseCell hc)⟩
  · next hv =>
    refine ⟨pairwise_insertCell h.1 a v, fun c hc => ?_⟩
    rcases mem_insertCell hc with rfl | hc
    · exact hv
    · exact h.2 c hc

theorem writeBytes_wf {sp : MemSpace} (bs : List Byte) {m : Mem} (h : m.wf sp) (a : Nat) : (m.writeBytes sp a bs).wf sp := by
  induction bs generalizing m a with
  | nil => exact h
  | cons b bs ih => exact ih (write_wf h a b) (a + 1)

/-- A write lists nothing at or beyond a bound that its address is below. -/
theorem write_bound {sp : MemSpace} {m : Mem} {n a : Nat} (h : ∀ c ∈ m.cells, c.1 < n) (ha : a < n) (v : Byte) :
    ∀ c ∈ (m.write sp a v).cells, c.1 < n := by
  intro c hc
  unfold Mem.write at hc
  split at hc
  · exact h c (mem_eraseCell hc)
  · rcases mem_insertCell hc with rfl | hc
    · exact ha
    · exact h c hc

theorem writeBytes_bound {sp : MemSpace} (bs : List Byte) {m : Mem} {n a : Nat} (h : ∀ c ∈ m.cells, c.1 < n)
    (ha : a + bs.length ≤ n) : ∀ c ∈ (m.writeBytes sp a bs).cells, c.1 < n := by
  induction bs generalizing m a with
  | nil => exact h
  | cons b bs ih =>
    simp only [List.length_cons] at ha
    exact ih (write_bound h (by omega) b) (by omega)

/-! ### Runs of bytes -/

@[simp] theorem readBytes_zero (sp : MemSpace) (m : Mem) (a : Nat) : m.readBytes sp a 0 = [] := rfl

theorem readBytes_succ (sp : MemSpace) (m : Mem) (a n : Nat) :
    m.readBytes sp a (n + 1) = m.read sp a :: m.readBytes sp (a + 1) n := rfl

@[simp] theorem length_readBytes (sp : MemSpace) (m : Mem) (a n : Nat) : (m.readBytes sp a n).length = n := by
  induction n generalizing a with
  | zero => rfl
  | succ n ih => simp [readBytes_succ, ih]

theorem readBytes_add (sp : MemSpace) (m : Mem) (a k n : Nat) :
    m.readBytes sp a (k + n) = m.readBytes sp a k ++ m.readBytes sp (a + k) n := by
  induction k generalizing a with
  | zero => simp
  | succ k ih =>
    rw [show k + 1 + n = (k + n) + 1 by omega, readBytes_succ, readBytes_succ, ih, show a + 1 + k = a + (k + 1) by omega]
    rfl

theorem getElem_readBytes (sp : MemSpace) (m : Mem) (a n k : Nat) (h : k < (m.readBytes sp a n).length) :
    (m.readBytes sp a n)[k] = m.read sp (a + k) := by
  induction n generalizing a k with
  | zero => simp at h
  | succ n ih =>
    cases k with
    | zero => simp [readBytes_succ]
    | succ k => simp only [readBytes_succ, List.getElem_cons_succ]; rw [ih, show a + 1 + k = a + (k + 1) by omega]

theorem take_readBytes (sp : MemSpace) (m : Mem) (a n k : Nat) (h : k ≤ n) :
    (m.readBytes sp a n).take k = m.readBytes sp a k := by
  obtain ⟨d, rfl⟩ := Nat.exists_eq_add_of_le h
  rw [readBytes_add, List.take_left' (by simp)]

theorem drop_readBytes (sp : MemSpace) (m : Mem) (a n k : Nat) (h : k ≤ n) :
    (m.readBytes sp a n).drop k = m.readBytes sp (a + k) (n - k) := by
  obtain ⟨d, rfl⟩ := Nat.exists_eq_add_of_le h
  rw [readBytes_add, List.drop_left' (by simp), Nat.add_sub_cancel_left]

/-- Two memories that read the same over a range give the same run of bytes. -/
theorem readBytes_congr {sp : MemSpace} {m m' : Mem} {a n : Nat} (h : ∀ k < n, m.read sp (a + k) = m'.read sp (a + k)) :
    m.readBytes sp a n = m'.readBytes sp a n := by
  induction n generalizing a with
  | zero => rfl
  | succ n ih =>
    rw [readBytes_succ, readBytes_succ]
    congr 1
    · simpa using h 0 (by omega)
    · exact ih fun k hk => by simpa [show a + 1 + k = a + (k + 1) by omega] using h (k + 1) (by omega)

/-- A run of writes leaves every byte outside it as it was. -/
theorem read_writeBytes_outside {sp : MemSpace} (bs : List Byte) {m : Mem} (h : m.wf sp) (a b : Nat)
    (hb : b < a ∨ a + bs.length ≤ b) : (m.writeBytes sp a bs).read sp b = m.read sp b := by
  induction bs generalizing m a with
  | nil => rfl
  | cons v bs ih =>
    simp only [List.length_cons] at hb
    rw [Mem.writeBytes, ih (write_wf h a v) (a + 1) (by omega), read_write_ne h (by omega)]

/-- A run of writes stores its bytes. -/
theorem read_writeBytes_inside {sp : MemSpace} (bs : List Byte) {m : Mem} (h : m.wf sp) (a k : Nat) (hk : k < bs.length) :
    (m.writeBytes sp a bs).read sp (a + k) = bs[k] := by
  induction bs generalizing m a k with
  | nil => simp at hk
  | cons v bs ih =>
    rw [Mem.writeBytes]
    cases k with
    | zero =>
      rw [read_writeBytes_outside bs (write_wf h a v) (a + 1) (a + 0) (by omega)]
      exact read_write_same h a v
    | succ k =>
      have := ih (write_wf h a v) (a + 1) k (by simpa using hk)
      rw [show a + 1 + k = a + (k + 1) by omega] at this
      simpa using this

theorem readBytes_writeBytes {sp : MemSpace} {m : Mem} (h : m.wf sp) (a : Nat) (bs : List Byte) :
    (m.writeBytes sp a bs).readBytes sp a bs.length = bs := by
  refine List.ext_getElem (by simp) fun k h1 h2 => ?_
  rw [getElem_readBytes, read_writeBytes_inside bs h a k h2]

theorem readBytes_write_outside {sp : MemSpace} {m : Mem} (h : m.wf sp) {a n b : Nat} (hb : b < a ∨ a + n ≤ b) (v : Byte) :
    (m.write sp b v).readBytes sp a n = m.readBytes sp a n :=
  readBytes_congr fun k hk => read_write_ne h (by omega) v

theorem readBytes_writeBytes_outside {sp : MemSpace} {m : Mem} (h : m.wf sp) {a n b : Nat} (bs : List Byte)
    (hb : b + bs.length ≤ a ∨ a + n ≤ b) : (m.writeBytes sp b bs).readBytes sp a n = m.readBytes sp a n :=
  readBytes_congr fun k hk => read_writeBytes_outside bs h b (a + k) (by omega)

theorem writeBytes_append {sp : MemSpace} (bs cs : List Byte) (m : Mem) (a : Nat) :
    m.writeBytes sp a (bs ++ cs) = (m.writeBytes sp a bs).writeBytes sp (a + bs.length) cs := by
  induction bs generalizing m a with
  | nil => rfl
  | cons b bs ih =>
    simp only [List.cons_append, Mem.writeBytes, ih, List.length_cons]
    rw [show a + 1 + bs.length = a + (bs.length + 1) by omega]

/-! ### The fields of entries -/

/-- The fields of entry `b` stand in the addresses from `entrySize * b` on. -/
theorem fieldAddr_bounds (b : Nat) (f : EntryField) : entrySize * b ≤ fieldAddr b f ∧ fieldAddr b f < entrySize * (b + 1) := by
  cases f <;> simp only [fieldAddr, entrySize] <;> omega

/-- No two fields of any entries share an address (R60). -/
theorem fieldAddr_injective {b b' : Nat} {f f' : EntryField} (h : fieldAddr b f = fieldAddr b' f') : b = b' ∧ f = f' := by
  have hb : b = b' := by
    have h1 := fieldAddr_bounds b f
    have h2 := fieldAddr_bounds b' f'
    simp only [entrySize] at h1 h2
    omega
  subst hb
  refine ⟨rfl, ?_⟩
  cases f <;> cases f' <;> simp only [fieldAddr, entrySize] at h <;> first | rfl | omega | (congr 1; ext; omega)

end Sys2Proof.Machine
end

