-- ==== Sys2Proof/Laws/State.lean ====
section
/-! SUPPORT. One lemma per field for each named update of the state, true by rfl, so that no proof unfolds a record update; and
for the two updates that depend on `CMD` or the code (`raise`, `beginCommand`) one lemma per field they never change. -/

namespace Sys2Proof.Machine

/-! ### `releaseStore` -/

@[simp] theorem releaseStore_cfg (s : State) : (releaseStore s).cfg = s.cfg := rfl
@[simp] theorem releaseStore_cmd (s : State) : (releaseStore s).cmd = s.cmd := rfl
@[simp] theorem releaseStore_st (s : State) : (releaseStore s).st = s.st := rfl
@[simp] theorem releaseStore_err (s : State) : (releaseStore s).err = s.err := rfl
@[simp] theorem releaseStore_inPresent (s : State) : (releaseStore s).inPresent = s.inPresent := rfl
@[simp] theorem releaseStore_cdValid (s : State) : (releaseStore s).cdValid = false := rfl
@[simp] theorem releaseStore_outValid (s : State) : (releaseStore s).outValid = s.outValid := rfl
@[simp] theorem releaseStore_strPresent (s : State) : (releaseStore s).strPresent = s.strPresent := rfl
@[simp] theorem releaseStore_strWritable (s : State) : (releaseStore s).strWritable = s.strWritable := rfl
@[simp] theorem releaseStore_n (s : State) : (releaseStore s).n = s.n := rfl
@[simp] theorem releaseStore_nblk (s : State) : (releaseStore s).nblk = 0#32 := rfl
@[simp] theorem releaseStore_outLen (s : State) : (releaseStore s).outLen = s.outLen := rfl
@[simp] theorem releaseStore_size (s : State) : (releaseStore s).size = s.size := rfl
@[simp] theorem releaseStore_strLen (s : State) : (releaseStore s).strLen = s.strLen := rfl
@[simp] theorem releaseStore_phase (s : State) : (releaseStore s).phase = s.phase := rfl
@[simp] theorem releaseStore_eI (s : State) : (releaseStore s).eI = s.eI := rfl
@[simp] theorem releaseStore_eM (s : State) : (releaseStore s).eM = s.eM := rfl
@[simp] theorem releaseStore_eR (s : State) : (releaseStore s).eR = s.eR := rfl
@[simp] theorem releaseStore_eFirst (s : State) : (releaseStore s).eFirst = s.eFirst := rfl
@[simp] theorem releaseStore_dB (s : State) : (releaseStore s).dB = s.dB := rfl
@[simp] theorem releaseStore_dK (s : State) : (releaseStore s).dK = s.dK := rfl
@[simp] theorem releaseStore_dO (s : State) : (releaseStore s).dO = s.dO := rfl
@[simp] theorem releaseStore_dTotal (s : State) : (releaseStore s).dTotal = s.dTotal := rfl
@[simp] theorem releaseStore_sB (s : State) : (releaseStore s).sB = s.sB := rfl
@[simp] theorem releaseStore_sP (s : State) : (releaseStore s).sP = s.sP := rfl
@[simp] theorem releaseStore_sCnt (s : State) : (releaseStore s).sCnt = s.sCnt := rfl
@[simp] theorem releaseStore_inMem (s : State) : (releaseStore s).inMem = s.inMem := rfl
@[simp] theorem releaseStore_blkMem (s : State) : (releaseStore s).blkMem = s.blkMem.forget := rfl
@[simp] theorem releaseStore_outMem (s : State) : (releaseStore s).outMem = s.outMem := rfl
@[simp] theorem releaseStore_strMem (s : State) : (releaseStore s).strMem = s.strMem := rfl
@[simp] theorem releaseStore_pkKind (s : State) : (releaseStore s).pkKind = s.pkKind := rfl
@[simp] theorem releaseStore_pkLen (s : State) : (releaseStore s).pkLen = s.pkLen := rfl
@[simp] theorem releaseStore_upCtrl (s : State) : (releaseStore s).upCtrl = s.upCtrl := rfl
@[simp] theorem releaseStore_host (s : State) : (releaseStore s).host = s.host := rfl
@[simp] theorem releaseStore_lastRead (s : State) : (releaseStore s).lastRead = s.lastRead := rfl
@[simp] theorem releaseStore_draws (s : State) : (releaseStore s).draws = s.draws := rfl
@[simp] theorem releaseStore_starting (s : State) : (releaseStore s).starting = s.starting := rfl

/-! ### `releaseOutput` -/

@[simp] theorem releaseOutput_cfg (s : State) : (releaseOutput s).cfg = s.cfg := rfl
@[simp] theorem releaseOutput_cmd (s : State) : (releaseOutput s).cmd = s.cmd := rfl
@[simp] theorem releaseOutput_st (s : State) : (releaseOutput s).st = s.st := rfl
@[simp] theorem releaseOutput_err (s : State) : (releaseOutput s).err = s.err := rfl
@[simp] theorem releaseOutput_inPresent (s : State) : (releaseOutput s).inPresent = s.inPresent := rfl
@[simp] theorem releaseOutput_cdValid (s : State) : (releaseOutput s).cdValid = s.cdValid := rfl
@[simp] theorem releaseOutput_outValid (s : State) : (releaseOutput s).outValid = false := rfl
@[simp] theorem releaseOutput_strPresent (s : State) : (releaseOutput s).strPresent = s.strPresent := rfl
@[simp] theorem releaseOutput_strWritable (s : State) : (releaseOutput s).strWritable = s.strWritable := rfl
@[simp] theorem releaseOutput_n (s : State) : (releaseOutput s).n = s.n := rfl
@[simp] theorem releaseOutput_nblk (s : State) : (releaseOutput s).nblk = s.nblk := rfl
@[simp] theorem releaseOutput_outLen (s : State) : (releaseOutput s).outLen = 0#64 := rfl
@[simp] theorem releaseOutput_size (s : State) : (releaseOutput s).size = s.size := rfl
@[simp] theorem releaseOutput_strLen (s : State) : (releaseOutput s).strLen = s.strLen := rfl
@[simp] theorem releaseOutput_phase (s : State) : (releaseOutput s).phase = s.phase := rfl
@[simp] theorem releaseOutput_eI (s : State) : (releaseOutput s).eI = s.eI := rfl
@[simp] theorem releaseOutput_eM (s : State) : (releaseOutput s).eM = s.eM := rfl
@[simp] theorem releaseOutput_eR (s : State) : (releaseOutput s).eR = s.eR := rfl
@[simp] theorem releaseOutput_eFirst (s : State) : (releaseOutput s).eFirst = s.eFirst := rfl
@[simp] theorem releaseOutput_dB (s : State) : (releaseOutput s).dB = s.dB := rfl
@[simp] theorem releaseOutput_dK (s : State) : (releaseOutput s).dK = s.dK := rfl
@[simp] theorem releaseOutput_dO (s : State) : (releaseOutput s).dO = s.dO := rfl
@[simp] theorem releaseOutput_dTotal (s : State) : (releaseOutput s).dTotal = s.dTotal := rfl
@[simp] theorem releaseOutput_sB (s : State) : (releaseOutput s).sB = s.sB := rfl
@[simp] theorem releaseOutput_sP (s : State) : (releaseOutput s).sP = s.sP := rfl
@[simp] theorem releaseOutput_sCnt (s : State) : (releaseOutput s).sCnt = s.sCnt := rfl
@[simp] theorem releaseOutput_inMem (s : State) : (releaseOutput s).inMem = s.inMem := rfl
@[simp] theorem releaseOutput_blkMem (s : State) : (releaseOutput s).blkMem = s.blkMem := rfl
@[simp] theorem releaseOutput_outMem (s : State) : (releaseOutput s).outMem = s.outMem := rfl
@[simp] theorem releaseOutput_strMem (s : State) : (releaseOutput s).strMem = s.strMem := rfl
@[simp] theorem releaseOutput_pkKind (s : State) : (releaseOutput s).pkKind = s.pkKind := rfl
@[simp] theorem releaseOutput_pkLen (s : State) : (releaseOutput s).pkLen = s.pkLen := rfl
@[simp] theorem releaseOutput_upCtrl (s : State) : (releaseOutput s).upCtrl = s.upCtrl := rfl
@[simp] theorem releaseOutput_host (s : State) : (releaseOutput s).host = s.host := rfl
@[simp] theorem releaseOutput_lastRead (s : State) : (releaseOutput s).lastRead = s.lastRead := rfl
@[simp] theorem releaseOutput_draws (s : State) : (releaseOutput s).draws = s.draws := rfl
@[simp] theorem releaseOutput_starting (s : State) : (releaseOutput s).starting = s.starting := rfl

/-! ### `forgetOut` -/

@[simp] theorem forgetOut_cfg (s : State) : (forgetOut s).cfg = s.cfg := rfl
@[simp] theorem forgetOut_cmd (s : State) : (forgetOut s).cmd = s.cmd := rfl
@[simp] theorem forgetOut_st (s : State) : (forgetOut s).st = s.st := rfl
@[simp] theorem forgetOut_err (s : State) : (forgetOut s).err = s.err := rfl
@[simp] theorem forgetOut_inPresent (s : State) : (forgetOut s).inPresent = s.inPresent := rfl
@[simp] theorem forgetOut_cdValid (s : State) : (forgetOut s).cdValid = s.cdValid := rfl
@[simp] theorem forgetOut_outValid (s : State) : (forgetOut s).outValid = s.outValid := rfl
@[simp] theorem forgetOut_strPresent (s : State) : (forgetOut s).strPresent = s.strPresent := rfl
@[simp] theorem forgetOut_strWritable (s : State) : (forgetOut s).strWritable = s.strWritable := rfl
@[simp] theorem forgetOut_n (s : State) : (forgetOut s).n = s.n := rfl
@[simp] theorem forgetOut_nblk (s : State) : (forgetOut s).nblk = s.nblk := rfl
@[simp] theorem forgetOut_outLen (s : State) : (forgetOut s).outLen = s.outLen := rfl
@[simp] theorem forgetOut_size (s : State) : (forgetOut s).size = s.size := rfl
@[simp] theorem forgetOut_strLen (s : State) : (forgetOut s).strLen = s.strLen := rfl
@[simp] theorem forgetOut_phase (s : State) : (forgetOut s).phase = s.phase := rfl
@[simp] theorem forgetOut_eI (s : State) : (forgetOut s).eI = s.eI := rfl
@[simp] theorem forgetOut_eM (s : State) : (forgetOut s).eM = s.eM := rfl
@[simp] theorem forgetOut_eR (s : State) : (forgetOut s).eR = s.eR := rfl
@[simp] theorem forgetOut_eFirst (s : State) : (forgetOut s).eFirst = s.eFirst := rfl
@[simp] theorem forgetOut_dB (s : State) : (forgetOut s).dB = s.dB := rfl
@[simp] theorem forgetOut_dK (s : State) : (forgetOut s).dK = s.dK := rfl
@[simp] theorem forgetOut_dO (s : State) : (forgetOut s).dO = s.dO := rfl
@[simp] theorem forgetOut_dTotal (s : State) : (forgetOut s).dTotal = s.dTotal := rfl
@[simp] theorem forgetOut_sB (s : State) : (forgetOut s).sB = s.sB := rfl
@[simp] theorem forgetOut_sP (s : State) : (forgetOut s).sP = s.sP := rfl
@[simp] theorem forgetOut_sCnt (s : State) : (forgetOut s).sCnt = s.sCnt := rfl
@[simp] theorem forgetOut_inMem (s : State) : (forgetOut s).inMem = s.inMem := rfl
@[simp] theorem forgetOut_blkMem (s : State) : (forgetOut s).blkMem = s.blkMem := rfl
@[simp] theorem forgetOut_outMem (s : State) : (forgetOut s).outMem = s.outMem.forget := rfl
@[simp] theorem forgetOut_strMem (s : State) : (forgetOut s).strMem = s.strMem := rfl
@[simp] theorem forgetOut_pkKind (s : State) : (forgetOut s).pkKind = s.pkKind := rfl
@[simp] theorem forgetOut_pkLen (s : State) : (forgetOut s).pkLen = s.pkLen := rfl
@[simp] theorem forgetOut_upCtrl (s : State) : (forgetOut s).upCtrl = s.upCtrl := rfl
@[simp] theorem forgetOut_host (s : State) : (forgetOut s).host = s.host := rfl
@[simp] theorem forgetOut_lastRead (s : State) : (forgetOut s).lastRead = s.lastRead := rfl
@[simp] theorem forgetOut_draws (s : State) : (forgetOut s).draws = s.draws := rfl
@[simp] theorem forgetOut_starting (s : State) : (forgetOut s).starting = s.starting := rfl

/-! ### `forgetStr` -/

@[simp] theorem forgetStr_cfg (s : State) : (forgetStr s).cfg = s.cfg := rfl
@[simp] theorem forgetStr_cmd (s : State) : (forgetStr s).cmd = s.cmd := rfl
@[simp] theorem forgetStr_st (s : State) : (forgetStr s).st = s.st := rfl
@[simp] theorem forgetStr_err (s : State) : (forgetStr s).err = s.err := rfl
@[simp] theorem forgetStr_inPresent (s : State) : (forgetStr s).inPresent = s.inPresent := rfl
@[simp] theorem forgetStr_cdValid (s : State) : (forgetStr s).cdValid = s.cdValid := rfl
@[simp] theorem forgetStr_outValid (s : State) : (forgetStr s).outValid = s.outValid := rfl
@[simp] theorem forgetStr_strPresent (s : State) : (forgetStr s).strPresent = s.strPresent := rfl
@[simp] theorem forgetStr_strWritable (s : State) : (forgetStr s).strWritable = s.strWritable := rfl
@[simp] theorem forgetStr_n (s : State) : (forgetStr s).n = s.n := rfl
@[simp] theorem forgetStr_nblk (s : State) : (forgetStr s).nblk = s.nblk := rfl
@[simp] theorem forgetStr_outLen (s : State) : (forgetStr s).outLen = s.outLen := rfl
@[simp] theorem forgetStr_size (s : State) : (forgetStr s).size = s.size := rfl
@[simp] theorem forgetStr_strLen (s : State) : (forgetStr s).strLen = s.strLen := rfl
@[simp] theorem forgetStr_phase (s : State) : (forgetStr s).phase = s.phase := rfl
@[simp] theorem forgetStr_eI (s : State) : (forgetStr s).eI = s.eI := rfl
@[simp] theorem forgetStr_eM (s : State) : (forgetStr s).eM = s.eM := rfl
@[simp] theorem forgetStr_eR (s : State) : (forgetStr s).eR = s.eR := rfl
@[simp] theorem forgetStr_eFirst (s : State) : (forgetStr s).eFirst = s.eFirst := rfl
@[simp] theorem forgetStr_dB (s : State) : (forgetStr s).dB = s.dB := rfl
@[simp] theorem forgetStr_dK (s : State) : (forgetStr s).dK = s.dK := rfl
@[simp] theorem forgetStr_dO (s : State) : (forgetStr s).dO = s.dO := rfl
@[simp] theorem forgetStr_dTotal (s : State) : (forgetStr s).dTotal = s.dTotal := rfl
@[simp] theorem forgetStr_sB (s : State) : (forgetStr s).sB = s.sB := rfl
@[simp] theorem forgetStr_sP (s : State) : (forgetStr s).sP = s.sP := rfl
@[simp] theorem forgetStr_sCnt (s : State) : (forgetStr s).sCnt = s.sCnt := rfl
@[simp] theorem forgetStr_inMem (s : State) : (forgetStr s).inMem = s.inMem := rfl
@[simp] theorem forgetStr_blkMem (s : State) : (forgetStr s).blkMem = s.blkMem := rfl
@[simp] theorem forgetStr_outMem (s : State) : (forgetStr s).outMem = s.outMem := rfl
@[simp] theorem forgetStr_strMem (s : State) : (forgetStr s).strMem = s.strMem.forget := rfl
@[simp] theorem forgetStr_pkKind (s : State) : (forgetStr s).pkKind = s.pkKind := rfl
@[simp] theorem forgetStr_pkLen (s : State) : (forgetStr s).pkLen = s.pkLen := rfl
@[simp] theorem forgetStr_upCtrl (s : State) : (forgetStr s).upCtrl = s.upCtrl := rfl
@[simp] theorem forgetStr_host (s : State) : (forgetStr s).host = s.host := rfl
@[simp] theorem forgetStr_lastRead (s : State) : (forgetStr s).lastRead = s.lastRead := rfl
@[simp] theorem forgetStr_draws (s : State) : (forgetStr s).draws = s.draws := rfl
@[simp] theorem forgetStr_starting (s : State) : (forgetStr s).starting = s.starting := rfl

/-! ### `setBusy` -/

@[simp] theorem setBusy_cfg (v : Byte) (s : State) : (setBusy v s).cfg = s.cfg := rfl
@[simp] theorem setBusy_cmd (v : Byte) (s : State) : (setBusy v s).cmd = v := rfl
@[simp] theorem setBusy_st (v : Byte) (s : State) : (setBusy v s).st = .busy := rfl
@[simp] theorem setBusy_err (v : Byte) (s : State) : (setBusy v s).err = .none := rfl
@[simp] theorem setBusy_inPresent (v : Byte) (s : State) : (setBusy v s).inPresent = s.inPresent := rfl
@[simp] theorem setBusy_cdValid (v : Byte) (s : State) : (setBusy v s).cdValid = s.cdValid := rfl
@[simp] theorem setBusy_outValid (v : Byte) (s : State) : (setBusy v s).outValid = s.outValid := rfl
@[simp] theorem setBusy_strPresent (v : Byte) (s : State) : (setBusy v s).strPresent = s.strPresent := rfl
@[simp] theorem setBusy_strWritable (v : Byte) (s : State) : (setBusy v s).strWritable = s.strWritable := rfl
@[simp] theorem setBusy_n (v : Byte) (s : State) : (setBusy v s).n = s.n := rfl
@[simp] theorem setBusy_nblk (v : Byte) (s : State) : (setBusy v s).nblk = s.nblk := rfl
@[simp] theorem setBusy_outLen (v : Byte) (s : State) : (setBusy v s).outLen = s.outLen := rfl
@[simp] theorem setBusy_size (v : Byte) (s : State) : (setBusy v s).size = s.size := rfl
@[simp] theorem setBusy_strLen (v : Byte) (s : State) : (setBusy v s).strLen = s.strLen := rfl
@[simp] theorem setBusy_phase (v : Byte) (s : State) : (setBusy v s).phase = s.phase := rfl
@[simp] theorem setBusy_eI (v : Byte) (s : State) : (setBusy v s).eI = s.eI := rfl
@[simp] theorem setBusy_eM (v : Byte) (s : State) : (setBusy v s).eM = s.eM := rfl
@[simp] theorem setBusy_eR (v : Byte) (s : State) : (setBusy v s).eR = s.eR := rfl
@[simp] theorem setBusy_eFirst (v : Byte) (s : State) : (setBusy v s).eFirst = s.eFirst := rfl
@[simp] theorem setBusy_dB (v : Byte) (s : State) : (setBusy v s).dB = s.dB := rfl
@[simp] theorem setBusy_dK (v : Byte) (s : State) : (setBusy v s).dK = s.dK := rfl
@[simp] theorem setBusy_dO (v : Byte) (s : State) : (setBusy v s).dO = s.dO := rfl
@[simp] theorem setBusy_dTotal (v : Byte) (s : State) : (setBusy v s).dTotal = s.dTotal := rfl
@[simp] theorem setBusy_sB (v : Byte) (s : State) : (setBusy v s).sB = s.sB := rfl
@[simp] theorem setBusy_sP (v : Byte) (s : State) : (setBusy v s).sP = s.sP := rfl
@[simp] theorem setBusy_sCnt (v : Byte) (s : State) : (setBusy v s).sCnt = s.sCnt := rfl
@[simp] theorem setBusy_inMem (v : Byte) (s : State) : (setBusy v s).inMem = s.inMem := rfl
@[simp] theorem setBusy_blkMem (v : Byte) (s : State) : (setBusy v s).blkMem = s.blkMem := rfl
@[simp] theorem setBusy_outMem (v : Byte) (s : State) : (setBusy v s).outMem = s.outMem := rfl
@[simp] theorem setBusy_strMem (v : Byte) (s : State) : (setBusy v s).strMem = s.strMem := rfl
@[simp] theorem setBusy_pkKind (v : Byte) (s : State) : (setBusy v s).pkKind = s.pkKind := rfl
@[simp] theorem setBusy_pkLen (v : Byte) (s : State) : (setBusy v s).pkLen = s.pkLen := rfl
@[simp] theorem setBusy_upCtrl (v : Byte) (s : State) : (setBusy v s).upCtrl = s.upCtrl := rfl
@[simp] theorem setBusy_host (v : Byte) (s : State) : (setBusy v s).host = s.host := rfl
@[simp] theorem setBusy_lastRead (v : Byte) (s : State) : (setBusy v s).lastRead = s.lastRead := rfl
@[simp] theorem setBusy_draws (v : Byte) (s : State) : (setBusy v s).draws = s.draws := rfl
@[simp] theorem setBusy_starting (v : Byte) (s : State) : (setBusy v s).starting = s.starting := rfl

/-! ### `finish` -/

@[simp] theorem finish_cfg (s : State) : (finish s).cfg = s.cfg := rfl
@[simp] theorem finish_cmd (s : State) : (finish s).cmd = s.cmd := rfl
@[simp] theorem finish_st (s : State) : (finish s).st = .done := rfl
@[simp] theorem finish_err (s : State) : (finish s).err = .none := rfl
@[simp] theorem finish_inPresent (s : State) : (finish s).inPresent = s.inPresent := rfl
@[simp] theorem finish_cdValid (s : State) : (finish s).cdValid = s.cdValid := rfl
@[simp] theorem finish_outValid (s : State) : (finish s).outValid = s.outValid := rfl
@[simp] theorem finish_strPresent (s : State) : (finish s).strPresent = s.strPresent := rfl
@[simp] theorem finish_strWritable (s : State) : (finish s).strWritable = s.strWritable := rfl
@[simp] theorem finish_n (s : State) : (finish s).n = s.n := rfl
@[simp] theorem finish_nblk (s : State) : (finish s).nblk = s.nblk := rfl
@[simp] theorem finish_outLen (s : State) : (finish s).outLen = s.outLen := rfl
@[simp] theorem finish_size (s : State) : (finish s).size = s.size := rfl
@[simp] theorem finish_strLen (s : State) : (finish s).strLen = s.strLen := rfl
@[simp] theorem finish_phase (s : State) : (finish s).phase = .idle := rfl
@[simp] theorem finish_eI (s : State) : (finish s).eI = s.eI := rfl
@[simp] theorem finish_eM (s : State) : (finish s).eM = s.eM := rfl
@[simp] theorem finish_eR (s : State) : (finish s).eR = s.eR := rfl
@[simp] theorem finish_eFirst (s : State) : (finish s).eFirst = s.eFirst := rfl
@[simp] theorem finish_dB (s : State) : (finish s).dB = s.dB := rfl
@[simp] theorem finish_dK (s : State) : (finish s).dK = s.dK := rfl
@[simp] theorem finish_dO (s : State) : (finish s).dO = s.dO := rfl
@[simp] theorem finish_dTotal (s : State) : (finish s).dTotal = s.dTotal := rfl
@[simp] theorem finish_sB (s : State) : (finish s).sB = s.sB := rfl
@[simp] theorem finish_sP (s : State) : (finish s).sP = s.sP := rfl
@[simp] theorem finish_sCnt (s : State) : (finish s).sCnt = s.sCnt := rfl
@[simp] theorem finish_inMem (s : State) : (finish s).inMem = s.inMem := rfl
@[simp] theorem finish_blkMem (s : State) : (finish s).blkMem = s.blkMem := rfl
@[simp] theorem finish_outMem (s : State) : (finish s).outMem = s.outMem := rfl
@[simp] theorem finish_strMem (s : State) : (finish s).strMem = s.strMem := rfl
@[simp] theorem finish_pkKind (s : State) : (finish s).pkKind = s.pkKind := rfl
@[simp] theorem finish_pkLen (s : State) : (finish s).pkLen = s.pkLen := rfl
@[simp] theorem finish_upCtrl (s : State) : (finish s).upCtrl = s.upCtrl := rfl
@[simp] theorem finish_host (s : State) : (finish s).host = s.host := rfl
@[simp] theorem finish_lastRead (s : State) : (finish s).lastRead = s.lastRead := rfl
@[simp] theorem finish_draws (s : State) : (finish s).draws = s.draws := rfl
@[simp] theorem finish_starting (s : State) : (finish s).starting = s.starting := rfl

/-! ### `setFail` -/

@[simp] theorem setFail_cfg (k : ErrKind) (s : State) : (setFail k s).cfg = s.cfg := rfl
@[simp] theorem setFail_cmd (k : ErrKind) (s : State) : (setFail k s).cmd = s.cmd := rfl
@[simp] theorem setFail_st (k : ErrKind) (s : State) : (setFail k s).st = .fail := rfl
@[simp] theorem setFail_err (k : ErrKind) (s : State) : (setFail k s).err = k := rfl
@[simp] theorem setFail_inPresent (k : ErrKind) (s : State) : (setFail k s).inPresent = s.inPresent := rfl
@[simp] theorem setFail_cdValid (k : ErrKind) (s : State) : (setFail k s).cdValid = s.cdValid := rfl
@[simp] theorem setFail_outValid (k : ErrKind) (s : State) : (setFail k s).outValid = s.outValid := rfl
@[simp] theorem setFail_strPresent (k : ErrKind) (s : State) : (setFail k s).strPresent = s.strPresent := rfl
@[simp] theorem setFail_strWritable (k : ErrKind) (s : State) : (setFail k s).strWritable = s.strWritable := rfl
@[simp] theorem setFail_n (k : ErrKind) (s : State) : (setFail k s).n = s.n := rfl
@[simp] theorem setFail_nblk (k : ErrKind) (s : State) : (setFail k s).nblk = s.nblk := rfl
@[simp] theorem setFail_outLen (k : ErrKind) (s : State) : (setFail k s).outLen = s.outLen := rfl
@[simp] theorem setFail_size (k : ErrKind) (s : State) : (setFail k s).size = s.size := rfl
@[simp] theorem setFail_strLen (k : ErrKind) (s : State) : (setFail k s).strLen = s.strLen := rfl
@[simp] theorem setFail_phase (k : ErrKind) (s : State) : (setFail k s).phase = .idle := rfl
@[simp] theorem setFail_eI (k : ErrKind) (s : State) : (setFail k s).eI = s.eI := rfl
@[simp] theorem setFail_eM (k : ErrKind) (s : State) : (setFail k s).eM = s.eM := rfl
@[simp] theorem setFail_eR (k : ErrKind) (s : State) : (setFail k s).eR = s.eR := rfl
@[simp] theorem setFail_eFirst (k : ErrKind) (s : State) : (setFail k s).eFirst = s.eFirst := rfl
@[simp] theorem setFail_dB (k : ErrKind) (s : State) : (setFail k s).dB = s.dB := rfl
@[simp] theorem setFail_dK (k : ErrKind) (s : State) : (setFail k s).dK = s.dK := rfl
@[simp] theorem setFail_dO (k : ErrKind) (s : State) : (setFail k s).dO = s.dO := rfl
@[simp] theorem setFail_dTotal (k : ErrKind) (s : State) : (setFail k s).dTotal = s.dTotal := rfl
@[simp] theorem setFail_sB (k : ErrKind) (s : State) : (setFail k s).sB = s.sB := rfl
@[simp] theorem setFail_sP (k : ErrKind) (s : State) : (setFail k s).sP = s.sP := rfl
@[simp] theorem setFail_sCnt (k : ErrKind) (s : State) : (setFail k s).sCnt = s.sCnt := rfl
@[simp] theorem setFail_inMem (k : ErrKind) (s : State) : (setFail k s).inMem = s.inMem := rfl
@[simp] theorem setFail_blkMem (k : ErrKind) (s : State) : (setFail k s).blkMem = s.blkMem := rfl
@[simp] theorem setFail_outMem (k : ErrKind) (s : State) : (setFail k s).outMem = s.outMem := rfl
@[simp] theorem setFail_strMem (k : ErrKind) (s : State) : (setFail k s).strMem = s.strMem := rfl
@[simp] theorem setFail_pkKind (k : ErrKind) (s : State) : (setFail k s).pkKind = s.pkKind := rfl
@[simp] theorem setFail_pkLen (k : ErrKind) (s : State) : (setFail k s).pkLen = s.pkLen := rfl
@[simp] theorem setFail_upCtrl (k : ErrKind) (s : State) : (setFail k s).upCtrl = s.upCtrl := rfl
@[simp] theorem setFail_host (k : ErrKind) (s : State) : (setFail k s).host = s.host := rfl
@[simp] theorem setFail_lastRead (k : ErrKind) (s : State) : (setFail k s).lastRead = s.lastRead := rfl
@[simp] theorem setFail_draws (k : ErrKind) (s : State) : (setFail k s).draws = s.draws := rfl
@[simp] theorem setFail_starting (k : ErrKind) (s : State) : (setFail k s).starting = s.starting := rfl

/-! ### `putByte` -/

@[simp] theorem putByte_cfg (v : Byte) (s : State) : (putByte v s).cfg = s.cfg := rfl
@[simp] theorem putByte_cmd (v : Byte) (s : State) : (putByte v s).cmd = s.cmd := rfl
@[simp] theorem putByte_st (v : Byte) (s : State) : (putByte v s).st = s.st := rfl
@[simp] theorem putByte_err (v : Byte) (s : State) : (putByte v s).err = s.err := rfl
@[simp] theorem putByte_inPresent (v : Byte) (s : State) : (putByte v s).inPresent = s.inPresent := rfl
@[simp] theorem putByte_cdValid (v : Byte) (s : State) : (putByte v s).cdValid = s.cdValid := rfl
@[simp] theorem putByte_outValid (v : Byte) (s : State) : (putByte v s).outValid = s.outValid := rfl
@[simp] theorem putByte_strPresent (v : Byte) (s : State) : (putByte v s).strPresent = s.strPresent := rfl
@[simp] theorem putByte_strWritable (v : Byte) (s : State) : (putByte v s).strWritable = s.strWritable := rfl
@[simp] theorem putByte_n (v : Byte) (s : State) : (putByte v s).n = s.n := rfl
@[simp] theorem putByte_nblk (v : Byte) (s : State) : (putByte v s).nblk = s.nblk := rfl
@[simp] theorem putByte_outLen (v : Byte) (s : State) : (putByte v s).outLen = s.outLen := rfl
@[simp] theorem putByte_size (v : Byte) (s : State) : (putByte v s).size = s.size := rfl
@[simp] theorem putByte_strLen (v : Byte) (s : State) : (putByte v s).strLen = s.strLen := rfl
@[simp] theorem putByte_phase (v : Byte) (s : State) : (putByte v s).phase = s.phase := rfl
@[simp] theorem putByte_eI (v : Byte) (s : State) : (putByte v s).eI = s.eI := rfl
@[simp] theorem putByte_eM (v : Byte) (s : State) : (putByte v s).eM = s.eM := rfl
@[simp] theorem putByte_eR (v : Byte) (s : State) : (putByte v s).eR = s.eR := rfl
@[simp] theorem putByte_eFirst (v : Byte) (s : State) : (putByte v s).eFirst = s.eFirst := rfl
@[simp] theorem putByte_dB (v : Byte) (s : State) : (putByte v s).dB = s.dB := rfl
@[simp] theorem putByte_dK (v : Byte) (s : State) : (putByte v s).dK = s.dK := rfl
@[simp] theorem putByte_dO (v : Byte) (s : State) : (putByte v s).dO = s.dO + 1 := rfl
@[simp] theorem putByte_dTotal (v : Byte) (s : State) : (putByte v s).dTotal = s.dTotal := rfl
@[simp] theorem putByte_sB (v : Byte) (s : State) : (putByte v s).sB = s.sB := rfl
@[simp] theorem putByte_sP (v : Byte) (s : State) : (putByte v s).sP = s.sP := rfl
@[simp] theorem putByte_sCnt (v : Byte) (s : State) : (putByte v s).sCnt = s.sCnt := rfl
@[simp] theorem putByte_inMem (v : Byte) (s : State) : (putByte v s).inMem = s.inMem := rfl
@[simp] theorem putByte_blkMem (v : Byte) (s : State) : (putByte v s).blkMem = s.blkMem := rfl
@[simp] theorem putByte_outMem (v : Byte) (s : State) : (putByte v s).outMem = s.outMem.write .out s.dO v := rfl
@[simp] theorem putByte_strMem (v : Byte) (s : State) : (putByte v s).strMem = s.strMem := rfl
@[simp] theorem putByte_pkKind (v : Byte) (s : State) : (putByte v s).pkKind = s.pkKind := rfl
@[simp] theorem putByte_pkLen (v : Byte) (s : State) : (putByte v s).pkLen = s.pkLen := rfl
@[simp] theorem putByte_upCtrl (v : Byte) (s : State) : (putByte v s).upCtrl = s.upCtrl := rfl
@[simp] theorem putByte_host (v : Byte) (s : State) : (putByte v s).host = s.host := rfl
@[simp] theorem putByte_lastRead (v : Byte) (s : State) : (putByte v s).lastRead = s.lastRead := rfl
@[simp] theorem putByte_draws (v : Byte) (s : State) : (putByte v s).draws = s.draws := rfl
@[simp] theorem putByte_starting (v : Byte) (s : State) : (putByte v s).starting = s.starting := rfl

/-! ### `storeEntry` -/

@[simp] theorem storeEntry_cfg (b : Nat) (c : Byte) (p : List Byte) (s : State) : (storeEntry b c p s).cfg = s.cfg := rfl
@[simp] theorem storeEntry_cmd (b : Nat) (c : Byte) (p : List Byte) (s : State) : (storeEntry b c p s).cmd = s.cmd := rfl
@[simp] theorem storeEntry_st (b : Nat) (c : Byte) (p : List Byte) (s : State) : (storeEntry b c p s).st = s.st := rfl
@[simp] theorem storeEntry_err (b : Nat) (c : Byte) (p : List Byte) (s : State) : (storeEntry b c p s).err = s.err := rfl
@[simp] theorem storeEntry_inPresent (b : Nat) (c : Byte) (p : List Byte) (s : State) : (storeEntry b c p s).inPresent = s.inPresent := rfl
@[simp] theorem storeEntry_cdValid (b : Nat) (c : Byte) (p : List Byte) (s : State) : (storeEntry b c p s).cdValid = s.cdValid := rfl
@[simp] theorem storeEntry_outValid (b : Nat) (c : Byte) (p : List Byte) (s : State) : (storeEntry b c p s).outValid = s.outValid := rfl
@[simp] theorem storeEntry_strPresent (b : Nat) (c : Byte) (p : List Byte) (s : State) : (storeEntry b c p s).strPresent = s.strPresent := rfl
@[simp] theorem storeEntry_strWritable (b : Nat) (c : Byte) (p : List Byte) (s : State) : (storeEntry b c p s).strWritable = s.strWritable := rfl
@[simp] theorem storeEntry_n (b : Nat) (c : Byte) (p : List Byte) (s : State) : (storeEntry b c p s).n = s.n := rfl
@[simp] theorem storeEntry_nblk (b : Nat) (c : Byte) (p : List Byte) (s : State) : (storeEntry b c p s).nblk = s.nblk := rfl
@[simp] theorem storeEntry_outLen (b : Nat) (c : Byte) (p : List Byte) (s : State) : (storeEntry b c p s).outLen = s.outLen := rfl
@[simp] theorem storeEntry_size (b : Nat) (c : Byte) (p : List Byte) (s : State) : (storeEntry b c p s).size = s.size := rfl
@[simp] theorem storeEntry_strLen (b : Nat) (c : Byte) (p : List Byte) (s : State) : (storeEntry b c p s).strLen = s.strLen := rfl
@[simp] theorem storeEntry_phase (b : Nat) (c : Byte) (p : List Byte) (s : State) : (storeEntry b c p s).phase = s.phase := rfl
@[simp] theorem storeEntry_eI (b : Nat) (c : Byte) (p : List Byte) (s : State) : (storeEntry b c p s).eI = s.eI := rfl
@[simp] theorem storeEntry_eM (b : Nat) (c : Byte) (p : List Byte) (s : State) : (storeEntry b c p s).eM = s.eM := rfl
@[simp] theorem storeEntry_eR (b : Nat) (c : Byte) (p : List Byte) (s : State) : (storeEntry b c p s).eR = s.eR := rfl
@[simp] theorem storeEntry_eFirst (b : Nat) (c : Byte) (p : List Byte) (s : State) : (storeEntry b c p s).eFirst = s.eFirst := rfl
@[simp] theorem storeEntry_dB (b : Nat) (c : Byte) (p : List Byte) (s : State) : (storeEntry b c p s).dB = s.dB := rfl
@[simp] theorem storeEntry_dK (b : Nat) (c : Byte) (p : List Byte) (s : State) : (storeEntry b c p s).dK = s.dK := rfl
@[simp] theorem storeEntry_dO (b : Nat) (c : Byte) (p : List Byte) (s : State) : (storeEntry b c p s).dO = s.dO := rfl
@[simp] theorem storeEntry_dTotal (b : Nat) (c : Byte) (p : List Byte) (s : State) : (storeEntry b c p s).dTotal = s.dTotal := rfl
@[simp] theorem storeEntry_sB (b : Nat) (c : Byte) (p : List Byte) (s : State) : (storeEntry b c p s).sB = s.sB := rfl
@[simp] theorem storeEntry_sP (b : Nat) (c : Byte) (p : List Byte) (s : State) : (storeEntry b c p s).sP = s.sP := rfl
@[simp] theorem storeEntry_sCnt (b : Nat) (c : Byte) (p : List Byte) (s : State) : (storeEntry b c p s).sCnt = s.sCnt := rfl
@[simp] theorem storeEntry_inMem (b : Nat) (c : Byte) (p : List Byte) (s : State) : (storeEntry b c p s).inMem = s.inMem := rfl
@[simp] theorem storeEntry_outMem (b : Nat) (c : Byte) (p : List Byte) (s : State) : (storeEntry b c p s).outMem = s.outMem := rfl
@[simp] theorem storeEntry_strMem (b : Nat) (c : Byte) (p : List Byte) (s : State) : (storeEntry b c p s).strMem = s.strMem := rfl
@[simp] theorem storeEntry_pkKind (b : Nat) (c : Byte) (p : List Byte) (s : State) : (storeEntry b c p s).pkKind = s.pkKind := rfl
@[simp] theorem storeEntry_pkLen (b : Nat) (c : Byte) (p : List Byte) (s : State) : (storeEntry b c p s).pkLen = s.pkLen := rfl
@[simp] theorem storeEntry_upCtrl (b : Nat) (c : Byte) (p : List Byte) (s : State) : (storeEntry b c p s).upCtrl = s.upCtrl := rfl
@[simp] theorem storeEntry_host (b : Nat) (c : Byte) (p : List Byte) (s : State) : (storeEntry b c p s).host = s.host := rfl
@[simp] theorem storeEntry_lastRead (b : Nat) (c : Byte) (p : List Byte) (s : State) : (storeEntry b c p s).lastRead = s.lastRead := rfl
@[simp] theorem storeEntry_draws (b : Nat) (c : Byte) (p : List Byte) (s : State) : (storeEntry b c p s).draws = s.draws := rfl
@[simp] theorem storeEntry_starting (b : Nat) (c : Byte) (p : List Byte) (s : State) : (storeEntry b c p s).starting = s.starting := rfl

/-! ### `cleanUp` and `raise` -/

@[simp] theorem cleanUp_cfg (s : State) : (cleanUp s).cfg = s.cfg := by unfold cleanUp; split_ifs <;> rfl
@[simp] theorem cleanUp_cmd (s : State) : (cleanUp s).cmd = s.cmd := by unfold cleanUp; split_ifs <;> rfl
@[simp] theorem cleanUp_st (s : State) : (cleanUp s).st = s.st := by unfold cleanUp; split_ifs <;> rfl
@[simp] theorem cleanUp_err (s : State) : (cleanUp s).err = s.err := by unfold cleanUp; split_ifs <;> rfl
@[simp] theorem cleanUp_inPresent (s : State) : (cleanUp s).inPresent = s.inPresent := by unfold cleanUp; split_ifs <;> rfl
@[simp] theorem cleanUp_strPresent (s : State) : (cleanUp s).strPresent = s.strPresent := by unfold cleanUp; split_ifs <;> rfl
@[simp] theorem cleanUp_strWritable (s : State) : (cleanUp s).strWritable = s.strWritable := by unfold cleanUp; split_ifs <;> rfl
@[simp] theorem cleanUp_n (s : State) : (cleanUp s).n = s.n := by unfold cleanUp; split_ifs <;> rfl
@[simp] theorem cleanUp_strLen (s : State) : (cleanUp s).strLen = s.strLen := by unfold cleanUp; split_ifs <;> rfl
@[simp] theorem cleanUp_phase (s : State) : (cleanUp s).phase = s.phase := by unfold cleanUp; split_ifs <;> rfl
@[simp] theorem cleanUp_eI (s : State) : (cleanUp s).eI = s.eI := by unfold cleanUp; split_ifs <;> rfl
@[simp] theorem cleanUp_eM (s : State) : (cleanUp s).eM = s.eM := by unfold cleanUp; split_ifs <;> rfl
@[simp] theorem cleanUp_eR (s : State) : (cleanUp s).eR = s.eR := by unfold cleanUp; split_ifs <;> rfl
@[simp] theorem cleanUp_eFirst (s : State) : (cleanUp s).eFirst = s.eFirst := by unfold cleanUp; split_ifs <;> rfl
@[simp] theorem cleanUp_dB (s : State) : (cleanUp s).dB = s.dB := by unfold cleanUp; split_ifs <;> rfl
@[simp] theorem cleanUp_dK (s : State) : (cleanUp s).dK = s.dK := by unfold cleanUp; split_ifs <;> rfl
@[simp] theorem cleanUp_dO (s : State) : (cleanUp s).dO = s.dO := by unfold cleanUp; split_ifs <;> rfl
@[simp] theorem cleanUp_dTotal (s : State) : (cleanUp s).dTotal = s.dTotal := by unfold cleanUp; split_ifs <;> rfl
@[simp] theorem cleanUp_sB (s : State) : (cleanUp s).sB = s.sB := by unfold cleanUp; split_ifs <;> rfl
@[simp] theorem cleanUp_sP (s : State) : (cleanUp s).sP = s.sP := by unfold cleanUp; split_ifs <;> rfl
@[simp] theorem cleanUp_sCnt (s : State) : (cleanUp s).sCnt = s.sCnt := by unfold cleanUp; split_ifs <;> rfl
@[simp] theorem cleanUp_inMem (s : State) : (cleanUp s).inMem = s.inMem := by unfold cleanUp; split_ifs <;> rfl
@[simp] theorem cleanUp_strMem (s : State) : (cleanUp s).strMem = s.strMem := by unfold cleanUp; split_ifs <;> rfl
@[simp] theorem cleanUp_pkKind (s : State) : (cleanUp s).pkKind = s.pkKind := by unfold cleanUp; split_ifs <;> rfl
@[simp] theorem cleanUp_pkLen (s : State) : (cleanUp s).pkLen = s.pkLen := by unfold cleanUp; split_ifs <;> rfl
@[simp] theorem cleanUp_upCtrl (s : State) : (cleanUp s).upCtrl = s.upCtrl := by unfold cleanUp; split_ifs <;> rfl
@[simp] theorem cleanUp_host (s : State) : (cleanUp s).host = s.host := by unfold cleanUp; split_ifs <;> rfl
@[simp] theorem cleanUp_lastRead (s : State) : (cleanUp s).lastRead = s.lastRead := by unfold cleanUp; split_ifs <;> rfl
@[simp] theorem cleanUp_draws (s : State) : (cleanUp s).draws = s.draws := by unfold cleanUp; split_ifs <;> rfl
@[simp] theorem cleanUp_starting (s : State) : (cleanUp s).starting = s.starting := by unfold cleanUp; split_ifs <;> rfl

@[simp] theorem raise_cfg (k : ErrKind) (s : State) : (raise k s).cfg = s.cfg := by simp [raise]
@[simp] theorem raise_cmd (k : ErrKind) (s : State) : (raise k s).cmd = s.cmd := by simp [raise]
@[simp] theorem raise_st (k : ErrKind) (s : State) : (raise k s).st = .fail := rfl
@[simp] theorem raise_err (k : ErrKind) (s : State) : (raise k s).err = k := rfl
@[simp] theorem raise_inPresent (k : ErrKind) (s : State) : (raise k s).inPresent = s.inPresent := by simp [raise]
@[simp] theorem raise_strPresent (k : ErrKind) (s : State) : (raise k s).strPresent = s.strPresent := by simp [raise]
@[simp] theorem raise_strWritable (k : ErrKind) (s : State) : (raise k s).strWritable = s.strWritable := by simp [raise]
@[simp] theorem raise_n (k : ErrKind) (s : State) : (raise k s).n = s.n := by simp [raise]
@[simp] theorem raise_strLen (k : ErrKind) (s : State) : (raise k s).strLen = s.strLen := by simp [raise]
@[simp] theorem raise_phase (k : ErrKind) (s : State) : (raise k s).phase = .idle := rfl
@[simp] theorem raise_eI (k : ErrKind) (s : State) : (raise k s).eI = s.eI := by simp [raise]
@[simp] theorem raise_eM (k : ErrKind) (s : State) : (raise k s).eM = s.eM := by simp [raise]
@[simp] theorem raise_eR (k : ErrKind) (s : State) : (raise k s).eR = s.eR := by simp [raise]
@[simp] theorem raise_eFirst (k : ErrKind) (s : State) : (raise k s).eFirst = s.eFirst := by simp [raise]
@[simp] theorem raise_dB (k : ErrKind) (s : State) : (raise k s).dB = s.dB := by simp [raise]
@[simp] theorem raise_dK (k : ErrKind) (s : State) : (raise k s).dK = s.dK := by simp [raise]
@[simp] theorem raise_dO (k : ErrKind) (s : State) : (raise k s).dO = s.dO := by simp [raise]
@[simp] theorem raise_dTotal (k : ErrKind) (s : State) : (raise k s).dTotal = s.dTotal := by simp [raise]
@[simp] theorem raise_sB (k : ErrKind) (s : State) : (raise k s).sB = s.sB := by simp [raise]
@[simp] theorem raise_sP (k : ErrKind) (s : State) : (raise k s).sP = s.sP := by simp [raise]
@[simp] theorem raise_sCnt (k : ErrKind) (s : State) : (raise k s).sCnt = s.sCnt := by simp [raise]
@[simp] theorem raise_inMem (k : ErrKind) (s : State) : (raise k s).inMem = s.inMem := by simp [raise]
@[simp] theorem raise_strMem (k : ErrKind) (s : State) : (raise k s).strMem = s.strMem := by simp [raise]
@[simp] theorem raise_pkKind (k : ErrKind) (s : State) : (raise k s).pkKind = s.pkKind := by simp [raise]
@[simp] theorem raise_pkLen (k : ErrKind) (s : State) : (raise k s).pkLen = s.pkLen := by simp [raise]
@[simp] theorem raise_upCtrl (k : ErrKind) (s : State) : (raise k s).upCtrl = s.upCtrl := by simp [raise]
@[simp] theorem raise_host (k : ErrKind) (s : State) : (raise k s).host = s.host := by simp [raise]
@[simp] theorem raise_lastRead (k : ErrKind) (s : State) : (raise k s).lastRead = s.lastRead := by simp [raise]
@[simp] theorem raise_draws (k : ErrKind) (s : State) : (raise k s).draws = s.draws := by simp [raise]
@[simp] theorem raise_starting (k : ErrKind) (s : State) : (raise k s).starting = s.starting := by simp [raise]

/-! ### `beginCommand` -/

@[simp] theorem beginCommand_cfg (v : Byte) (s : State) : (beginCommand v s).cfg = s.cfg := by unfold beginCommand; split_ifs <;> rfl
@[simp] theorem beginCommand_cmd (v : Byte) (s : State) : (beginCommand v s).cmd = v := by unfold beginCommand; split_ifs <;> rfl
@[simp] theorem beginCommand_st (v : Byte) (s : State) : (beginCommand v s).st = .busy := by unfold beginCommand; split_ifs <;> rfl
@[simp] theorem beginCommand_err (v : Byte) (s : State) : (beginCommand v s).err = .none := by unfold beginCommand; split_ifs <;> rfl
@[simp] theorem beginCommand_inPresent (v : Byte) (s : State) : (beginCommand v s).inPresent = s.inPresent := by unfold beginCommand; split_ifs <;> rfl
@[simp] theorem beginCommand_strPresent (v : Byte) (s : State) : (beginCommand v s).strPresent = s.strPresent := by unfold beginCommand; split_ifs <;> rfl
@[simp] theorem beginCommand_strWritable (v : Byte) (s : State) : (beginCommand v s).strWritable = s.strWritable := by unfold beginCommand; split_ifs <;> rfl
@[simp] theorem beginCommand_n (v : Byte) (s : State) : (beginCommand v s).n = s.n := by unfold beginCommand; split_ifs <;> rfl
@[simp] theorem beginCommand_size (v : Byte) (s : State) : (beginCommand v s).size = s.size := by unfold beginCommand; split_ifs <;> rfl
@[simp] theorem beginCommand_strLen (v : Byte) (s : State) : (beginCommand v s).strLen = s.strLen := by unfold beginCommand; split_ifs <;> rfl
@[simp] theorem beginCommand_phase (v : Byte) (s : State) : (beginCommand v s).phase = s.phase := by unfold beginCommand; split_ifs <;> rfl
@[simp] theorem beginCommand_eI (v : Byte) (s : State) : (beginCommand v s).eI = s.eI := by unfold beginCommand; split_ifs <;> rfl
@[simp] theorem beginCommand_eM (v : Byte) (s : State) : (beginCommand v s).eM = s.eM := by unfold beginCommand; split_ifs <;> rfl
@[simp] theorem beginCommand_eR (v : Byte) (s : State) : (beginCommand v s).eR = s.eR := by unfold beginCommand; split_ifs <;> rfl
@[simp] theorem beginCommand_eFirst (v : Byte) (s : State) : (beginCommand v s).eFirst = s.eFirst := by unfold beginCommand; split_ifs <;> rfl
@[simp] theorem beginCommand_dB (v : Byte) (s : State) : (beginCommand v s).dB = s.dB := by unfold beginCommand; split_ifs <;> rfl
@[simp] theorem beginCommand_dK (v : Byte) (s : State) : (beginCommand v s).dK = s.dK := by unfold beginCommand; split_ifs <;> rfl
@[simp] theorem beginCommand_dO (v : Byte) (s : State) : (beginCommand v s).dO = s.dO := by unfold beginCommand; split_ifs <;> rfl
@[simp] theorem beginCommand_dTotal (v : Byte) (s : State) : (beginCommand v s).dTotal = s.dTotal := by unfold beginCommand; split_ifs <;> rfl
@[simp] theorem beginCommand_sB (v : Byte) (s : State) : (beginCommand v s).sB = s.sB := by unfold beginCommand; split_ifs <;> rfl
@[simp] theorem beginCommand_sP (v : Byte) (s : State) : (beginCommand v s).sP = s.sP := by unfold beginCommand; split_ifs <;> rfl
@[simp] theorem beginCommand_sCnt (v : Byte) (s : State) : (beginCommand v s).sCnt = s.sCnt := by unfold beginCommand; split_ifs <;> rfl
@[simp] theorem beginCommand_inMem (v : Byte) (s : State) : (beginCommand v s).inMem = s.inMem := by unfold beginCommand; split_ifs <;> rfl
@[simp] theorem beginCommand_outMem (v : Byte) (s : State) : (beginCommand v s).outMem = s.outMem := by unfold beginCommand; split_ifs <;> rfl
@[simp] theorem beginCommand_strMem (v : Byte) (s : State) : (beginCommand v s).strMem = s.strMem := by unfold beginCommand; split_ifs <;> rfl
@[simp] theorem beginCommand_pkKind (v : Byte) (s : State) : (beginCommand v s).pkKind = s.pkKind := by unfold beginCommand; split_ifs <;> rfl
@[simp] theorem beginCommand_pkLen (v : Byte) (s : State) : (beginCommand v s).pkLen = s.pkLen := by unfold beginCommand; split_ifs <;> rfl
@[simp] theorem beginCommand_upCtrl (v : Byte) (s : State) : (beginCommand v s).upCtrl = s.upCtrl := by unfold beginCommand; split_ifs <;> rfl
@[simp] theorem beginCommand_host (v : Byte) (s : State) : (beginCommand v s).host = s.host := by unfold beginCommand; split_ifs <;> rfl
@[simp] theorem beginCommand_lastRead (v : Byte) (s : State) : (beginCommand v s).lastRead = s.lastRead := by unfold beginCommand; split_ifs <;> rfl
@[simp] theorem beginCommand_draws (v : Byte) (s : State) : (beginCommand v s).draws = s.draws := by unfold beginCommand; split_ifs <;> rfl
@[simp] theorem beginCommand_starting (v : Byte) (s : State) : (beginCommand v s).starting = s.starting := by unfold beginCommand; split_ifs <;> rfl

end Sys2Proof.Machine
end

