-- ==== Sys2Proof/Laws/Store.lean ====
section
/-! SUPPORT. The laws of the block store: what storing an entry changes and what it leaves alone, which entries a release
leaves, and how the stored sequence grows (10_state.md R41, R42; 41_encoder.md R145). -/

namespace Sys2Proof.Machine

/-- `COUNT_ORDER` has one legal value, in which the bytes stand lowest first (D4). -/
@[simp] theorem inOrder_eq (o : ByteOrder) (bs : List Byte) : inOrder o bs = bs := by cases o; rfl

/-! ### What an entry depends on -/

theorem entryPresent_congr {s t : State} (hc : t.cfg = s.cfg) (hm : t.blkMem = s.blkMem) (b : Nat) :
    entryPresent t b = entryPresent s b := by simp [entryPresent, hc, hm]

theorem entryCtrl_congr {s t : State} (hm : t.blkMem = s.blkMem) (b : Nat) : entryCtrl t b = entryCtrl s b := by
  simp [entryCtrl, hm]

theorem usable_congr {s t : State} (hc : t.cfg = s.cfg) (hm : t.blkMem = s.blkMem) (b : Nat) : usable t b = usable s b := by
  unfold usable entryPresent entryNeed entryCtrl entryPlen; rw [hc, hm]

theorem entryBlock_congr {s t : State} (hm : t.blkMem = s.blkMem) (b : Nat) : entryBlock t b = entryBlock s b := by
  simp [entryBlock, entryPayload, entryPay, entryNeed, entryCtrl, hm]

theorem blocksFrom_congr {s t : State} (hm : t.blkMem = s.blkMem) (b n : Nat) : blocksFrom t b n = blocksFrom s b n := by
  induction n generalizing b with
  | zero => rfl
  | succ n ih => simp only [blocksFrom, ih, entryBlock_congr hm]

theorem storedBlocks_congr {s t : State} (hm : t.blkMem = s.blkMem) (hn : t.nblk = s.nblk) :
    storedBlocks t = storedBlocks s := by simp only [storedBlocks, hn, blocksFrom_congr hm]

theorem allUsable_congr {s t : State} (hc : t.cfg = s.cfg) (hm : t.blkMem = s.blkMem) (b n : Nat) :
    allUsable t b n = allUsable s b n := by
  induction n generalizing b with
  | zero => rfl
  | succ n ih => simp only [allUsable, ih, usable_congr hc hm]

theorem storeUsable_congr {s t : State} (hc : t.cfg = s.cfg) (hm : t.blkMem = s.blkMem) (hn : t.nblk = s.nblk) :
    storeUsable t = storeUsable s := by simp only [storeUsable, hn, allUsable_congr hc hm]

theorem entryWellFormed_congr {s t : State} (hc : t.cfg = s.cfg) (hm : t.blkMem = s.blkMem) (b : Nat) :
    entryWellFormed t b = entryWellFormed s b := by
  unfold entryWellFormed entryPresent entryNeed entryCtrl entryPlen; rw [hc, hm]

theorem allWellFormed_congr {s t : State} (hc : t.cfg = s.cfg) (hm : t.blkMem = s.blkMem) (b n : Nat) :
    allWellFormed t b n = allWellFormed s b n := by
  induction n generalizing b with
  | zero => rfl
  | succ n ih => simp only [allWellFormed, ih, entryWellFormed_congr hc hm]

/-! ### Runs of entries -/

theorem blocksFrom_succ_last (s : State) (b n : Nat) : blocksFrom s b (n + 1) = blocksFrom s b n ++ [entryBlock s (b + n)] := by
  induction n generalizing b with
  | zero => rfl
  | succ n ih =>
    rw [blocksFrom, ih (b + 1)]
    simp only [blocksFrom, List.cons_append]
    rw [show b + 1 + n = b + (n + 1) by omega]

theorem blocksFrom_add (s : State) (b k n : Nat) : blocksFrom s b (k + n) = blocksFrom s b k ++ blocksFrom s (b + k) n := by
  induction k generalizing b with
  | zero => simp [blocksFrom]
  | succ k ih =>
    rw [show k + 1 + n = (k + n) + 1 by omega, blocksFrom, ih, blocksFrom, show b + 1 + k = b + (k + 1) by omega]
    rfl

@[simp] theorem length_blocksFrom (s : State) (b n : Nat) : (blocksFrom s b n).length = n := by
  induction n generalizing b with
  | zero => rfl
  | succ n ih => simp [blocksFrom, ih]

theorem allUsable_iff {s : State} {b n : Nat} : allUsable s b n = true ↔ ∀ k < n, usable s (b + k) = true := by
  induction n generalizing b with
  | zero => simp [allUsable]
  | succ n ih =>
    simp only [allUsable, Bool.and_eq_true, ih]
    constructor
    · rintro ⟨h0, h1⟩ k hk
      cases k with
      | zero => exact h0
      | succ k => simpa [show b + 1 + k = b + (k + 1) by omega] using h1 k (by omega)
    · intro h
      exact ⟨by simpa using h 0 (by omega), fun k hk => by
        simpa [show b + 1 + k = b + (k + 1) by omega] using h (k + 1) (by omega)⟩

theorem allWellFormed_iff {s : State} {b n : Nat} :
    allWellFormed s b n = true ↔ ∀ k < n, entryWellFormed s (b + k) = true := by
  induction n generalizing b with
  | zero => simp [allWellFormed]
  | succ n ih =>
    simp only [allWellFormed, Bool.and_eq_true, ih]
    constructor
    · rintro ⟨h0, h1⟩ k hk
      cases k with
      | zero => exact h0
      | succ k => simpa [show b + 1 + k = b + (k + 1) by omega] using h1 k (by omega)
    · intro h
      exact ⟨by simpa using h 0 (by omega), fun k hk => by
        simpa [show b + 1 + k = b + (k + 1) by omega] using h (k + 1) (by omega)⟩

theorem allUsable_succ_last (s : State) (b n : Nat) :
    allUsable s b (n + 1) = true ↔ allUsable s b n = true ∧ usable s (b + n) = true := by
  simp only [allUsable_iff]
  constructor
  · exact fun h => ⟨fun k hk => h k (by omega), h n (by omega)⟩
  · rintro ⟨h1, h2⟩ k hk
    by_cases hkn : k = n
    · subst hkn; exact h2
    · exact h1 k (by omega)

/-- A well-formed entry is usable (R42). -/
theorem usable_of_wellFormed {s : State} {b : Nat} (h : entryWellFormed s b = true) : usable s b = true := by
  simp only [entryWellFormed, usable, Bool.and_eq_true, decide_eq_true_eq] at h ⊢
  exact ⟨h.1, by omega⟩

/-- A usable entry is inside the store (R76). -/
theorem lt_cap_of_usable {s : State} {b : Nat} (h : usable s b = true) : b < s.cfg.blkCap := by
  simp only [usable, entryPresent, Bool.and_eq_true, decide_eq_true_eq] at h
  exact h.1.1

theorem le_cap_of_allUsable {s : State} {n : Nat} (h : allUsable s 0 n = true) : n ≤ s.cfg.blkCap := by
  cases n with
  | zero => omega
  | succ n =>
    have := lt_cap_of_usable (allUsable_iff.1 h n (by omega))
    omega

/-! ### The block of an entry -/

@[simp] theorem entryBlock_kind (s : State) (b : Nat) : (entryBlock s b).kind = kindOf (entryCtrl s b) := by
  unfold entryBlock; split <;> simp_all [Block.kind]

@[simp] theorem entryBlock_len (s : State) (b : Nat) : (entryBlock s b).len = lenOf (entryCtrl s b) := by
  unfold entryBlock; split
  · next h => simp [Block.len, entryPayload, entryPay, entryNeed, need_lit h]
  · rfl

@[simp] theorem entryBlock_ctrl (s : State) (b : Nat) : (entryBlock s b).ctrl = entryCtrl s b := by
  rw [Block.ctrl, entryBlock_kind, entryBlock_len, packLen_unpack]

@[simp] theorem entryBlock_payload (s : State) (b : Nat) : (entryBlock s b).payload = entryPayload s b := by
  unfold entryBlock; split
  · rfl
  · next h => simp [Block.payload, entryPayload, entryPay, entryNeed, need_rep h, readBytes_succ]

theorem entryBlock_lengthOk (s : State) (b : Nat) : lengthOk (entryBlock s b).len = true := by
  rw [entryBlock_len]; exact lengthOk_lenOf _

theorem expand_length (k : Block) : k.expand.length = k.len := by cases k <;> simp [Block.expand, Block.len]

theorem decodeBlocks_append (ks ls : List Block) : decodeBlocks (ks ++ ls) = decodeBlocks ks ++ decodeBlocks ls := by
  induction ks with
  | nil => rfl
  | cons k ks ih => simp [decodeBlocks, ih]

theorem totalLen_append (ks ls : List Block) : totalLen (ks ++ ls) = totalLen ks + totalLen ls := by
  induction ks with
  | nil => simp [totalLen]
  | cons k ks ih => simp only [List.cons_append, totalLen, ih]; omega

theorem totalSize_append (ks ls : List Block) : totalSize (ks ++ ls) = totalSize ks + totalSize ls := by
  induction ks with
  | nil => simp [totalSize]
  | cons k ks ih => simp only [List.cons_append, totalSize, ih]; omega

theorem serializeBlocks_append (ks ls : List Block) :
    serializeBlocks (ks ++ ls) = serializeBlocks ks ++ serializeBlocks ls := by
  induction ks with
  | nil => rfl
  | cons k ks ih => simp [serializeBlocks, ih]

theorem length_decodeBlocks (ks : List Block) : (decodeBlocks ks).length = totalLen ks := by
  induction ks with
  | nil => rfl
  | cons k ks ih => simp [decodeBlocks, totalLen, ih, expand_length]

theorem totalLen_blocksFrom_le (s : State) (b n : Nat) : totalLen (blocksFrom s b n) ≤ 128 * n := by
  induction n generalizing b with
  | zero => simp [blocksFrom, totalLen]
  | succ n ih =>
    simp only [blocksFrom, totalLen, entryBlock_len]
    have := lenOf_le (entryCtrl s b)
    have := ih (b + 1)
    omega

theorem totalSize_blocksFrom_le (s : State) (b n : Nat) : totalSize (blocksFrom s b n) ≤ 129 * n := by
  induction n generalizing b with
  | zero => simp [blocksFrom, totalSize]
  | succ n ih =>
    simp only [blocksFrom, totalSize, entryBlock_ctrl, ssize]
    have := need_le (entryCtrl s b)
    have := ih (b + 1)
    omega

theorem length_serializeBlocks_blocksFrom (s : State) (b n : Nat) :
    (serializeBlocks (blocksFrom s b n)).length = totalSize (blocksFrom s b n) := by
  induction n generalizing b with
  | zero => rfl
  | succ n ih =>
    simp only [blocksFrom, serializeBlocks, totalSize, List.length_cons, List.length_append, ih, entryBlock_ctrl,
      entryBlock_payload, ssize, entryPayload, entryPay, entryNeed, length_readBytes]
    omega

/-! ### Storing an entry -/

/-- Storing an entry lists only that entry's addresses. -/
theorem read_storeEntry_outside {s : State} (h : s.blkMem.wf .blk) {b a : Nat} (c : Byte) {p : List Byte}
    (hp : p.length ≤ 128) (ha : a < entrySize * b ∨ entrySize * (b + 1) ≤ a) :
    (storeEntry b c p s).blkMem.read .blk a = s.blkMem.read .blk a := by
  simp only [entrySize] at ha
  have h1 := write_wf h (fieldAddr b .ctrl) c
  have h2 := write_wf h1 (fieldAddr b .plen) (BitVec.ofNat 8 p.length)
  have h3 := writeBytes_wf p h2 (entrySize * b + 3)
  simp only [storeEntry]
  rw [read_write_ne h3 (by simp only [fieldAddr, entrySize]; omega),
    read_writeBytes_outside p h2 _ _ (by simp only [entrySize]; omega),
    read_write_ne h1 (by simp only [fieldAddr, entrySize]; omega),
    read_write_ne h (by simp only [fieldAddr, entrySize]; omega)]

theorem storeEntry_wf {s : State} (h : s.blkMem.wf .blk) (b : Nat) (c : Byte) (p : List Byte) :
    (storeEntry b c p s).blkMem.wf .blk :=
  write_wf (writeBytes_wf p (write_wf (write_wf h _ _) _ _) _) _ _

theorem storeEntry_bound {s : State} {n : Nat} (h : ∀ x ∈ s.blkMem.cells, x.1 < entrySize * n) {b : Nat} (hb : b < n)
    (c : Byte) {p : List Byte} (hp : p.length ≤ 128) : ∀ x ∈ (storeEntry b c p s).blkMem.cells, x.1 < entrySize * n := by
  have hle : entrySize * (b + 1) ≤ entrySize * n := Nat.mul_le_mul_left _ hb
  simp only [entrySize] at hle h ⊢
  refine write_bound (writeBytes_bound p (write_bound (write_bound h ?_ _) ?_ _) ?_) ?_ _ <;>
    simp only [fieldAddr, entrySize] <;> omega

theorem entryCtrl_storeEntry {s : State} (h : s.blkMem.wf .blk) (b : Nat) (c : Byte) (p : List Byte) :
    entryCtrl (storeEntry b c p s) b = c := by
  have h1 := write_wf h (fieldAddr b .ctrl) c
  have h2 := write_wf h1 (fieldAddr b .plen) (BitVec.ofNat 8 p.length)
  have h3 := writeBytes_wf p h2 (entrySize * b + 3)
  simp only [entryCtrl, storeEntry]
  rw [read_write_ne h3 (by simp only [fieldAddr, entrySize]; omega),
    read_writeBytes_outside p h2 _ _ (by simp only [fieldAddr, entrySize]; omega),
    read_write_ne h1 (by simp only [fieldAddr, entrySize]; omega), read_write_same h]

theorem entryPlen_storeEntry {s : State} (h : s.blkMem.wf .blk) (b : Nat) (c : Byte) (p : List Byte) :
    entryPlen (storeEntry b c p s) b = BitVec.ofNat 8 p.length := by
  have h1 := write_wf h (fieldAddr b .ctrl) c
  have h2 := write_wf h1 (fieldAddr b .plen) (BitVec.ofNat 8 p.length)
  have h3 := writeBytes_wf p h2 (entrySize * b + 3)
  simp only [entryPlen, storeEntry]
  rw [read_write_ne h3 (by simp only [fieldAddr, entrySize]; omega),
    read_writeBytes_outside p h2 _ _ (by simp only [fieldAddr, entrySize]; omega), read_write_same h1]

theorem entryPay_storeEntry {s : State} (h : s.blkMem.wf .blk) (b : Nat) (c : Byte) (p : List Byte) :
    entryPay (storeEntry b c p s) b p.length = p := by
  have h1 := write_wf h (fieldAddr b .ctrl) c
  have h2 := write_wf h1 (fieldAddr b .plen) (BitVec.ofNat 8 p.length)
  have h3 := writeBytes_wf p h2 (entrySize * b + 3)
  simp only [entryPay, storeEntry]
  rw [readBytes_write_outside h3 (by simp only [fieldAddr, entrySize]; omega), readBytes_writeBytes h2]

theorem entryPresent_storeEntry {s : State} (h : s.blkMem.wf .blk) (b : Nat) (c : Byte) (p : List Byte) :
    entryPresent (storeEntry b c p s) b = decide (b < s.cfg.blkCap) := by
  have h3 := writeBytes_wf p (write_wf (write_wf h (fieldAddr b .ctrl) c) (fieldAddr b .plen) (BitVec.ofNat 8 p.length))
    (entrySize * b + 3)
  have hr : (storeEntry b c p s).blkMem.read .blk (fieldAddr b .present) = 1#8 := read_write_same h3 _ _
  unfold entryPresent
  rw [hr]
  exact Bool.and_true _

/-- The other entries keep every field. -/
theorem fields_storeEntry_ne {s : State} (h : s.blkMem.wf .blk) {b b' : Nat} (hb : b' ≠ b) (c : Byte) {p : List Byte}
    (hp : p.length ≤ 128) (f : EntryField) :
    (storeEntry b c p s).blkMem.read .blk (fieldAddr b' f) = s.blkMem.read .blk (fieldAddr b' f) := by
  refine read_storeEntry_outside h c hp ?_
  have := fieldAddr_bounds b' f
  simp only [entrySize] at this ⊢
  omega

theorem entryPay_storeEntry_ne {s : State} (h : s.blkMem.wf .blk) {b b' : Nat} (hb : b' ≠ b) (c : Byte) {p : List Byte}
    (hp : p.length ≤ 128) {n : Nat} (hn : n ≤ 128) : entryPay (storeEntry b c p s) b' n = entryPay s b' n := by
  refine readBytes_congr fun k hk => read_storeEntry_outside h c hp ?_
  simp only [entrySize]
  omega

theorem entryCtrl_storeEntry_ne {s : State} (h : s.blkMem.wf .blk) {b b' : Nat} (hb : b' ≠ b) (c : Byte) {p : List Byte}
    (hp : p.length ≤ 128) : entryCtrl (storeEntry b c p s) b' = entryCtrl s b' := fields_storeEntry_ne h hb c hp .ctrl

theorem entryPresent_storeEntry_ne {s : State} (h : s.blkMem.wf .blk) {b b' : Nat} (hb : b' ≠ b) (c : Byte) {p : List Byte}
    (hp : p.length ≤ 128) : entryPresent (storeEntry b c p s) b' = entryPresent s b' := by
  unfold entryPresent; rw [storeEntry_cfg, fields_storeEntry_ne h hb c hp]

theorem entryPlen_storeEntry_ne {s : State} (h : s.blkMem.wf .blk) {b b' : Nat} (hb : b' ≠ b) (c : Byte) {p : List Byte}
    (hp : p.length ≤ 128) : entryPlen (storeEntry b c p s) b' = entryPlen s b' := fields_storeEntry_ne h hb c hp .plen

theorem entryBlock_storeEntry_ne {s : State} (h : s.blkMem.wf .blk) {b b' : Nat} (hb : b' ≠ b) (c : Byte) {p : List Byte}
    (hp : p.length ≤ 128) : entryBlock (storeEntry b c p s) b' = entryBlock s b' := by
  have hr : (storeEntry b c p s).blkMem.read .blk (entrySize * b' + 3) = s.blkMem.read .blk (entrySize * b' + 3) :=
    read_storeEntry_outside h c hp (by simp only [entrySize]; omega)
  simp only [entryBlock, entryCtrl_storeEntry_ne h hb c hp, entryPayload, entryNeed, hr,
    entryPay_storeEntry_ne h hb c hp (need_le _)]

theorem entryWellFormed_storeEntry_ne {s : State} (h : s.blkMem.wf .blk) {b b' : Nat} (hb : b' ≠ b) (c : Byte)
    {p : List Byte} (hp : p.length ≤ 128) : entryWellFormed (storeEntry b c p s) b' = entryWellFormed s b' := by
  unfold entryWellFormed entryNeed
  rw [entryPresent_storeEntry_ne h hb c hp, entryPlen_storeEntry_ne h hb c hp, entryCtrl_storeEntry_ne h hb c hp]

/-- The entry stored for a block of a length in 1..128 is well-formed and holds that block (R145). -/
theorem entryBlock_storeEntry {s : State} (h : s.blkMem.wf .blk) (b : Nat) {k : Block} (hk : lengthOk k.len = true) :
    entryBlock (storeEntry b k.ctrl k.payload s) b = k := by
  cases k with
  | lit payload =>
    have hp := entryPay_storeEntry h b (Block.ctrl (.lit payload)) payload
    simp only [Block.len] at hk
    simp only [entryBlock, entryCtrl_storeEntry h, entryPayload, entryNeed, Block.ctrl, Block.kind, Block.len, Block.payload,
      kindOf_packLen _ hk, need_packLen_lit hk]
    exact congrArg _ hp
  | rep len v =>
    have hp := entryPay_storeEntry h b (Block.ctrl (.rep len v)) [v]
    simp only [Block.len] at hk
    simp only [entryPay, List.length_singleton, readBytes_succ, readBytes_zero, List.cons.injEq, and_true] at hp
    simp only [entryBlock, entryCtrl_storeEntry h, Block.ctrl, Block.kind, Block.len, Block.payload, kindOf_packLen _ hk,
      lenOf_packLen _ hk]
    exact congrArg _ hp

theorem payload_length_le {k : Block} (hk : lengthOk k.len = true) : k.payload.length ≤ 128 := by
  cases k with
  | lit payload => exact (lengthOk_iff.1 hk).2
  | rep len v => simp [Block.payload]

theorem need_ctrl {k : Block} (hk : lengthOk k.len = true) : need k.ctrl = k.payload.length := by
  cases k with
  | lit payload => exact need_packLen_lit hk
  | rep len v => exact need_packLen_rep hk

theorem entryWellFormed_storeEntry {s : State} (h : s.blkMem.wf .blk) {b : Nat} (hb : b < s.cfg.blkCap) {k : Block}
    (hk : lengthOk k.len = true) : entryWellFormed (storeEntry b k.ctrl k.payload s) b = true := by
  have := payload_length_le hk
  simp only [entryWellFormed, entryPresent_storeEntry h, entryPlen_storeEntry h, entryNeed, entryCtrl_storeEntry h,
    need_ctrl hk, hb, BitVec.toNat_ofNat, decide_true, Bool.true_and, decide_eq_true_eq]
  omega

/-- Storing block `k` as entry `n` appends it to the first `n` blocks (R145). -/
theorem blocksFrom_storeEntry {s : State} (h : s.blkMem.wf .blk) (n : Nat) {k : Block} (hk : lengthOk k.len = true) :
    blocksFrom (storeEntry n k.ctrl k.payload s) 0 (n + 1) = blocksFrom s 0 n ++ [k] := by
  have hp := payload_length_le hk
  have hrest : ∀ m b, b + m ≤ n → blocksFrom (storeEntry n k.ctrl k.payload s) b m = blocksFrom s b m := by
    intro m
    induction m with
    | zero => intro b _; rfl
    | succ m ih =>
      intro b hb
      simp only [blocksFrom]
      rw [ih (b + 1) (by omega), entryBlock_storeEntry_ne h (by omega) _ hp]
  rw [blocksFrom_succ_last, hrest n 0 (by omega), Nat.zero_add, entryBlock_storeEntry h n hk]

theorem allWellFormed_storeEntry {s : State} (h : s.blkMem.wf .blk) {n : Nat} (hn : n < s.cfg.blkCap) {k : Block}
    (hk : lengthOk k.len = true) (hw : allWellFormed s 0 n = true) :
    allWellFormed (storeEntry n k.ctrl k.payload s) 0 (n + 1) = true := by
  rw [allWellFormed_iff] at hw ⊢
  intro j hj
  by_cases hjn : j = n
  · subst hjn; rw [Nat.zero_add]; exact entryWellFormed_storeEntry h hn hk
  · rw [entryWellFormed_storeEntry_ne h (by omega) _ (payload_length_le hk)]
    exact hw j (by omega)

/-! ### Releasing -/

/-- After a release every entry is absent (R302, D12). -/
theorem entryPresent_forget {s : State} {m : Mem} (h : s.blkMem = m.forget) (b : Nat) : entryPresent s b = false := by
  simp [entryPresent, h, Mem.read, Mem.forget, lookup, unlisted, fieldAddr, entrySize]

theorem entryPresent_reset (c : Config) (b : Nat) : entryPresent (State.resetWith c) b = false := by
  simp [entryPresent, State.resetWith, emptyMem, Mem.read, lookup, unlisted, fieldAddr, entrySize]

/-- What a failed command that had released the store leaves of it (R291). -/
theorem raise_released {u : State} (h : u.cmd = 0x01#8 ∨ u.cmd = 0x05#8) (k : ErrKind) :
    (raise k u).cdValid = false ∧ (raise k u).nblk = 0#32 ∧ (raise k u).blkMem = u.blkMem.forget ∧
      ∀ b, entryPresent (raise k u) b = false := by
  have hr : raise k u = setFail k (releaseStore u) := by simp [raise, cleanUp, h]
  rw [hr]
  exact ⟨rfl, rfl, rfl, fun b => entryPresent_forget (m := u.blkMem) rfl b⟩

end Sys2Proof.Machine
end

