-- ==== Sys2Proof/Laws/Spans.lean ====
section
/-! SUPPORT. The two scan functions and the loop of the encoder as functions on byte sequences (41_encoder.md R142, R143):
bounds, what stops a span, and one iteration of the loop at a time. -/

namespace Sys2Proof.Machine

/-! ### The literal span -/

theorem litSpan_le_cap (cap : Nat) (bytes : List Byte) : litSpan cap bytes ≤ cap := by
  induction cap generalizing bytes with
  | zero => simp [litSpan]
  | succ cap ih =>
    match bytes with
    | [] => simp [litSpan]
    | [_] => simp [litSpan]
    | x :: y :: rest =>
      simp only [litSpan]
      split
      · have := ih (y :: rest); omega
      · omega

/-- The last byte is in no literal span. -/
theorem litSpan_lt_length (cap : Nat) {bytes : List Byte} (h : bytes ≠ []) : litSpan cap bytes < bytes.length := by
  induction cap generalizing bytes with
  | zero => simpa [litSpan] using List.length_pos_iff.2 h
  | succ cap ih =>
    match bytes, h with
    | [_], _ => simp [litSpan]
    | x :: y :: rest, _ =>
      simp only [litSpan]
      split
      · have := ih (bytes := y :: rest) (by simp); simp only [List.length_cons] at this ⊢; omega
      · simp

/-- Every byte of the literal span has a successor and differs from it. -/
theorem litSpan_differs (cap : Nat) (bytes : List Byte) {k : Nat} (h : k < litSpan cap bytes) :
    ∃ x y, bytes[k]? = some x ∧ bytes[k + 1]? = some y ∧ x ≠ y := by
  induction cap generalizing bytes k with
  | zero => simp [litSpan] at h
  | succ cap ih =>
    match bytes with
    | [] => simp [litSpan] at h
    | [_] => simp [litSpan] at h
    | x :: y :: rest =>
      simp only [litSpan] at h
      split at h
      · next hxy =>
        cases k with
        | zero => exact ⟨x, y, rfl, rfl, hxy⟩
        | succ k => exact ih (y :: rest) (by omega)
      · omega

/-- What ends a literal span below the cap: the last byte, or an equal pair. -/
theorem litSpan_stops (cap : Nat) {bytes : List Byte} (h : litSpan cap bytes < cap) {x y : Byte}
    (hx : bytes[litSpan cap bytes]? = some x) (hy : bytes[litSpan cap bytes + 1]? = some y) : x = y := by
  induction cap generalizing bytes with
  | zero => omega
  | succ cap ih =>
    match bytes with
    | [] => simp at hx
    | [_] => simp [litSpan] at hy
    | a :: b :: rest =>
      by_cases hab : a = b
      · have h0 : litSpan (cap + 1) (a :: b :: rest) = 0 := by simp [litSpan, hab]
        rw [h0] at hx hy
        simp only [List.getElem?_cons_zero, List.getElem?_cons_succ, Option.some.injEq] at hx hy
        rw [← hx, ← hy, hab]
      · have h1 : litSpan (cap + 1) (a :: b :: rest) = litSpan cap (b :: rest) + 1 := by simp [litSpan, hab]
        rw [h1] at h hx hy
        simp only [List.getElem?_cons_succ] at hx hy
        exact ih (by omega) hx hy

/-- A literal span is the number that stays within the cap, covers only bytes that differ from their successor, and stops
where the rule says. -/
theorem litSpan_unique {cap : Nat} {bytes : List Byte} {m : Nat} (hcap : m ≤ cap)
    (hd : ∀ k < m, ∃ x y, bytes[k]? = some x ∧ bytes[k + 1]? = some y ∧ x ≠ y)
    (hs : m < cap → ∀ x y, bytes[m]? = some x → bytes[m + 1]? = some y → x = y) : litSpan cap bytes = m := by
  by_contra hne
  rcases Nat.lt_or_gt_of_ne hne with hlt | hgt
  · obtain ⟨x, y, hx, hy, hxy⟩ := hd _ hlt
    exact hxy (litSpan_stops cap (by omega) hx hy)
  · obtain ⟨x, y, hx, hy, hxy⟩ := litSpan_differs cap bytes hgt
    exact hxy (hs (by have := litSpan_le_cap cap bytes; omega) x y hx hy)

/-! ### The repeat span -/

theorem repSpan_le_cap (cap : Nat) (x : Byte) (bytes : List Byte) : repSpan cap x bytes ≤ cap := by
  induction cap generalizing bytes with
  | zero => simp [repSpan]
  | succ cap ih =>
    match bytes with
    | [] => simp [repSpan]
    | y :: rest =>
      simp only [repSpan]
      split
      · have := ih rest; omega
      · omega

theorem repSpan_le_length (cap : Nat) (x : Byte) (bytes : List Byte) : repSpan cap x bytes ≤ bytes.length := by
  induction cap generalizing bytes with
  | zero => simp [repSpan]
  | succ cap ih =>
    match bytes with
    | [] => simp [repSpan]
    | y :: rest =>
      simp only [repSpan, List.length_cons]
      split
      · have := ih rest; omega
      · omega

theorem repSpan_pos (cap : Nat) (x : Byte) (rest : List Byte) : 1 ≤ repSpan (cap + 1) x (x :: rest) := by simp [repSpan]

/-- Every byte of the repeat span is the same byte. -/
theorem repSpan_same (cap : Nat) (x : Byte) (bytes : List Byte) {k : Nat} (h : k < repSpan cap x bytes) :
    bytes[k]? = some x := by
  induction cap generalizing bytes k with
  | zero => simp [repSpan] at h
  | succ cap ih =>
    match bytes with
    | [] => simp [repSpan] at h
    | y :: rest =>
      simp only [repSpan] at h
      split at h
      · next hxy =>
        cases k with
        | zero => simp [hxy]
        | succ k => simpa using ih rest (by omega)
      · omega

/-- What ends a repeat span below the cap: the end of the input, or another byte. -/
theorem repSpan_stops (cap : Nat) (x : Byte) (bytes : List Byte) (h : repSpan cap x bytes < cap) :
    bytes[repSpan cap x bytes]? ≠ some x := by
  induction cap generalizing bytes with
  | zero => omega
  | succ cap ih =>
    match bytes with
    | [] => simp
    | y :: rest =>
      by_cases hyx : y = x
      · have h1 : repSpan (cap + 1) x (y :: rest) = repSpan cap x rest + 1 := by simp [repSpan, hyx]
        rw [h1] at h ⊢
        simpa using ih rest (by omega)
      · have h0 : repSpan (cap + 1) x (y :: rest) = 0 := by simp [repSpan, hyx]
        rw [h0]
        simpa using hyx

theorem repSpan_unique {cap : Nat} {x : Byte} {bytes : List Byte} {r : Nat} (hcap : r ≤ cap)
    (hs : ∀ k < r, bytes[k]? = some x) (hstop : r < cap → bytes[r]? ≠ some x) : repSpan cap x bytes = r := by
  by_contra hne
  rcases Nat.lt_or_gt_of_ne hne with hlt | hgt
  · exact repSpan_stops cap x bytes (by omega) (hs _ hlt)
  · exact hstop (by have := repSpan_le_cap cap x bytes; omega) (repSpan_same cap x bytes hgt)

/-- A repeat span expands to the bytes it covers. -/
theorem replicate_repSpan (cap : Nat) (x : Byte) (bytes : List Byte) :
    List.replicate (repSpan cap x bytes) x = bytes.take (repSpan cap x bytes) := by
  refine List.ext_getElem? fun k => ?_
  by_cases hk : k < repSpan cap x bytes
  · simp [List.getElem?_take_of_lt hk, repSpan_same cap x bytes hk, hk]
  · simp [hk]

/-! ### The loop -/

/-- The block that one iteration emits on the nonempty bytes `x :: rest`. -/
def headBlock (litMax : Nat) (x : Byte) (rest : List Byte) : Block :=
  if 0 < litSpan litMax (x :: rest) then .lit ((x :: rest).take (litSpan litMax (x :: rest)))
  else .rep (repSpan Config.repMax x (x :: rest)) x

theorem headBlock_len_pos (litMax : Nat) (x : Byte) (rest : List Byte) : 1 ≤ (headBlock litMax x rest).len := by
  have := litSpan_lt_length litMax (bytes := x :: rest) (by simp)
  unfold headBlock
  split
  · simp only [Block.len, List.length_take]; omega
  · exact repSpan_pos 127 x rest

theorem headBlock_len_le (litMax : Nat) (x : Byte) (rest : List Byte) :
    (headBlock litMax x rest).len ≤ (x :: rest).length := by
  unfold headBlock
  split
  · simp only [Block.len, List.length_take]; omega
  · exact repSpan_le_length _ x _

theorem headBlock_lengthOk {litMax : Nat} (h : litMax ≤ 128) (x : Byte) (rest : List Byte) :
    lengthOk (headBlock litMax x rest).len = true := by
  refine lengthOk_iff.2 ⟨headBlock_len_pos litMax x rest, ?_⟩
  unfold headBlock
  split
  · have := litSpan_le_cap litMax (x :: rest)
    simp only [Block.len, List.length_take]; omega
  · exact repSpan_le_cap 128 x _

theorem headBlock_expand (litMax : Nat) (x : Byte) (rest : List Byte) :
    (headBlock litMax x rest).expand = (x :: rest).take (headBlock litMax x rest).len := by
  unfold headBlock
  split
  · have := litSpan_lt_length litMax (bytes := x :: rest) (by simp)
    simp only [Block.expand, Block.len, List.length_take]
    rw [Nat.min_eq_left (by omega)]
  · exact replicate_repSpan _ x _

theorem encodeFrom_cons (litMax fuel : Nat) (x : Byte) (rest : List Byte) :
    encodeFrom litMax (fuel + 1) (x :: rest) =
      headBlock litMax x rest :: encodeFrom litMax fuel ((x :: rest).drop (headBlock litMax x rest).len) := by
  have := litSpan_lt_length litMax (bytes := x :: rest) (by simp)
  simp only [encodeFrom, headBlock]
  split
  · simp only [Block.len, List.length_take]; rw [Nat.min_eq_left (by omega)]
  · rfl

@[simp] theorem encodeFrom_nil (litMax fuel : Nat) : encodeFrom litMax fuel [] = [] := by cases fuel <;> rfl

/-- Any fuel that is at least the number of bytes gives the same blocks. -/
theorem encodeFrom_fuel (litMax : Nat) {fuel : Nat} {bytes : List Byte} (h : bytes.length ≤ fuel) :
    encodeFrom litMax fuel bytes = encodeBytes litMax bytes := by
  rw [encodeBytes]
  generalize hn : bytes.length = n
  rw [hn] at h
  induction n using Nat.strongRecOn generalizing fuel bytes with
  | _ n ih =>
    match bytes with
    | [] => simp
    | x :: rest =>
      have hpos := headBlock_len_pos litMax x rest
      have hlen : ((x :: rest).drop (headBlock litMax x rest).len).length < n := by
        simp only [List.length_drop, List.length_cons] at hn ⊢; omega
      obtain ⟨f, rfl⟩ : ∃ f, fuel = f + 1 := ⟨fuel - 1, by simp only [List.length_cons] at hn; omega⟩
      obtain ⟨g, rfl⟩ : ∃ g, n = g + 1 := ⟨n - 1, by simp only [List.length_cons] at hn; omega⟩
      rw [encodeFrom_cons, encodeFrom_cons, ih _ hlen (fuel := f) (by omega) rfl, ih _ hlen (fuel := g) (by omega) rfl]

@[simp] theorem encodeBytes_nil (litMax : Nat) : encodeBytes litMax [] = [] := rfl

/-- One iteration of the loop of R143. -/
theorem encodeBytes_cons (litMax : Nat) (x : Byte) (rest : List Byte) :
    encodeBytes litMax (x :: rest) =
      headBlock litMax x rest :: encodeBytes litMax ((x :: rest).drop (headBlock litMax x rest).len) := by
  have hpos := headBlock_len_pos litMax x rest
  rw [encodeBytes, List.length_cons, encodeFrom_cons, encodeFrom_fuel]
  simp only [List.length_drop, List.length_cons]
  omega

/-- Induction along the loop of R143: the empty input, and one block before the rest. -/
theorem encodeBytes_induction {P : List Byte → Prop} (litMax : Nat) (nil : P [])
    (cons : ∀ x rest, P ((x :: rest).drop (headBlock litMax x rest).len) → P (x :: rest)) (bytes : List Byte) : P bytes := by
  generalize hn : bytes.length = n
  induction n using Nat.strongRecOn generalizing bytes with
  | _ n ih =>
    match bytes with
    | [] => exact nil
    | x :: rest =>
      have hpos := headBlock_len_pos litMax x rest
      refine cons x rest (ih _ ?_ _ rfl)
      simp only [List.length_drop, List.length_cons] at hn ⊢
      omega

end Sys2Proof.Machine
end

