-- ==== Sys2Proof/Laws/Encoder.lean ====
section
/-! SUPPORT. What one transition of the encoder can do (41_encoder.md R151 to R160): it goes on in one of the two scans with
their invariants, it ends with the normative block sequence in the store, or it fails for want of an entry. -/

namespace Sys2Proof.Machine

/-! ### Bytes of the input -/

theorem inBytes_congr {s t : State} (h : t.inMem = s.inMem) (a n : Nat) : inBytes t a n = inBytes s a n := by
  simp [inBytes, h]

theorem inByte_congr {s t : State} (h : t.inMem = s.inMem) (a : Nat) : inByte t a = inByte s a := by simp [inByte, h]

@[simp] theorem length_inBytes (s : State) (a n : Nat) : (inBytes s a n).length = n := by simp [inBytes]

theorem inBytes_getElem? {s : State} {a n k : Nat} (h : k < n) : (inBytes s a n)[k]? = some (inByte s (a + k)) := by
  rw [List.getElem?_eq_getElem (by simpa using h)]
  exact congrArg some (getElem_readBytes _ _ _ _ _ _)

theorem inBytes_getElem?_none {s : State} {a n k : Nat} (h : n ≤ k) : (inBytes s a n)[k]? = none :=
  List.getElem?_eq_none (by simpa using h)

theorem inBytes_add (s : State) (a k n : Nat) : inBytes s a (k + n) = inBytes s a k ++ inBytes s (a + k) n :=
  readBytes_add _ _ _ _ _

theorem drop_inBytes (s : State) {a n k : Nat} (h : k ≤ n) : (inBytes s a n).drop k = inBytes s (a + k) (n - k) :=
  drop_readBytes _ _ _ _ _ h

theorem take_inBytes (s : State) {a n k : Nat} (h : k ≤ n) : (inBytes s a n).take k = inBytes s a k :=
  take_readBytes _ _ _ _ _ h

theorem inBytes_succ (s : State) (a n : Nat) : inBytes s a (n + 1) = inByte s a :: inBytes s (a + 1) n := rfl

/-- The state without what COMPRESS writes. Two states with equal masks agree on everything else. -/
def maskCompress (s : State) : State :=
  { s with
    cmd := 0#8, st := .idle, err := .none, cdValid := false, nblk := 0#32, phase := .idle, eI := 0, eM := 0, eR := 0
    eFirst := 0#8, blkMem := emptyMem }

/-! ### Emitting a block -/

/-- What `emit` does on a block of a legal length: it fails exactly when the store is full, and else appends the block. -/
theorem emit_spec {s : State} (hwf : s.blkMem.wf .blk) (hlegal : s.cfg.Legal) {k : Block} (hk : lengthOk k.len = true)
    (hall : allWellFormed s 0 s.nblk.toNat = true) :
    (s.cfg.blkCap ≤ s.nblk.toNat ∧ emit k.kind k.len k.payload s = .error (raise .allocationFailure s)) ∨
      (s.nblk.toNat < s.cfg.blkCap ∧ ∃ m, emit k.kind k.len k.payload s = .ok { s with blkMem := m, nblk := s.nblk + 1#32 } ∧
        m.wf .blk ∧
        ((∀ c ∈ s.blkMem.cells, c.1 < entrySize * s.cfg.blkCap) → ∀ c ∈ m.cells, c.1 < entrySize * s.cfg.blkCap) ∧
        (s.nblk + 1#32).toNat = s.nblk.toNat + 1 ∧
        storedBlocks { s with blkMem := m, nblk := s.nblk + 1#32 } = storedBlocks s ++ [k] ∧
        allWellFormed { s with blkMem := m, nblk := s.nblk + 1#32 } 0 (s.nblk.toNat + 1) = true ∧
        ∀ b, s.nblk.toNat + 1 ≤ b → entryPresent { s with blkMem := m, nblk := s.nblk + 1#32 } b = entryPresent s b) := by
  by_cases hcap : s.cfg.blkCap ≤ s.nblk.toNat
  · exact .inl ⟨hcap, by simp [emit, hcap]⟩
  · have hlt : s.nblk.toNat < s.cfg.blkCap := by omega
    have hsucc : (s.nblk + 1#32).toNat = s.nblk.toNat + 1 := by
      have := hlegal.2.1.2
      rw [BitVec.toNat_add]
      simp only [BitVec.toNat_ofNat]
      omega
    refine .inr ⟨hlt, (storeEntry s.nblk.toNat k.ctrl k.payload s).blkMem, ?_, storeEntry_wf hwf _ _ _,
      fun hb => storeEntry_bound hb hlt _ (payload_length_le hk), hsucc, ?_, ?_, fun b hb => ?_⟩
    · simp only [emit, hcap, if_false]
      rfl
    · simp only [storedBlocks, hsucc]
      exact Eq.trans (blocksFrom_congr (s := storeEntry s.nblk.toNat k.ctrl k.payload s) (by rfl) _ _)
        (blocksFrom_storeEntry hwf s.nblk.toNat hk)
    · exact Eq.trans (allWellFormed_congr (s := storeEntry s.nblk.toNat k.ctrl k.payload s) (by rfl) (by rfl) _ _)
        (allWellFormed_storeEntry hwf hlt hk hall)
    · exact Eq.trans (entryPresent_congr (s := storeEntry s.nblk.toNat k.ctrl k.payload s) (by rfl) (by rfl) _)
        (entryPresent_storeEntry_ne hwf (by omega) _ (payload_length_le hk))

/-! ### The spans of the input, in machine terms -/

/-- When the guard of T1 is false in a literal scan, `E_M` is the literal span at `E_I` (R160). -/
theorem litSpan_of_scan {s : State} (h : LitScan s) (hg : litGoesOn s = false) :
    litSpan s.cfg.litMax (inBytes s s.eI (s.n.toNat - s.eI)) = s.eM := by
  have hin := h.inside
  refine litSpan_unique h.span (fun k hk => ?_) (fun hlt x y hx hy => ?_)
  · exact ⟨_, _, inBytes_getElem? (by omega), inBytes_getElem? (by omega), h.differ k hk⟩
  · have hm : s.eM + 1 < s.n.toNat - s.eI := by
      by_contra hcon
      rw [inBytes_getElem?_none (by omega)] at hy
      cases hy
    rw [inBytes_getElem? (by omega)] at hx hy
    simp only [litGoesOn, hlt, decide_true, Bool.true_and, show s.eI + s.eM + 1 < s.n.toNat by omega] at hg
    have : inByte s (s.eI + s.eM) = inByte s (s.eI + s.eM + 1) := by simpa using hg
    rw [← Option.some.inj hx, ← Option.some.inj hy, this]
    rfl

/-- When the guard of T4 is false in a repeat scan, `E_R` is the repeat span at `E_I` (R160). -/
theorem repSpan_of_scan {s : State} (h : RepScan s) (hg : repGoesOn s = false) :
    repSpan Config.repMax s.eFirst (inBytes s s.eI (s.n.toNat - s.eI)) = s.eR := by
  have hin := h.inside
  refine repSpan_unique h.span.2 (fun k hk => ?_) (fun hlt => ?_)
  · rw [inBytes_getElem? (by omega), h.same k hk]
  · by_cases hend : s.eI + s.eR < s.n.toNat
    · rw [inBytes_getElem? (by omega)]
      intro hcon
      have hc := Option.some.inj hcon
      simp [repGoesOn, hlt, hend, hc] at hg
    · rw [inBytes_getElem?_none (by omega)]
      simp

/-! ### The block that is emitted -/

/-- The bytes from `E_I` on, while the input is not used up. -/
theorem inBytes_rest {s : State} (h : s.eI < s.n.toNat) :
    inBytes s s.eI (s.n.toNat - s.eI) = inByte s s.eI :: inBytes s (s.eI + 1) (s.n.toNat - s.eI - 1) := by
  obtain ⟨d, hd⟩ : ∃ d, s.n.toNat - s.eI = d + 1 := ⟨s.n.toNat - s.eI - 1, by omega⟩
  rw [hd]; rfl

/-- A literal scan that cannot go on closes the block the normative loop emits (R152). -/
theorem headBlock_of_litScan {s : State} (h : LitScan s) (hg : litGoesOn s = false) (hm : 0 < s.eM) :
    headBlock s.cfg.litMax (inByte s s.eI) (inBytes s (s.eI + 1) (s.n.toNat - s.eI - 1)) = .lit (inBytes s s.eI s.eM) := by
  have hin := h.inside
  have hspan := litSpan_of_scan h hg
  rw [inBytes_rest (by omega)] at hspan
  rw [headBlock, hspan, if_pos hm, ← inBytes_rest (by omega), take_inBytes s (by omega)]

/-- A repeat scan that cannot go on closes the block the normative loop emits (R155). -/
theorem headBlock_of_repScan {s : State} (h : RepScan s) (hg : repGoesOn s = false) :
    headBlock s.cfg.litMax (inByte s s.eI) (inBytes s (s.eI + 1) (s.n.toNat - s.eI - 1)) = .rep s.eR s.eFirst := by
  have hin := h.inside
  have hpos := h.span.1
  have hspan := repSpan_of_scan h hg
  have hfirst : inByte s s.eI = s.eFirst := by simpa using h.same 0 (by omega)
  have hlit : litSpan s.cfg.litMax (inBytes s s.eI (s.n.toNat - s.eI)) = 0 := by
    refine litSpan_unique (Nat.zero_le _) (fun k hk => absurd hk (by omega)) (fun _ x y hx hy => ?_)
    by_cases h1 : 1 < s.n.toNat - s.eI
    · rw [inBytes_getElem? (by omega)] at hx hy
      rw [← Option.some.inj hx, ← Option.some.inj hy]
      exact h.opened (by omega)
    · rw [inBytes_getElem?_none (by omega)] at hy
      cases hy
  rw [inBytes_rest (by omega)] at hlit hspan
  rw [headBlock, hlit, if_neg (by omega), hfirst]
  rw [hfirst] at hspan
  rw [hspan]

/-- What is covered after a block that the normative loop emits (R147, R159 (b)). -/
theorem Covered.emitted {s t : State} (h : Covered s) (hlt : s.eI < s.n.toNat) {k : Block}
    (hk : headBlock s.cfg.litMax (inByte s s.eI) (inBytes s (s.eI + 1) (s.n.toNat - s.eI - 1)) = k)
    (hcap : s.nblk.toNat < s.cfg.blkCap) (hsucc : t.nblk.toNat = s.nblk.toNat + 1)
    (hstored : storedBlocks t = storedBlocks s ++ [k]) (hall : allWellFormed t 0 (s.nblk.toNat + 1) = true)
    (hrest : ∀ b, s.nblk.toNat + 1 ≤ b → entryPresent t b = entryPresent s b) (hmask : maskCompress t = maskCompress s) (hcmd : t.cmd = s.cmd) (hvalid : t.cdValid = s.cdValid)
    (hi : t.eI = s.eI + k.len) : Covered t ∧ s.eI + k.len ≤ s.n.toNat := by
  have hcfg : t.cfg = s.cfg := (congrArg State.cfg hmask :)
  have hn : t.n = s.n := (congrArg State.n hmask :)
  have hmem : t.inMem = s.inMem := (congrArg State.inMem hmask :)
  have hin : t.inPresent = s.inPresent := (congrArg State.inPresent hmask :)
  have hpos := headBlock_len_pos s.cfg.litMax (inByte s s.eI) (inBytes s (s.eI + 1) (s.n.toNat - s.eI - 1))
  have hle := headBlock_len_le s.cfg.litMax (inByte s s.eI) (inBytes s (s.eI + 1) (s.n.toNat - s.eI - 1))
  have hexp := headBlock_expand s.cfg.litMax (inByte s s.eI) (inBytes s (s.eI + 1) (s.n.toNat - s.eI - 1))
  have hag := h.agrees
  rw [inBytes_rest hlt, encodeBytes_cons, ← inBytes_rest hlt] at hag
  rw [hk] at hpos hle hexp hag
  rw [← inBytes_rest hlt] at hle hexp
  rw [length_inBytes] at hle
  refine ⟨⟨⟨hcmd.trans h.running.1, ?_, hvalid.trans h.running.2.2⟩, ?_, ?_, ?_, fun b hb => ?_, ?_, ?_⟩, by omega⟩
  · rw [← h.running.2.1]; unfold inputBad; rw [hin, hn, hcfg]
  · rw [hsucc, hcfg]; omega
  · have := h.count; omega
  · rw [hsucc]; exact hall
  · rw [hrest b (by omega)]; exact h.rest b (by omega)
  · rw [hstored, decodeBlocks_append, h.expands, hi, inBytes_add, inBytes_congr hmem, inBytes_congr hmem, Nat.zero_add,
      show decodeBlocks [k] = k.expand by simp [decodeBlocks], hexp, take_inBytes s (by omega)]
  · rw [drop_inBytes s hle, ← Nat.sub_add_eq] at hag
    rw [hcfg, input, hn, inBytes_congr hmem, inBytes_congr hmem, hi, hstored, List.append_assoc]
    exact hag

/-! ### One transition -/

/-- The end of COMPRESS with a result (R140, R156). -/
structure Compressed (s : State) : Prop where
  phase : s.phase = .idle
  st : s.st = .done
  err : s.err = .none
  cmd : s.cmd = 0x01#8
  cdValid : s.cdValid = true
  blocks : storedBlocks s = encodeBytes s.cfg.litMax (input s)
  fits : (encodeBytes s.cfg.litMax (input s)).length ≤ s.cfg.blkCap
  wellFormed : allWellFormed s 0 s.nblk.toNat = true
  rest : ∀ b, s.nblk.toNat ≤ b → entryPresent s b = false

/-- How many transitions COMPRESS has made (R160). -/
def encProgress (s : State) : Nat := s.eI + s.eM + s.eR + s.nblk.toNat

/-- What one transition of the encoder leaves: a scan one transition further on, the normative result after `N + NBLK`
transitions, or a store that is too small. -/
inductive EncodedOn (s t : State) : Prop where
  | lit (phase : t.phase = .encLit) (st : t.st = .busy) (err : t.err = s.err) (scan : LitScan t)
      (progress : encProgress t = encProgress s + 1)
  | rep (phase : t.phase = .encRep) (st : t.st = .busy) (err : t.err = s.err) (scan : RepScan t)
      (progress : encProgress t = encProgress s + 1)
  | done (result : Compressed t) (progress : encProgress t = encProgress s + 1) (all : t.eI = s.n.toNat ∧ t.eM = 0 ∧ t.eR = 0)
  | full (small : s.cfg.blkCap < (encodeBytes s.cfg.litMax (input s)).length) (failed : t = raise .allocationFailure s)

/-- The store is too small when it is full and a block is still to come. -/
theorem Covered.tooSmall {s : State} (h : Covered s) (hlt : s.eI < s.n.toNat) (hcap : s.cfg.blkCap ≤ s.nblk.toNat) :
    s.cfg.blkCap < (encodeBytes s.cfg.litMax (input s)).length := by
  rw [h.agrees, inBytes_rest hlt, encodeBytes_cons]
  simp only [List.length_append, List.length_cons, storedBlocks, length_blocksFrom]
  omega

theorem maskCompress_raise (s : State) (h : s.cmd = 0x01#8) (k : ErrKind) :
    maskCompress (raise k s) = maskCompress s := by
  simp [raise, cleanUp, h, maskCompress, releaseStore, setFail]

theorem raise_blkMem_wf {s : State} (h : s.blkMem.wf .blk) (k : ErrKind) : (raise k s).blkMem.wf .blk := by
  unfold raise cleanUp setFail
  split_ifs
  · exact forget_wf _ _
  · exact h
  · exact h
  · exact h

theorem raise_blkMem_bound {s : State} {n : Nat} (h : ∀ c ∈ s.blkMem.cells, c.1 < n) (k : ErrKind) :
    ∀ c ∈ (raise k s).blkMem.cells, c.1 < n := by
  unfold raise cleanUp setFail
  split_ifs
  · intro c hc; simp [releaseStore, Mem.forget] at hc
  · exact h
  · exact h
  · exact h

/-- A transition keeps the form and the bounds of the block store. -/
structure StoreKept (s t : State) : Prop where
  wf : t.blkMem.wf .blk
  bound : (∀ c ∈ s.blkMem.cells, c.1 < entrySize * s.cfg.blkCap) → ∀ c ∈ t.blkMem.cells, c.1 < entrySize * s.cfg.blkCap

theorem LitScan.lt {s : State} (h : LitScan s) : s.eI < s.n.toNat := by have := h.inside; omega

theorem RepScan.lt {s : State} (h : RepScan s) : s.eI < s.n.toNat := by have := h.inside; have := h.span.1; omega

/-- `Covered` depends only on what it names. -/
theorem Covered.congr {s t : State} (h : Covered s) (hmask : maskCompress t = maskCompress s) (hcmd : t.cmd = s.cmd)
    (hvalid : t.cdValid = s.cdValid) (hb : t.blkMem = s.blkMem) (hnblk : t.nblk = s.nblk) (hi : t.eI = s.eI) : Covered t := by
  have hcfg : t.cfg = s.cfg := (congrArg State.cfg hmask :)
  have hn : t.n = s.n := (congrArg State.n hmask :)
  have hmem : t.inMem = s.inMem := (congrArg State.inMem hmask :)
  have hin : t.inPresent = s.inPresent := (congrArg State.inPresent hmask :)
  refine ⟨⟨hcmd.trans h.running.1, ?_, hvalid.trans h.running.2.2⟩, ?_, ?_, ?_, fun b hb' => ?_, ?_, ?_⟩
  · rw [← h.running.2.1]; unfold inputBad; rw [hin, hn, hcfg]
  · rw [hnblk, hcfg]; exact h.cap
  · rw [hnblk, hi]; exact h.count
  · rw [hnblk, allWellFormed_congr hcfg hb]; exact h.wellFormed
  · rw [entryPresent_congr hcfg hb]; exact h.rest b (by rw [← hnblk]; exact hb')
  · rw [storedBlocks_congr hb hnblk, hi, inBytes_congr hmem]; exact h.expands
  · rw [hcfg, input, hn, inBytes_congr hmem, inBytes_congr hmem, hi, storedBlocks_congr hb hnblk]; exact h.agrees

/-- One transition in `P_ENC_LIT` (R158). -/
theorem encLitStep_spec {s : State} (hwf : s.blkMem.wf .blk) (hlegal : s.cfg.Legal) (hp : s.phase = .encLit)
    (hb : s.st = .busy) (h : LitScan s) :
    maskCompress (encLitStep s) = maskCompress s ∧ StoreKept s (encLitStep s) ∧ EncodedOn s (encLitStep s) := by
  have hlt := h.lt
  unfold encLitStep
  split
  · next hg =>
    simp only [litGoesOn, Bool.and_eq_true, decide_eq_true_eq] at hg
    refine ⟨rfl, ⟨hwf, fun hc => hc⟩, .lit hp hb rfl ⟨h.toCovered.congr rfl rfl rfl rfl rfl rfl, ?_, ?_, ?_, h.closed⟩ ?_⟩
    · exact hg.1.1
    · have := hg.1.2; simp only [extendLiteral]; omega
    · intro k hk
      by_cases hkm : k = s.eM
      · subst hkm; exact hg.2
      · exact h.differ k (by simp only [extendLiteral] at hk; omega)
    · simp only [encProgress, extendLiteral]; omega
  · next hg =>
    have hg' : litGoesOn s = false := by simpa using hg
    split
    · next hm =>
      have hhead := headBlock_of_litScan h hg' hm
      have hlm : s.cfg.litMax ≤ 128 := by rcases hlegal.1 with hl | hl <;> omega
      have hk : lengthOk (Block.lit (inBytes s s.eI s.eM)).len = true := hhead ▸ headBlock_lengthOk hlm _ _
      have hlen : (Block.lit (inBytes s s.eI s.eM)).len = s.eM := length_inBytes _ _ _
      have hform : closeLiteral s = match emit .lit (Block.lit (inBytes s s.eI s.eM)).len (inBytes s s.eI s.eM) s with
        | .error t => t
        | .ok t => { t with eI := s.eI + s.eM, eM := 0 } := by rw [hlen]; rfl
      rcases emit_spec hwf hlegal hk h.wellFormed with ⟨hcap, he⟩ | ⟨hcap, m, he, hmwf, hmb, hsucc, hstored, hall, hrest⟩
      · have : closeLiteral s = raise .allocationFailure s := by rw [hform]; simp only [Block.kind, Block.payload] at he; rw [he]
        rw [this]
        exact ⟨maskCompress_raise s h.running.1 _, ⟨raise_blkMem_wf hwf _, fun hc => raise_blkMem_bound hc _⟩,
          .full (h.tooSmall hlt hcap) rfl⟩
      · have : closeLiteral s = { s with blkMem := m, nblk := s.nblk + 1#32, eI := s.eI + s.eM, eM := 0 } := by
          rw [hform]; simp only [Block.kind, Block.payload] at he; rw [he]
        rw [this]
        have hcov := h.toCovered.emitted (t := { s with blkMem := m, nblk := s.nblk + 1#32, eI := s.eI + s.eM, eM := 0 })
          hlt hhead hcap hsucc ((storedBlocks_congr (by rfl) (by rfl)).trans hstored)
          ((allWellFormed_congr (by rfl) (by rfl) _ _).trans hall)
          (fun b hb => (entryPresent_congr (by rfl) (by rfl) b).trans (hrest b hb)) rfl rfl rfl (by rw [hlen])
        have hin := h.inside
        refine ⟨rfl, ⟨hmwf, hmb⟩, .lit hp hb rfl ⟨hcov.1, Nat.zero_le _, ?_, fun k hk => absurd hk (by simp), h.closed⟩ ?_⟩
        · simp only; omega
        · simp only [encProgress, hsucc]; omega
    · next hm =>
      have hm0 : s.eM = 0 := by omega
      refine ⟨rfl, ⟨hwf, fun hc => hc⟩, .rep rfl hb rfl ⟨h.toCovered.congr rfl rfl rfl rfl rfl rfl, ⟨Nat.le_refl 1, ?_⟩,
        ?_, ?_, ?_, hm0⟩ ?_⟩
      · show 1 ≤ Config.repMax
        decide
      · simp only [openRepeat]; omega
      · intro k hk
        simp only [openRepeat] at hk ⊢
        have : k = 0 := by omega
        subst this; rfl
      · intro h1
        simp only [openRepeat] at h1
        show inByte s s.eI = inByte s (s.eI + 1)
        have hl : 0 < s.cfg.litMax := by rcases hlegal.1 with hl | hl <;> omega
        have h1' : s.eI + 0 + 1 < s.n.toNat := by omega
        have := hg'
        simp only [litGoesOn, hm0, hl, h1', decide_true, Bool.true_and] at this
        simpa using this
      · have := h.closed; simp only [encProgress, openRepeat]; omega

/-- One transition in `P_ENC_REP` (R158). -/
theorem encRepStep_spec {s : State} (hwf : s.blkMem.wf .blk) (hlegal : s.cfg.Legal) (hp : s.phase = .encRep)
    (hb : s.st = .busy) (h : RepScan s) :
    maskCompress (encRepStep s) = maskCompress s ∧ StoreKept s (encRepStep s) ∧ EncodedOn s (encRepStep s) := by
  have hlt := h.lt
  unfold encRepStep
  split
  · next hg =>
    simp only [repGoesOn, Bool.and_eq_true, decide_eq_true_eq] at hg
    have hpos := h.span.1
    refine ⟨rfl, ⟨hwf, fun hc => hc⟩,
      .rep hp hb rfl ⟨h.toCovered.congr rfl rfl rfl rfl rfl rfl, ⟨?_, hg.1.1⟩, ?_, ?_, h.opened, h.closed⟩ ?_⟩
    · simp only [extendRepeat]; omega
    · have := hg.1.2; simp only [extendRepeat]; omega
    · intro k hk
      by_cases hkr : k = s.eR
      · subst hkr; exact hg.2
      · exact h.same k (by simp only [extendRepeat] at hk; omega)
    · simp only [encProgress, extendRepeat]; omega
  · next hg =>
    have hg' : repGoesOn s = false := by simpa using hg
    have hhead := headBlock_of_repScan h hg'
    have hk : lengthOk (Block.rep s.eR s.eFirst).len = true := lengthOk_iff.2 ⟨h.span.1, h.span.2⟩
    rcases emit_spec hwf hlegal hk h.wellFormed with ⟨hcap, he⟩ | ⟨hcap, m, he, hmwf, hmb, hsucc, hstored, hall, hrest⟩
    · have : closeRepeat s = raise .allocationFailure s := by
        unfold closeRepeat; simp only [Block.kind, Block.payload, Block.len] at he; rw [he]
      rw [this]
      exact ⟨maskCompress_raise s h.running.1 _, ⟨raise_blkMem_wf hwf _, fun hc => raise_blkMem_bound hc _⟩,
        .full (h.tooSmall hlt hcap) rfl⟩
    · by_cases hend : s.eI + s.eR = s.n.toNat
      · have : closeRepeat s =
            finishCompress { s with blkMem := m, nblk := s.nblk + 1#32, eI := s.eI + s.eR, eR := 0 } := by
          unfold closeRepeat; simp only [Block.kind, Block.payload, Block.len] at he; rw [he]; simp only [hend, if_true]
        rw [this]
        have hcov := (h.toCovered.emitted (t := { s with blkMem := m, nblk := s.nblk + 1#32, eI := s.eI + s.eR, eR := 0 })
          hlt hhead hcap hsucc ((storedBlocks_congr (by rfl) (by rfl)).trans hstored)
          ((allWellFormed_congr (by rfl) (by rfl) _ _).trans hall)
          (fun b hb => (entryPresent_congr (by rfl) (by rfl) b).trans (hrest b hb)) rfl rfl rfl rfl).1
        have hag : encodeBytes s.cfg.litMax (input s) =
            storedBlocks { s with blkMem := m, nblk := s.nblk + 1#32, eI := s.eI + s.eR, eR := 0 } ++
              encodeBytes s.cfg.litMax (inBytes s (s.eI + s.eR) (s.n.toNat - (s.eI + s.eR))) := hcov.agrees
        rw [hend, Nat.sub_self, show inBytes s s.n.toNat 0 = [] from rfl, encodeBytes_nil, List.append_nil] at hag
        have hclosed := h.closed
        refine ⟨rfl, ⟨hmwf, hmb⟩, .done ⟨rfl, rfl, rfl, h.running.1, rfl, ?_, ?_, ?_, fun b hb => ?_⟩ ?_ ⟨hend, hclosed, rfl⟩⟩
        · exact (storedBlocks_congr (by rfl) (by rfl)).trans hag.symm
        · have := hcov.cap
          show (encodeBytes s.cfg.litMax (input s)).length ≤ s.cfg.blkCap
          rw [hag]
          simpa [storedBlocks] using this
        · exact (allWellFormed_congr (by rfl) (by rfl) _ _).trans hcov.wellFormed
        · exact (entryPresent_congr (by rfl) (by rfl) b).trans (hcov.rest b hb)
        · simp only [encProgress, finishCompress, finish, hsucc]; omega
      · have : closeRepeat s =
            { s with blkMem := m, nblk := s.nblk + 1#32, eI := s.eI + s.eR, eR := 0, eM := 0, phase := .encLit } := by
          unfold closeRepeat; simp only [Block.kind, Block.payload, Block.len] at he; rw [he]; simp only [hend, if_false]
        rw [this]
        have hcov := h.toCovered.emitted
          (t := { s with blkMem := m, nblk := s.nblk + 1#32, eI := s.eI + s.eR, eR := 0, eM := 0, phase := .encLit })
          hlt hhead hcap hsucc ((storedBlocks_congr (by rfl) (by rfl)).trans hstored)
          ((allWellFormed_congr (by rfl) (by rfl) _ _).trans hall)
          (fun b hb => (entryPresent_congr (by rfl) (by rfl) b).trans (hrest b hb)) rfl rfl rfl rfl
        have hin := h.inside
        have hclosed := h.closed
        refine ⟨rfl, ⟨hmwf, hmb⟩,
          .lit rfl hb rfl ⟨hcov.1, Nat.zero_le _, ?_, fun k hk => absurd hk (by simp), rfl⟩ ?_⟩
        · simp only; omega
        · simp only [encProgress, hsucc]; omega

end Sys2Proof.Machine
end

