-- ==== Sys2Proof/Laws/Run.lean ====
section
/-! SUPPORT. Running the sequencer to the end of a command: runs compose, a run that has ended stays ended, and the one
induction over the transitions of a pass (10_state.md R30). -/

namespace Sys2Proof.Machine

theorem runToEnd_zero (s : State) : runToEnd 0 s = s := rfl

theorem runToEnd_busy {s : State} (h : s.st = .busy) (fuel : Nat) : runToEnd (fuel + 1) s = runToEnd fuel (transition s) := by
  simp [runToEnd, h]

theorem runToEnd_stopped {s : State} (h : s.st ≠ .busy) (fuel : Nat) : runToEnd fuel s = s := by
  cases fuel <;> simp [runToEnd, h]

theorem runToEnd_add (a b : Nat) (s : State) : runToEnd (a + b) s = runToEnd b (runToEnd a s) := by
  induction a generalizing s with
  | zero => rw [Nat.zero_add, runToEnd_zero]
  | succ a ih =>
    by_cases h : s.st = .busy
    · rw [show a + 1 + b = (a + b) + 1 by omega, runToEnd_busy h, runToEnd_busy h, ih]
    · rw [runToEnd_stopped h, runToEnd_stopped h, runToEnd_stopped h]

/-- The command ends after exactly `k` transitions, in state `t`. -/
structure EndsAfter (k : Nat) (s t : State) : Prop where
  busyBefore : ∀ j < k, (runToEnd j s).st = .busy
  reaches : runToEnd k s = t
  ended : t.st ≠ .busy

theorem EndsAfter.here {s : State} (h : s.st ≠ .busy) : EndsAfter 0 s s := ⟨fun j hj => absurd hj (by omega), rfl, h⟩

theorem EndsAfter.cons {k : Nat} {s t : State} (hb : s.st = .busy) (h : EndsAfter k (transition s) t) :
    EndsAfter (k + 1) s t := by
  refine ⟨fun j hj => ?_, by rw [runToEnd_busy hb]; exact h.reaches, h.ended⟩
  cases j with
  | zero => exact hb
  | succ j => rw [runToEnd_busy hb]; exact h.busyBefore j (by omega)

theorem EndsAfter.run {k fuel : Nat} {s t : State} (h : EndsAfter k s t) (hk : k ≤ fuel) : runToEnd fuel s = t := by
  obtain ⟨d, rfl⟩ := Nat.exists_eq_add_of_le hk
  rw [runToEnd_add, h.reaches, runToEnd_stopped h.ended]

/-- From an invariant of a pass that each transition keeps, nearer to the end, or ends with `Q`: the command ends, with
`Q`. -/
theorem endsAfter_of_progress {I Q : State → Prop} {left : State → Nat} (busy : ∀ s, I s → s.st = .busy)
    (next : ∀ s, I s → (I (transition s) ∧ left (transition s) < left s) ∨ (Q (transition s) ∧ (transition s).st ≠ .busy))
    {n : Nat} {s : State} (h : I s) (hn : left s ≤ n) : ∃ k t, k ≤ n + 1 ∧ EndsAfter k s t ∧ Q t := by
  induction n generalizing s with
  | zero =>
    rcases next s h with ⟨_, hlt⟩ | ⟨hq, hend⟩
    · omega
    · exact ⟨1, _, by omega, .cons (busy s h) (.here hend), hq⟩
  | succ n ih =>
    rcases next s h with ⟨hi, hlt⟩ | ⟨hq, hend⟩
    · obtain ⟨k, t, hk, ht, hq⟩ := ih hi (by omega)
      exact ⟨k + 1, t, by omega, .cons (busy s h) ht, hq⟩
    · exact ⟨1, _, by omega, .cons (busy s h) (.here hend), hq⟩

/-- The same, where every transition is exactly one nearer to the end: the command ends after exactly `left s` of them. -/
theorem endsAfter_of_exact {I Q : State → Prop} {left : State → Nat} (busy : ∀ s, I s → s.st = .busy)
    (next : ∀ s, I s → (I (transition s) ∧ left (transition s) + 1 = left s) ∨
      (Q (transition s) ∧ (transition s).st ≠ .busy ∧ left s = 1))
    {n : Nat} {s : State} (h : I s) (hn : left s = n) : ∃ t, EndsAfter n s t ∧ Q t := by
  induction n generalizing s with
  | zero =>
    rcases next s h with ⟨_, hlt⟩ | ⟨_, _, h1⟩ <;> omega
  | succ n ih =>
    rcases next s h with ⟨hi, hlt⟩ | ⟨hq, hend, h1⟩
    · obtain ⟨t, ht, hq⟩ := ih hi (by omega)
      exact ⟨t, .cons (busy s h) ht, hq⟩
    · obtain rfl : n = 0 := by omega
      exact ⟨_, .cons (busy s h) (.here hend), hq⟩

end Sys2Proof.Machine
end

