-- ==== Sys2Proof/Laws/Compress.lean ====
section
/-! SUPPORT. COMPRESS as a whole (41_encoder.md R140, R144, R160): the run of the encoder from its start rule to its end. -/

namespace Sys2Proof.Machine

/-- The state after the start rule of COMPRESS, when the input checks pass (R150). -/
def startedCompress (s : State) : State :=
  { releaseStore (setBusy 0x01#8 s) with eI := 0, eM := 0, eR := 0, phase := .encLit }

theorem beginCommand_code01 (s : State) : beginCommand 0x01#8 s = releaseStore (setBusy 0x01#8 s) := by
  simp [beginCommand]

theorem startCompress_ok {s : State} (h : inputBad s = false) :
    startCompress (beginCommand 0x01#8 s) = startedCompress s := by
  rw [beginCommand_code01, startCompress, if_neg]
  · rfl
  · show ¬ inputBad s = true
    simp [h]

/-- After the start rule of COMPRESS, on a released store, the literal scan is at the first byte (R150, R300). -/
theorem litScan_start {s : State} (hc : s.cmd = 0x01#8) (h : inputBad s = false) (hv : s.cdValid = false) (hb : s.nblk = 0#32)
    (he : storeEmpty s) : LitScan { s with eI := 0, eM := 0, eR := 0, phase := .encLit } := by
  have hn : s.n.toNat ≠ 0 := by
    intro h0
    have : s.n = 0#32 := BitVec.eq_of_toNat_eq h0
    simp [inputBad, this] at h
  have h0 : s.nblk.toNat = 0 := by rw [hb]; rfl
  refine ⟨⟨⟨hc, h, hv⟩, ?_, ?_, ?_, fun b _ => he b, ?_, ?_⟩, Nat.zero_le _, ?_, fun k hk => absurd hk (by simp), rfl⟩
  · show s.nblk.toNat ≤ s.cfg.blkCap
    omega
  · show s.nblk.toNat ≤ 0
    omega
  · show allWellFormed _ 0 s.nblk.toNat = true
    rw [h0]; rfl
  · show decodeBlocks (blocksFrom _ 0 s.nblk.toNat) = _
    rw [h0]; rfl
  · show _ = blocksFrom _ 0 s.nblk.toNat ++ _
    rw [h0]; rfl
  · show 0 + 0 + 1 ≤ s.n.toNat
    omega

theorem startedCompress_scan {s : State} (h : inputBad s = false) : LitScan (startedCompress s) :=
  litScan_start (s := releaseStore (setBusy 0x01#8 s)) rfl h rfl rfl fun b => entryPresent_forget (m := s.blkMem) rfl b

theorem input_of_mask {s t : State} (h : maskCompress t = maskCompress s) : input t = input s := by
  have hn : t.n = s.n := (congrArg State.n h :)
  have hm : t.inMem = s.inMem := (congrArg State.inMem h :)
  rw [input, input, hn, inBytes_congr hm]

/-- A busy state of COMPRESS, with everything that COMPRESS does not write as in `s`. -/
structure Compressing (s t : State) : Prop where
  busy : t.st = .busy
  mask : maskCompress t = maskCompress s
  wf : t.blkMem.wf .blk
  bound : ∀ c ∈ t.blkMem.cells, c.1 < entrySize * s.cfg.blkCap
  scan : (t.phase = .encLit ∧ LitScan t) ∨ (t.phase = .encRep ∧ RepScan t)

theorem Compressing.cfg {s t : State} (h : Compressing s t) : t.cfg = s.cfg := (congrArg State.cfg h.mask :)
theorem Compressing.n {s t : State} (h : Compressing s t) : t.n = s.n := (congrArg State.n h.mask :)
theorem Compressing.input {s t : State} (h : Compressing s t) : input t = input s := input_of_mask h.mask

/-- What COMPRESS leaves when it ends (R140, R144). -/
structure CompressEnded (s t : State) : Prop where
  mask : maskCompress t = maskCompress s
  bound : ∀ c ∈ t.blkMem.cells, c.1 < entrySize * s.cfg.blkCap
  result : (Compressed t ∧ t.eI = s.n.toNat ∧ t.eM = 0 ∧ t.eR = 0) ∨
    (s.cfg.blkCap < (encodeBytes s.cfg.litMax (input s)).length ∧
      ∃ u, Compressing s u ∧ t = raise .allocationFailure u)

/-- One transition of COMPRESS. -/
theorem Compressing.next {s t : State} (hlegal : s.cfg.Legal) (h : Compressing s t) :
    (Compressing s (transition t) ∧ encProgress (transition t) = encProgress t + 1) ∨
      (CompressEnded s (transition t) ∧ (transition t).st ≠ .busy ∧
        (Compressed (transition t) → encProgress t + 1 = s.n.toNat + (transition t).nblk.toNat)) := by
  have hlegal' : t.cfg.Legal := by rw [h.cfg]; exact hlegal
  have key : maskCompress (transition t) = maskCompress t ∧ StoreKept t (transition t) ∧ EncodedOn t (transition t) := by
    rcases h.scan with ⟨hp, hs⟩ | ⟨hp, hs⟩
    · have := encLitStep_spec h.wf hlegal' hp h.busy hs
      simpa only [transition, hp] using this
    · have := encRepStep_spec h.wf hlegal' hp h.busy hs
      simpa only [transition, hp] using this
  obtain ⟨hm, hk, hon⟩ := key
  have hmask := hm.trans h.mask
  have hbound : ∀ c ∈ (transition t).blkMem.cells, c.1 < entrySize * s.cfg.blkCap := by
    rw [← h.cfg]; exact hk.bound (by rw [h.cfg]; exact h.bound)
  rcases hon with ⟨hp, hb, _, hs, hprog⟩ | ⟨hp, hb, _, hs, hprog⟩ | ⟨hr, hprog, hall⟩ | ⟨hsmall, hfail⟩
  · exact .inl ⟨⟨hb, hmask, hk.wf, hbound, .inl ⟨hp, hs⟩⟩, hprog⟩
  · exact .inl ⟨⟨hb, hmask, hk.wf, hbound, .inr ⟨hp, hs⟩⟩, hprog⟩
  · rw [h.n] at hall
    refine .inr ⟨⟨hmask, hbound, .inl ⟨hr, hall⟩⟩, by rw [hr.st]; decide, fun _ => ?_⟩
    rw [← hprog, encProgress, hall.1, hall.2.1, hall.2.2]
    omega
  · refine .inr ⟨⟨hmask, hbound, .inr ⟨?_, t, h, hfail⟩⟩, by rw [hfail]; simp, fun hc => ?_⟩
    · rw [← h.cfg, ← h.input]; exact hsmall
    · have := hc.st
      rw [hfail] at this
      simp at this

/-- How far COMPRESS can be from its end. -/
theorem Compressing.progress_le {s t : State} (h : Compressing s t) : encProgress t ≤ 2 * s.n.toNat := by
  rw [← h.n]
  rcases h.scan with ⟨_, hs⟩ | ⟨_, hs⟩
  · have := hs.inside; have := hs.count; have := hs.closed
    simp only [encProgress]; omega
  · have := hs.inside; have := hs.count; have := hs.closed
    simp only [encProgress]; omega

theorem startedCompress_compressing {s : State} (h : inputBad s = false) :
    Compressing s (startedCompress s) :=
  ⟨rfl, rfl, forget_wf _ _, by intro c hc; simp [startedCompress, releaseStore, Mem.forget] at hc,
    .inl ⟨rfl, startedCompress_scan h⟩⟩

/-- COMPRESS of a good input ends after at most `2 * N + 1` transitions (R30, R144). -/
theorem compress_ends {s : State} (hlegal : s.cfg.Legal) (h : inputBad s = false) :
    ∃ k t, k ≤ 2 * s.n.toNat + 1 ∧ EndsAfter k (startedCompress s) t ∧ CompressEnded s t := by
  refine endsAfter_of_progress (I := Compressing s) (Q := CompressEnded s) (left := fun t => 2 * s.n.toNat - encProgress t)
    (fun t ht => ht.busy) (fun t ht => ?_) (startedCompress_compressing h) (by omega)
  rcases ht.next hlegal with ⟨hn, hp⟩ | ⟨he, hb, _⟩
  · have := hn.progress_le
    exact .inl ⟨hn, by omega⟩
  · exact .inr ⟨he, hb⟩

/-- With room for all blocks, COMPRESS ends with its result after exactly `N + NBLK` transitions (R160). -/
theorem compress_ends_exactly {s : State} (hlegal : s.cfg.Legal) (h : inputBad s = false)
    (hfits : (encodeBytes s.cfg.litMax (input s)).length ≤ s.cfg.blkCap) :
    ∃ t, EndsAfter (s.n.toNat + (encodeBytes s.cfg.litMax (input s)).length) (startedCompress s) t ∧
      CompressEnded s t ∧ Compressed t := by
  refine endsAfter_of_exact (I := Compressing s) (Q := fun t => CompressEnded s t ∧ Compressed t)
    (left := fun t => s.n.toNat + (encodeBytes s.cfg.litMax (input s)).length - encProgress t)
    (fun t ht => ht.busy) (fun t ht => ?_) (startedCompress_compressing h) rfl
  have hlen : ∀ u, Compressing s u → encProgress u < s.n.toNat + (encodeBytes s.cfg.litMax (input s)).length := by
    intro u hu
    have hlt : u.eI < u.n.toNat := by rcases hu.scan with ⟨_, hs⟩ | ⟨_, hs⟩ <;> exact hs.lt
    have hag : encodeBytes u.cfg.litMax (input u) =
        storedBlocks u ++ encodeBytes u.cfg.litMax (inBytes u u.eI (u.n.toNat - u.eI)) := by
      rcases hu.scan with ⟨_, hs⟩ | ⟨_, hs⟩ <;> exact hs.agrees
    rw [inBytes_rest hlt, encodeBytes_cons] at hag
    have hl := congrArg List.length hag
    rw [hu.cfg, hu.input] at hl
    simp only [List.length_append, List.length_cons, storedBlocks, length_blocksFrom] at hl
    rw [← hu.n]
    rcases hu.scan with ⟨_, hs⟩ | ⟨_, hs⟩
    · have := hs.inside; have := hs.closed
      simp only [encProgress]; omega
    · have := hs.inside; have := hs.closed
      simp only [encProgress]; omega
  have ht' := hlen t ht
  rcases ht.next hlegal with ⟨hn, hp⟩ | ⟨he, hb, hcount⟩
  · have := hlen _ hn
    exact .inl ⟨hn, by omega⟩
  · rcases he.result with ⟨hc, _⟩ | ⟨hsmall, _⟩
    · refine .inr ⟨⟨he, hc⟩, hb, ?_⟩
      have hcn := hcount hc
      have hblocks := congrArg List.length hc.blocks
      have hcfg : (transition t).cfg = s.cfg := (congrArg State.cfg he.mask :)
      rw [hcfg, input_of_mask he.mask] at hblocks
      simp only [storedBlocks, length_blocksFrom] at hblocks
      omega
    · omega

/-! ### The instruction -/

theorem exec_compress {s : State} (hst : s.st ≠ .busy) :
    exec .compress s = .next (runCommand (startCompress (beginCommand 0x01#8 s))) := by
  simp [exec, execCompress, command, hst]

/-- COMPRESS fails its input checks (R141, R282). -/
theorem exec_compress_bad {s : State} (hst : s.st ≠ .busy) (h : inputBad s = true) :
    exec .compress s = .next (raise .invalidInput (releaseStore (setBusy 0x01#8 s))) := by
  have : startCompress (beginCommand 0x01#8 s) = raise .invalidInput (releaseStore (setBusy 0x01#8 s)) := by
    rw [beginCommand_code01, startCompress, if_pos]
    exact h
  rw [exec_compress hst, this, runCommand, runToEnd_stopped (by simp)]

/-- COMPRESS of a good input, whatever the room (R144, R160). -/
theorem exec_compress_good {s : State} (hst : s.st ≠ .busy) (hlegal : s.cfg.Legal) (h : inputBad s = false) :
    ∃ t, exec .compress s = .next t ∧ CompressEnded s t := by
  obtain ⟨k, t, hk, he, hc⟩ := compress_ends hlegal h
  refine ⟨t, ?_, hc⟩
  rw [exec_compress hst, startCompress_ok h, runCommand, he.run]
  have : (startedCompress s).n = s.n := rfl
  rw [fuelFor, this]
  omega

end Sys2Proof.Machine
end

