-- ==== Sys2Proof/Laws/Parse.lean ====
section
/-! SUPPORT. The parser of the stream as a function (44_stream.md R231, R240): one more block, and its inverse relation to the
serializer. -/

namespace Sys2Proof.Machine

/-- The bytes of one block in the stream (R221). -/
theorem serializeBlocks_cons (k : Block) (ks : List Block) :
    serializeBlocks (k :: ks) = k.ctrl :: (k.payload ++ serializeBlocks ks) := rfl

/-- The block decoder reads a block of a legal length back from its bytes. -/
theorem decodeBlock_block {k : Block} (hk : lengthOk k.len = true) (rest : List Byte) :
    decodeBlock (k.ctrl :: (k.payload ++ rest)) = .ok (k.instr, rest) := by
  cases k with
  | lit payload => exact decodeBlock_lit hk rest
  | rep len b => exact decodeBlock_rep hk b rest

/-- What the block decoder can answer, as a block. -/
theorem decodeBlock_ok_block {bytes : List Byte} {i : Instr} {rest : List Byte} (h : decodeBlock bytes = .ok (i, rest)) :
    ∃ k : Block, i = k.instr ∧ lengthOk k.len = true ∧ bytes = k.ctrl :: (k.payload ++ rest) := by
  rcases decodeBlock_ok h with ⟨payload, hi, hl, hb⟩ | ⟨len, b, hi, hl, hb⟩
  · exact ⟨.lit payload, hi, hl, hb⟩
  · exact ⟨.rep len b, hi, hl, hb⟩

/-- Parsing one more block in front. -/
theorem parseBlocks_succ (n : Nat) (bytes : List Byte) :
    parseBlocks (n + 1) bytes = match decodeBlock bytes with
      | .ok (.lit payload, rest) => (parseBlocks n rest).map fun r => (.lit payload :: r.1, r.2)
      | .ok (.rep len b, rest) => (parseBlocks n rest).map fun r => (.rep len b :: r.1, r.2)
      | _ => .error .malformedStream := rfl

theorem parseBlocks_cons {k : Block} (hk : lengthOk k.len = true) (n : Nat) (rest : List Byte) :
    parseBlocks (n + 1) (k.ctrl :: (k.payload ++ rest)) = (parseBlocks n rest).map fun r => (k :: r.1, r.2) := by
  rw [parseBlocks_succ, decodeBlock_block hk]
  cases k <;> rfl

theorem parseBlocks_short {bytes : List Byte} {e : DecodeError} (h : decodeBlock bytes = .error e) (n : Nat) :
    parseBlocks (n + 1) bytes = .error .malformedStream := by rw [parseBlocks_succ, h]

/-- The parser answers blocks of legal lengths whose bytes are the head of what it was given, or `MalformedStream`. -/
theorem parseBlocks_ok {n : Nat} {bytes : List Byte} {ks : List Block} {rest : List Byte}
    (h : parseBlocks n bytes = .ok (ks, rest)) :
    ks.length = n ∧ (∀ k ∈ ks, lengthOk k.len = true) ∧ bytes = serializeBlocks ks ++ rest := by
  induction n generalizing bytes ks with
  | zero =>
    simp only [parseBlocks, Except.ok.injEq, Prod.mk.injEq] at h
    obtain ⟨rfl, rfl⟩ := h
    exact ⟨rfl, by simp, rfl⟩
  | succ n ih =>
    cases hd : decodeBlock bytes with
    | error e => rw [parseBlocks_short hd] at h; cases h
    | ok r =>
      obtain ⟨i, tail⟩ := r
      obtain ⟨k, rfl, hk, rfl⟩ := decodeBlock_ok_block hd
      rw [parseBlocks_cons hk] at h
      cases hp : parseBlocks n tail with
      | error e => rw [hp] at h; cases h
      | ok r =>
        obtain ⟨ls, tail'⟩ := r
        rw [hp] at h
        simp only [Except.map, Except.ok.injEq, Prod.mk.injEq] at h
        obtain ⟨rfl, rfl⟩ := h
        obtain ⟨hl, hall, rfl⟩ := ih hp
        refine ⟨by simp [hl], ?_, ?_⟩
        · intro j hj
          rcases List.mem_cons.1 hj with rfl | hj
          · exact hk
          · exact hall j hj
        · rw [serializeBlocks_cons]; simp

/-- The parser reads back what the serializer wrote (R240). -/
theorem parseBlocks_serializeBlocks {ks : List Block} (h : ∀ k ∈ ks, lengthOk k.len = true) (rest : List Byte) :
    parseBlocks ks.length (serializeBlocks ks ++ rest) = .ok (ks, rest) := by
  induction ks with
  | nil => rfl
  | cons k ks ih =>
    rw [serializeBlocks_cons, List.length_cons, List.cons_append, List.append_assoc, parseBlocks_cons (h k (by simp)),
      ih fun j hj => h j (by simp [hj])]
    rfl

/-- Parsing more blocks goes on where the first ones ended. -/
theorem parseBlocks_add {m : Nat} {bytes : List Byte} {ks : List Block} {rest : List Byte}
    (h : parseBlocks m bytes = .ok (ks, rest)) (n : Nat) :
    parseBlocks (m + n) bytes = (parseBlocks n rest).map fun r => (ks ++ r.1, r.2) := by
  induction m generalizing bytes ks with
  | zero =>
    simp only [parseBlocks, Except.ok.injEq, Prod.mk.injEq] at h
    obtain ⟨rfl, rfl⟩ := h
    rw [Nat.zero_add]
    cases parseBlocks n bytes <;> rfl
  | succ m ih =>
    obtain ⟨hl, hall, rfl⟩ := parseBlocks_ok h
    match ks, hl with
    | k :: ls, hl =>
      have hk := hall k (by simp)
      rw [serializeBlocks_cons, List.cons_append, List.append_assoc] at h ⊢
      rw [parseBlocks_cons hk] at h
      rw [show m + 1 + n = (m + n) + 1 by omega, parseBlocks_cons hk]
      have hrest := parseBlocks_serializeBlocks (ks := ls) (fun j hj => hall j (by simp [hj])) rest
      rw [show ls.length = m by simpa using hl] at hrest
      rw [ih hrest]
      cases parseBlocks n rest <;> rfl

/-- The only failure of the block loop (R235, R236). -/
theorem parseBlocks_error {n : Nat} {bytes : List Byte} {e : ErrKind} (h : parseBlocks n bytes = .error e) :
    e = .malformedStream := by
  induction n generalizing bytes with
  | zero => cases h
  | succ n ih =>
    cases hd : decodeBlock bytes with
    | error _ => rw [parseBlocks_short hd] at h; cases h; rfl
    | ok r =>
      obtain ⟨i, tail⟩ := r
      obtain ⟨k, rfl, hk, rfl⟩ := decodeBlock_ok_block hd
      rw [parseBlocks_cons hk] at h
      cases hp : parseBlocks n tail with
      | error e' => rw [hp] at h; cases h; exact ih hp
      | ok r => rw [hp] at h; cases h

/-- A block is read from the first 129 bytes (R94). -/
theorem decodeBlock_take (bytes : List Byte) :
    decodeBlock (bytes.take longestInstr) = match decodeBlock bytes with
      | .ok (i, rest) => .ok (i, rest.take (longestInstr - (bytes.length - rest.length)))
      | .error e => .error e := by
  match bytes with
  | [] => rfl
  | c :: tail =>
    have hn := lenOf_le c
    rw [show longestInstr = 128 + 1 from rfl, List.take_succ_cons]
    cases hk : kindOf c with
    | lit =>
      simp only [decodeBlock, hk, List.length_take]
      by_cases hl : tail.length < lenOf c
      · rw [if_pos hl, if_pos (by omega)]
      · rw [if_neg hl, if_neg (by omega)]
        simp only [List.take_take, List.drop_take, List.length_cons, List.length_drop]
        rw [show min (lenOf c) 128 = lenOf c by omega,
          show 128 + 1 - (tail.length + 1 - (tail.length - lenOf c)) = 128 - lenOf c by omega]
    | rep =>
      match tail with
      | [] => simp [decodeBlock, hk]
      | b :: tail' =>
        simp only [decodeBlock, hk, List.length_cons]
        rw [show (128 : Nat) = 127 + 1 from rfl, List.take_succ_cons]
        simp only
        rw [show 127 + 1 + 1 - (tail'.length + 1 + 1 - tail'.length) = 127 by omega]

end Sys2Proof.Machine
end

