-- ==== Sys2Proof/Laws/Decoder.lean ====
section
/-! SUPPORT. What one transition of the decoder can do (43_decoder.md R201 to R207), and DECOMPRESS as a whole (R190, R194). -/

namespace Sys2Proof.Machine

/-! ### The state a pass leaves alone -/

/-- The state without what DECOMPRESS writes. -/
def maskDecompress (s : State) : State :=
  { s with
    cmd := 0#8, st := .idle, err := .none, outValid := false, outLen := 0#64, phase := .idle, dB := 0, dK := 0, dO := 0
    dTotal := 0, outMem := emptyMem }

theorem outBytes_congr {s t : State} (h : t.outMem = s.outMem) (a n : Nat) : outBytes t a n = outBytes s a n := by
  simp [outBytes, h]

@[simp] theorem length_outBytes (s : State) (a n : Nat) : (outBytes s a n).length = n := by simp [outBytes]

theorem maskDecompress_raise {s : State} (h : s.cmd = 0x02#8) (k : ErrKind) :
    maskDecompress (raise k s) = maskDecompress s := by
  simp [raise, cleanUp, h, maskDecompress, releaseOutput, forgetOut, setFail]

/-! ### The summing pass -/

/-- What one transition of the summing pass leaves (R201, R202). -/
inductive SummedOn (s t : State) : Prop where
  | sum (next : t = { s with dTotal := s.dTotal + lenOf (entryCtrl s s.dB), dB := s.dB + 1 }) (more : s.dB < s.nblk.toNat)
      (pass : SumPass t)
  | expand (next : t = { forgetOut s with dB := 0, dK := 0, dO := 0, phase := .decExp }) (all : s.dB = s.nblk.toNat)
      (pass : ExpandPass t)
  | corrupt (bad : storeUsable s = false) (failed : t = raise .corruptStructure s)
  | large (good : storeUsable s = true) (small : s.cfg.outCap < totalLen (storedBlocks s))
      (failed : t = raise .allocationFailure s)

theorem nblk_ne_zero {s : State} (h : noData s = false) : 0 < s.nblk.toNat := by
  by_contra hcon
  have : s.nblk = 0#32 := BitVec.eq_of_toNat_eq (by simp; omega)
  simp [noData, this] at h

theorem noData_congr {s t : State} (hv : t.cdValid = s.cdValid) (hn : t.nblk = s.nblk) : noData t = noData s := by
  simp [noData, hv, hn]

theorem decSumStep_spec {s : State} (h : SumPass s) : SummedOn s (decSumStep s) := by
  have hpos := h.position
  unfold decSumStep
  split
  · next hlt =>
    unfold sumBlock
    split
    · next hu =>
      refine .sum rfl hlt ⟨h.running, ?_, ?_, ?_⟩
      · exact hlt
      · exact (allUsable_congr (s := s) (by rfl) (by rfl) 0 (s.dB + 1)).trans
          ((allUsable_succ_last s 0 s.dB).2 ⟨h.usable, by rw [Nat.zero_add]; exact hu⟩)
      · show s.dTotal + lenOf (entryCtrl s s.dB) = totalLen (blocksFrom _ 0 (s.dB + 1))
        rw [blocksFrom_congr (s := s) (by rfl), blocksFrom_succ_last, totalLen_append, ← h.total, Nat.zero_add]
        simp [totalLen]
    · next hu =>
      refine .corrupt ?_ rfl
      rw [storeUsable, Bool.eq_false_iff]
      intro hall
      have := allUsable_iff.1 hall s.dB hlt
      rw [Nat.zero_add] at this
      exact hu this
  · next hlt =>
    have heq : s.dB = s.nblk.toNat := by omega
    have husable : storeUsable s = true := by rw [storeUsable, ← heq]; exact h.usable
    have htotal : s.dTotal = totalLen (storedBlocks s) := by rw [h.total, heq]; rfl
    unfold allocateOut
    split
    · next hcap => exact .large husable (by omega) rfl
    · next hcap =>
      refine .expand rfl heq ⟨h.running, ⟨nblk_ne_zero h.running.2.1, lenOf_pos _⟩, ?_, rfl, ⟨?_, ?_⟩, rfl⟩
      · exact (storeUsable_congr (s := s) (by rfl) (by rfl) (by rfl)).trans husable
      · exact htotal.trans (congrArg totalLen (storedBlocks_congr (s := s) (by rfl) (by rfl)).symm)
      · show s.dTotal ≤ s.cfg.outCap
        omega

/-! ### The expansion pass -/

/-- The byte X1 writes is the next byte of the block's expansion (R191, R203). -/
theorem expansionByte_eq {s : State} (h : s.dK < lenOf (entryCtrl s s.dB)) :
    (entryBlock s s.dB).expand[s.dK]? = some (expansionByte s) := by
  unfold entryBlock expansionByte
  cases hk : kindOf (entryCtrl s s.dB) with
  | lit =>
    simp only [Block.expand, entryPayload, entryPay, entryNeed, need_lit hk]
    rw [List.getElem?_eq_getElem (by simpa using h)]
    exact congrArg some (getElem_readBytes _ _ _ _ _ _)
  | rep => simp [Block.expand, h]

/-- The blocks stored, cut at block `D_B`. -/
theorem storedBlocks_cut {s : State} {b : Nat} (h : b < s.nblk.toNat) :
    storedBlocks s = blocksFrom s 0 b ++ entryBlock s b :: blocksFrom s (b + 1) (s.nblk.toNat - b - 1) := by
  rw [storedBlocks, show s.nblk.toNat = b + ((s.nblk.toNat - b - 1) + 1) by omega, blocksFrom_add, Nat.zero_add,
    Nat.add_sub_cancel_left, Nat.add_sub_cancel]
  rfl

/-- In the expansion pass the next byte written is the next byte of the decoded sequence (R207). -/
theorem decoded_next {s : State} (h : ExpandPass s) :
    (decodeBlocks (storedBlocks s))[s.dO]? = some (expansionByte s) ∧ s.dO < totalLen (storedBlocks s) := by
  have hb := expansionByte_eq h.position.2
  have hlt := h.position.2
  rw [storedBlocks_cut h.position.1, decodeBlocks_append, totalLen_append, h.address]
  refine ⟨?_, ?_⟩
  · rw [List.getElem?_append_right (by rw [length_decodeBlocks]; omega), length_decodeBlocks, Nat.add_sub_cancel_left,
      decodeBlocks, List.getElem?_append_left (by rw [expand_length, entryBlock_len]; exact hlt)]
    exact hb
  · simp only [totalLen, entryBlock_len]; omega

/-- What one transition of the expansion pass leaves (R203, R204, R206). -/
inductive ExpandedOn (s t : State) : Prop where
  | byte (next : t = { putByte (expansionByte s) s with dK := s.dK + 1 }) (pass : ExpandPass t)
  | block (next : t = { putByte (expansionByte s) s with dK := 0, dB := s.dB + 1 }) (pass : ExpandPass t)
  | done (next : t = finishDecompress { putByte (expansionByte s) s with dK := 0, dB := s.dB + 1 })
      (all : s.dO + 1 = s.dTotal) (written : outBytes t 0 s.dTotal = decodeBlocks (storedBlocks s))

theorem outBytes_putByte {s : State} (hwf : s.outMem.wf .out) (v : Byte) :
    outBytes (putByte v s) 0 (s.dO + 1) = outBytes s 0 s.dO ++ [v] := by
  simp only [outBytes, putByte_outMem]
  rw [readBytes_add, readBytes_write_outside hwf (by omega), Nat.zero_add, readBytes_succ, readBytes_zero,
    read_write_same hwf]

theorem expandByte_spec {s : State} (hwf : s.outMem.wf .out) (h : ExpandPass s) : ExpandedOn s (expandByte s) := by
  obtain ⟨hnext, hlt⟩ := decoded_next h
  have hpos := h.position
  have hput : outBytes (putByte (expansionByte s) s) 0 (s.dO + 1) = (decodeBlocks (storedBlocks s)).take (s.dO + 1) := by
    rw [outBytes_putByte hwf, h.written, List.take_add_one, hnext]; rfl
  unfold expandByte
  split
  · next hk =>
    refine .byte rfl ⟨h.running, ⟨hpos.1, hk⟩, ?_, ?_, ⟨?_, h.total.2⟩, ?_⟩
    · exact (storeUsable_congr (s := s) (by rfl) (by rfl) (by rfl)).trans h.usable
    · show s.dO + 1 = totalLen (blocksFrom _ 0 s.dB) + (s.dK + 1)
      rw [blocksFrom_congr (s := s) (by rfl), h.address]; omega
    · exact h.total.1.trans (congrArg totalLen (storedBlocks_congr (s := s) (by rfl) (by rfl)).symm)
    · exact hput.trans (congrArg (fun ks => (decodeBlocks ks).take (s.dO + 1))
        (storedBlocks_congr (s := s) (by rfl) (by rfl)).symm)
  · next hk =>
    have hlast : s.dK + 1 = lenOf (entryCtrl s s.dB) := by omega
    have haddr : s.dO + 1 = totalLen (blocksFrom s 0 (s.dB + 1)) := by
      rw [blocksFrom_succ_last, totalLen_append, h.address, Nat.zero_add]
      simp [totalLen]; omega
    show ExpandedOn s (endBlock (putByte (expansionByte s) s))
    by_cases hend : s.dB + 1 = s.nblk.toNat
    · rw [show endBlock (putByte (expansionByte s) s) = _ from if_pos hend]
      have hall : s.dO + 1 = s.dTotal := by rw [haddr, h.total.1, show s.dB + 1 = s.nblk.toNat from hend]; rfl
      refine .done rfl hall ?_
      rw [← hall]
      refine hput.trans ?_
      rw [List.take_of_length_le]
      rw [length_decodeBlocks, ← h.total.1]; omega
    · rw [show endBlock (putByte (expansionByte s) s) = _ from if_neg hend]
      refine .block rfl ⟨h.running, ⟨?_, lenOf_pos _⟩, ?_, ?_, ⟨?_, h.total.2⟩, ?_⟩
      · show s.dB + 1 < s.nblk.toNat
        omega
      · exact (storeUsable_congr (s := s) (by rfl) (by rfl) (by rfl)).trans h.usable
      · show s.dO + 1 = totalLen (blocksFrom _ 0 (s.dB + 1)) + 0
        rw [blocksFrom_congr (s := s) (by rfl), haddr]; rfl
      · exact h.total.1.trans (congrArg totalLen (storedBlocks_congr (s := s) (by rfl) (by rfl)).symm)
      · exact hput.trans (congrArg (fun ks => (decodeBlocks ks).take (s.dO + 1))
          (storedBlocks_congr (s := s) (by rfl) (by rfl)).symm)

/-! ### The expansion of a whole block -/

/-- The rest of a block at once is its next byte, and then the rest (R203, R72). -/
theorem expandBlock_next {s : State} (h : s.dK + 1 < lenOf (entryCtrl s s.dB)) :
    expandBlock (entryBlock s s.dB).expand s = expandBlock (entryBlock s s.dB).expand (expandByte s) := by
  have hk : s.dK < (entryBlock s s.dB).expand.length := by rw [expand_length, entryBlock_len]; omega
  have hdrop : (entryBlock s s.dB).expand.drop s.dK =
      expansionByte s :: (entryBlock s s.dB).expand.drop (s.dK + 1) := by
    rw [List.drop_eq_getElem_cons hk]
    congr 1
    have := expansionByte_eq (s := s) (by omega)
    rw [List.getElem?_eq_getElem hk] at this
    exact Option.some.inj this
  have he : expandByte s = { putByte (expansionByte s) s with dK := s.dK + 1 } := by simp only [expandByte, h, if_true]
  rw [he]
  unfold expandBlock
  simp only [hdrop, List.length_cons, Mem.writeBytes]
  unfold endBlock
  simp only [putByte]
  rw [show s.dO + ((List.drop (s.dK + 1) (entryBlock s s.dB).expand).length + 1) =
    s.dO + 1 + (List.drop (s.dK + 1) (entryBlock s s.dB).expand).length by omega]
  rfl

/-- The last byte of a block is the rest of the block. -/
theorem expandBlock_last {s : State} (h : s.dK + 1 = lenOf (entryCtrl s s.dB)) :
    expandBlock (entryBlock s s.dB).expand s = expandByte s := by
  have hk : s.dK < (entryBlock s s.dB).expand.length := by rw [expand_length, entryBlock_len]; omega
  have hdrop : (entryBlock s s.dB).expand.drop s.dK = [expansionByte s] := by
    rw [List.drop_eq_getElem_cons hk, List.drop_of_length_le (by rw [expand_length, entryBlock_len]; omega)]
    congr 1
    have := expansionByte_eq (s := s) (by omega)
    rw [List.getElem?_eq_getElem hk] at this
    exact Option.some.inj this
  unfold expandByte
  rw [if_neg (by omega)]
  unfold expandBlock
  simp only [hdrop]
  rfl

/-- A block executed at once is the block's X1 transitions one after the other (R72, R203). -/
theorem expandBlock_eq_run {n : Nat} {s : State} (hp : s.phase = .decExp) (hb : s.st = .busy)
    (h : s.dK + n + 1 = lenOf (entryCtrl s s.dB)) :
    (∀ j < n + 1, (runToEnd j s).st = .busy) ∧ expandBlock (entryBlock s s.dB).expand s = runToEnd (n + 1) s := by
  have htr : transition s = expandByte s := by simp only [transition, hp]
  induction n generalizing s with
  | zero =>
    refine ⟨fun j hj => ?_, ?_⟩
    · obtain rfl : j = 0 := by omega
      exact hb
    · rw [runToEnd_busy hb, runToEnd_zero, htr]; exact expandBlock_last (by omega)
  | succ n ih =>
    have he : expandByte s = { putByte (expansionByte s) s with dK := s.dK + 1 } := by
      unfold expandByte; rw [if_pos (by omega)]
    have := ih (s := expandByte s) (by rw [he]; exact hp) (by rw [he]; exact hb)
      (by rw [he]; show s.dK + 1 + n + 1 = lenOf (entryCtrl s s.dB); omega) (by rw [he]; simp only [transition, putByte, hp])
    refine ⟨fun j hj => ?_, ?_⟩
    · cases j with
      | zero => exact hb
      | succ j => rw [runToEnd_busy hb, htr]; exact this.1 j (by omega)
    · rw [runToEnd_busy hb, htr, ← this.2, expandBlock_next (by omega)]
      have hblk : (expandByte s).blkMem = s.blkMem := by rw [he]; rfl
      have hdb : (expandByte s).dB = s.dB := by rw [he]; rfl
      rw [entryBlock_congr hblk, hdb]

/-! ### DECOMPRESS -/

/-- The state after the start rule of DECOMPRESS, when there is data (R200). -/
def startedDecompress (s : State) : State :=
  { releaseOutput (setBusy 0x02#8 s) with dB := 0, dTotal := 0, dK := 0, dO := 0, phase := .decSum }

/-- A busy state of DECOMPRESS, with everything that DECOMPRESS does not write as in `s`. -/
structure Decompressing (s t : State) : Prop where
  busy : t.st = .busy
  mask : maskDecompress t = maskDecompress s
  pass : (t.phase = .decSum ∧ SumPass t) ∨ (t.phase = .decExp ∧ ExpandPass t ∧ t.outMem.wf .out)

/-- What DECOMPRESS leaves when it ends with a result (R190, R204). -/
structure Decompressed (s t : State) : Prop where
  phase : t.phase = .idle
  st : t.st = .done
  err : t.err = .none
  cmd : t.cmd = 0x02#8
  outValid : t.outValid = true
  outLen : t.outLen = BitVec.ofNat 64 (totalLen (storedBlocks s))
  written : outBytes t 0 (totalLen (storedBlocks s)) = decodeBlocks (storedBlocks s)
  fits : totalLen (storedBlocks s) ≤ s.cfg.outCap
  usable : storeUsable s = true

/-- What DECOMPRESS of data leaves when it ends (R190, R194). -/
structure DecompressEnded (s t : State) : Prop where
  mask : maskDecompress t = maskDecompress s
  result : Decompressed s t ∨
    (storeUsable s = false ∧ ∃ u, Decompressing s u ∧ t = raise .corruptStructure u) ∨
    (storeUsable s = true ∧ s.cfg.outCap < totalLen (storedBlocks s) ∧ ∃ u, Decompressing s u ∧ t = raise .allocationFailure u)

theorem Decompressing.stored {s t : State} (h : Decompressing s t) : storedBlocks t = storedBlocks s :=
  storedBlocks_congr (congrArg State.blkMem h.mask :) (congrArg State.nblk h.mask :)

theorem Decompressing.usable {s t : State} (h : Decompressing s t) : storeUsable t = storeUsable s :=
  storeUsable_congr (congrArg State.cfg h.mask :) (congrArg State.blkMem h.mask :) (congrArg State.nblk h.mask :)

theorem Decompressing.cmd {s t : State} (h : Decompressing s t) : t.cmd = 0x02#8 := by
  rcases h.pass with ⟨_, hs⟩ | ⟨_, hs, _⟩ <;> exact hs.running.1

/-- How many transitions DECOMPRESS still has to make (R207). -/
def decLeft (s t : State) : Nat :=
  match t.phase with
  | .decSum => s.nblk.toNat - t.dB + 1 + totalLen (storedBlocks s)
  | _ => totalLen (storedBlocks s) - t.dO

theorem Decompressing.next {s t : State} (h : Decompressing s t) :
    (Decompressing s (transition t) ∧ decLeft s (transition t) + 1 = decLeft s t) ∨
      (DecompressEnded s (transition t) ∧ (transition t).st ≠ .busy ∧
        (Decompressed s (transition t) → decLeft s t = 1)) := by
  have hn : t.nblk = s.nblk := (congrArg State.nblk h.mask :)
  have hcfg : t.cfg = s.cfg := (congrArg State.cfg h.mask :)
  rcases h.pass with ⟨hp, hs⟩ | ⟨hp, hs, hwf⟩
  · have htr : transition t = decSumStep t := by simp only [transition, hp]
    have hpos := hs.position
    rw [htr]
    rcases decSumStep_spec hs with ⟨he, hlt, hpass⟩ | ⟨he, hall, hpass⟩ | ⟨hbad, hf⟩ | ⟨hgood, hsmall, hf⟩
    · rw [he] at hpass ⊢
      refine .inl ⟨⟨h.busy, h.mask, .inl ⟨hp, hpass⟩⟩, ?_⟩
      simp only [decLeft, hp]; rw [← hn]; omega
    · rw [he] at hpass ⊢
      refine .inl ⟨⟨h.busy, h.mask, .inr ⟨rfl, hpass, forget_wf _ _⟩⟩, ?_⟩
      simp only [decLeft, hp]; rw [← hn]; omega
    · rw [hf]
      refine .inr ⟨⟨(maskDecompress_raise h.cmd _).trans h.mask, .inr (.inl ⟨h.usable ▸ hbad, t, h, rfl⟩)⟩, by simp, fun hd => ?_⟩
      have := hd.st; simp at this
    · rw [hf]
      refine .inr ⟨⟨(maskDecompress_raise h.cmd _).trans h.mask,
        .inr (.inr ⟨h.usable ▸ hgood, ?_, t, h, rfl⟩)⟩, by simp, fun hd => ?_⟩
      · rw [← h.stored, ← hcfg]; exact hsmall
      · have := hd.st; simp at this
  · have htr : transition t = expandByte t := by simp only [transition, hp]
    have hlt := (decoded_next hs).2
    rw [h.stored] at hlt
    rw [htr]
    rcases expandByte_spec hwf hs with ⟨he, hpass⟩ | ⟨he, hpass⟩ | ⟨he, hall, hw⟩
    · rw [he] at hpass ⊢
      refine .inl ⟨⟨h.busy, h.mask, .inr ⟨hp, hpass, write_wf hwf _ _⟩⟩, ?_⟩
      simp only [decLeft, hp, putByte]; omega
    · rw [he] at hpass ⊢
      refine .inl ⟨⟨h.busy, h.mask, .inr ⟨hp, hpass, write_wf hwf _ _⟩⟩, ?_⟩
      simp only [decLeft, hp, putByte]; omega
    · have htot := hs.total
      rw [h.stored] at htot hw
      rw [htot.1] at hw hall
      have hus := hs.usable
      refine .inr ⟨⟨?_, .inl ⟨?_, ?_, ?_, ?_, ?_, ?_, hw, ?_, h.usable ▸ hus⟩⟩, ?_, fun _ => ?_⟩
      · rw [he]; exact h.mask
      · rw [he]; rfl
      · rw [he]; rfl
      · rw [he]; rfl
      · rw [he]; exact h.cmd
      · rw [he]; rfl
      · rw [he, ← htot.1]; rfl
      · rw [← htot.1, ← hcfg]; exact htot.2
      · rw [he]; simp [finishDecompress]
      · simp only [decLeft, hp]; omega

theorem startedDecompress_decompressing {s : State} (h : noData s = false) : Decompressing s (startedDecompress s) :=
  ⟨rfl, rfl, .inl ⟨rfl, ⟨rfl, h, rfl⟩, Nat.zero_le _, rfl, rfl⟩⟩

/-- DECOMPRESS of data ends (R30). -/
theorem decompress_ends {s : State} (h : noData s = false) :
    ∃ k t, k ≤ s.nblk.toNat + 2 + totalLen (storedBlocks s) ∧ EndsAfter k (startedDecompress s) t ∧ DecompressEnded s t := by
  have := endsAfter_of_progress (I := Decompressing s) (Q := DecompressEnded s) (left := decLeft s)
    (fun t ht => ht.busy) (fun t ht => ?_) (startedDecompress_decompressing h)
    (n := s.nblk.toNat + 1 + totalLen (storedBlocks s)) (by simp [decLeft, startedDecompress])
  · obtain ⟨k, t, hk, ht⟩ := this
    exact ⟨k, t, by omega, ht⟩
  · rcases ht.next with ⟨hn, hp⟩ | ⟨he, hb, _⟩
    · exact .inl ⟨hn, by omega⟩
    · exact .inr ⟨he, hb⟩

/-- With usable entries and room for the output, DECOMPRESS ends with its result after exactly `NBLK + 1 + total` transitions
(R207). -/
theorem decompress_ends_exactly {s : State} (h : noData s = false) (hu : storeUsable s = true)
    (hfits : totalLen (storedBlocks s) ≤ s.cfg.outCap) :
    ∃ t, EndsAfter (s.nblk.toNat + 1 + totalLen (storedBlocks s)) (startedDecompress s) t ∧
      DecompressEnded s t ∧ Decompressed s t := by
  refine endsAfter_of_exact (I := Decompressing s) (Q := fun t => DecompressEnded s t ∧ Decompressed s t)
    (left := decLeft s) (fun t ht => ht.busy) (fun t ht => ?_) (startedDecompress_decompressing h)
    (by simp [decLeft, startedDecompress])
  rcases ht.next with ⟨hn, hp⟩ | ⟨he, hb, hc⟩
  · exact .inl ⟨hn, hp⟩
  · rcases he.result with hd | ⟨hbad, _⟩ | ⟨_, hbig, _⟩
    · exact .inr ⟨⟨he, hd⟩, hb, hc hd⟩
    · rw [hu] at hbad; cases hbad
    · omega

theorem beginCommand_code02 (s : State) : beginCommand 0x02#8 s = releaseOutput (setBusy 0x02#8 s) := by
  simp [beginCommand]

theorem exec_decompress {s : State} (hst : s.st ≠ .busy) :
    exec .decompress s = .next (runCommand (startDecompress (beginCommand 0x02#8 s))) := by
  simp [exec, execDecompress, command, hst]

/-- DECOMPRESS without data (R194). -/
theorem exec_decompress_noData {s : State} (hst : s.st ≠ .busy) (h : noData s = true) :
    exec .decompress s = .next (raise .invalidInput (releaseOutput (setBusy 0x02#8 s))) := by
  have : startDecompress (beginCommand 0x02#8 s) = raise .invalidInput (releaseOutput (setBusy 0x02#8 s)) := by
    rw [beginCommand_code02, startDecompress, if_pos]
    exact h
  rw [exec_decompress hst, this, runCommand, runToEnd_stopped (by simp)]

theorem startDecompress_ok {s : State} (h : noData s = false) :
    startDecompress (beginCommand 0x02#8 s) = startedDecompress s := by
  rw [beginCommand_code02, startDecompress, if_neg]
  · rfl
  · show ¬ noData s = true
    simp [h]

/-- DECOMPRESS of data (R190, R194). -/
theorem exec_decompress_data {s : State} (hst : s.st ≠ .busy) (h : noData s = false) :
    ∃ t, exec .decompress s = .next t ∧ DecompressEnded s t := by
  obtain ⟨k, t, hk, he, hc⟩ := decompress_ends h
  refine ⟨t, ?_, hc⟩
  rw [exec_decompress hst, startDecompress_ok h, runCommand, he.run]
  have h1 : (startedDecompress s).nblk = s.nblk := rfl
  have h2 := totalLen_blocksFrom_le s 0 s.nblk.toNat
  rw [fuelFor, h1]
  simp only [storedBlocks] at hk
  omega

end Sys2Proof.Machine
end

