-- ==== Sys2Proof/Laws/Writer.lean ====
section
/-! SUPPORT. The pre-check of SERIALIZE, what one transition of the stream writer can do (44_stream.md R224, R225), and
SERIALIZE as a whole (R222, R223). -/

namespace Sys2Proof.Machine

/-! ### The pre-check -/

/-- The pre-check sums the sizes, or stops at the first entry that is not usable (R224). -/
theorem checkEntries_eq (s : State) (b total n : Nat) :
    checkEntries s b total n = if allUsable s b n then some (total + totalSize (blocksFrom s b n)) else none := by
  induction n generalizing b total with
  | zero => simp [checkEntries, allUsable, blocksFrom, totalSize]
  | succ n ih =>
    simp only [checkEntries, allUsable, blocksFrom, totalSize, entryBlock_ctrl]
    by_cases h : usable s b = true
    · rw [if_pos h, ih, h, Bool.true_and, Nat.add_assoc]
    · rw [if_neg h, if_neg (by simp [h])]

/-! ### The write loop -/

/-- The state without what SERIALIZE writes. -/
def maskSerialize (s : State) : State :=
  { s with
    cmd := 0#8, st := .idle, err := .none, strPresent := false, strLen := 0#64, phase := .idle, dTotal := 0, sB := 0, sP := 0
    strMem := emptyMem }

theorem strBytes_congr {s t : State} (h : t.strMem = s.strMem) (a n : Nat) : strBytes t a n = strBytes s a n := by
  simp [strBytes, h]

@[simp] theorem length_strBytes (s : State) (a n : Nat) : (strBytes s a n).length = n := by simp [strBytes]

/-- What one transition of the write loop leaves (R225, R226). -/
inductive WrittenOn (s t : State) : Prop where
  | block (next : t = writeBlock s) (more : s.sB < s.nblk.toNat) (pass : WritePass t)
  | done (next : t = finishSerialize s) (all : s.sP = 4 + totalSize (storedBlocks s))
      (written : strBytes s 0 s.sP = le32 s.nblk ++ serializeBlocks (storedBlocks s))

theorem entryBytes_length (s : State) (b : Nat) : (entryCtrl s b :: entryPayload s b).length = ssize (entryCtrl s b) := by
  simp [entryPayload, entryPay, entryNeed, ssize]; omega

theorem totalSize_cut {s : State} {b : Nat} (h : b < s.nblk.toNat) :
    totalSize (blocksFrom s 0 b) + ssize (entryCtrl s b) ≤ totalSize (storedBlocks s) := by
  rw [storedBlocks_cut h, totalSize_append, totalSize, entryBlock_ctrl]; omega

theorem serStep_spec {s : State} (hwf : s.strMem.wf .str) (h : WritePass s) : WrittenOn s (serStep s) := by
  have hpos := h.position
  unfold serStep
  split
  · next hlt =>
    refine .block rfl hlt ⟨h.running, hlt, ?_, ?_, ⟨?_, h.total.2⟩, ?_⟩
    · exact (storeUsable_congr (s := s) (by rfl) (by rfl) (by rfl)).trans h.usable
    · show s.sP + (entryCtrl s s.sB :: entryPayload s s.sB).length = 4 + totalSize (blocksFrom _ 0 (s.sB + 1))
      rw [blocksFrom_congr (s := s) (by rfl), blocksFrom_succ_last, totalSize_append, h.address, entryBytes_length,
        Nat.zero_add]
      simp [totalSize]; omega
    · exact h.total.1.trans (congrArg totalSize (storedBlocks_congr (s := s) (by rfl) (by rfl)).symm)
    · show (s.strMem.writeBytes .str s.sP (entryCtrl s s.sB :: entryPayload s s.sB)).readBytes .str 0
        (s.sP + (entryCtrl s s.sB :: entryPayload s s.sB).length) = le32 s.nblk ++ serializeBlocks (blocksFrom _ 0 (s.sB + 1))
      rw [readBytes_add, readBytes_writeBytes_outside hwf _ (by omega), Nat.zero_add, readBytes_writeBytes hwf,
        blocksFrom_congr (s := s) (by rfl), blocksFrom_succ_last, serializeBlocks_append, ← List.append_assoc, ← h.written,
        Nat.zero_add]
      simp [serializeBlocks, strBytes]
  · next hlt =>
    have heq : s.sB = s.nblk.toNat := by omega
    refine .done rfl ?_ ?_
    · rw [h.address, heq]; rfl
    · rw [h.written, heq]; rfl

/-! ### SERIALIZE -/

/-- The end of SERIALIZE without a result: nothing but `CMD`, `STATUS` and `ERR` has changed (R222, R292). -/
def serializeFailed (k : ErrKind) (s : State) : State := { s with cmd := 0x04#8, st := .fail, err := k, phase := .idle }

/-- SERIALIZE at its start (R224). -/
def beginSerialize (s : State) : State := { setBusy 0x04#8 s with phase := .ser }

/-- The state after the header is written (R225). -/
def startedSerialize (s : State) : State := writeHeader (totalSize (storedBlocks s)) (beginSerialize s)

theorem raise_beginSerialize (k : ErrKind) (s : State) : raise k (beginSerialize s) = serializeFailed k s := rfl

theorem beginCommand_code04 (s : State) : beginCommand 0x04#8 s = setBusy 0x04#8 s := by simp [beginCommand]

/-- The start rule of SERIALIZE, by the four conditions of R223 in their order. -/
theorem startSerialize_eq (s : State) : startSerialize (beginCommand 0x04#8 s) =
    if noData s then serializeFailed .invalidInput s
    else if s.strWritable = false then serializeFailed .ioFailure s
    else if storeUsable s = false then serializeFailed .corruptStructure s
    else if s.cfg.strCap < 4 + totalSize (storedBlocks s) then serializeFailed .ioFailure s
    else startedSerialize s := by
  have hcheck : checkEntries (beginSerialize s) 0 0 s.nblk.toNat =
      if storeUsable s then some (totalSize (storedBlocks s)) else none := by
    rw [checkEntries_eq, allUsable_congr (s := s) (by rfl) (by rfl), blocksFrom_congr (s := s) (by rfl), Nat.zero_add]
    rfl
  have hpre : preCheck (beginSerialize s) =
      if storeUsable s = false then serializeFailed .corruptStructure s
      else if s.cfg.strCap < 4 + totalSize (storedBlocks s) then serializeFailed .ioFailure s else startedSerialize s := by
    unfold preCheck
    rw [show (beginSerialize s).nblk = s.nblk from rfl, hcheck]
    cases storeUsable s <;> rfl
  rw [beginCommand_code04, ← hpre]
  cases hd : noData s
  · cases hw : s.strWritable
    · refine (if_neg (show ¬ noData s = true by simp [hd])).trans (if_pos ?_)
      show (!s.strWritable) = true
      rw [hw]; rfl
    · refine (if_neg (show ¬ noData s = true by simp [hd])).trans (if_neg ?_)
      show ¬ (!s.strWritable) = true
      rw [hw]; decide
  · exact if_pos hd

theorem exec_serialize {s : State} (hst : s.st ≠ .busy) :
    exec .serialize s = .next (runCommand (startSerialize (beginCommand 0x04#8 s))) := by
  simp [exec, execSerialize, command, hst]

theorem runCommand_serializeFailed (k : ErrKind) (s : State) :
    runCommand (serializeFailed k s) = serializeFailed k s := runToEnd_stopped (by simp [serializeFailed]) _

/-- A busy state of SERIALIZE that started in `s`, with its pass. -/
structure Serializing (s t : State) : Prop where
  busy : t.st = .busy
  phase : t.phase = .ser
  mask : maskSerialize t = maskSerialize s
  wf : t.strMem.wf .str
  pass : WritePass t

/-- What SERIALIZE leaves when it ends with a result (R222, R226). -/
structure Serialized (s t : State) : Prop where
  mask : maskSerialize t = maskSerialize s
  phase : t.phase = .idle
  st : t.st = .done
  err : t.err = .none
  cmd : t.cmd = 0x04#8
  present : t.strPresent = true
  length : t.strLen = BitVec.ofNat 64 (4 + totalSize (storedBlocks s))
  written : strBytes t 0 (4 + totalSize (storedBlocks s)) = le32 s.nblk ++ serializeBlocks (storedBlocks s)

theorem Serializing.stored {s t : State} (h : Serializing s t) : storedBlocks t = storedBlocks s :=
  storedBlocks_congr (congrArg State.blkMem h.mask :) (congrArg State.nblk h.mask :)

theorem Serializing.next {s t : State} (h : Serializing s t) :
    (Serializing s (transition t) ∧ s.nblk.toNat - (transition t).sB < s.nblk.toNat - t.sB) ∨
      (Serialized s (transition t) ∧ (transition t).st ≠ .busy) := by
  have hn : t.nblk = s.nblk := (congrArg State.nblk h.mask :)
  have htr : transition t = serStep t := by simp only [transition, h.phase]
  rw [htr]
  rcases serStep_spec h.wf h.pass with ⟨he, hlt, hpass⟩ | ⟨he, hall, hw⟩
  · rw [hn] at hlt
    refine .inl ⟨⟨?_, ?_, ?_, ?_, hpass⟩, ?_⟩
    · rw [he]; exact h.busy
    · rw [he]; exact h.phase
    · rw [he]; exact h.mask
    · rw [he]; exact writeBytes_wf _ h.wf _
    · rw [he]
      show s.nblk.toNat - (t.sB + 1) < s.nblk.toNat - t.sB
      omega
  · rw [h.stored] at hall hw
    rw [hn, hall] at hw
    rw [he]
    refine .inr ⟨⟨h.mask, rfl, rfl, rfl, h.pass.running.1, rfl, ?_, hw⟩, by simp [finishSerialize]⟩
    rw [← hall]; rfl

theorem startedSerialize_serializing {s : State} (hd : noData s = false) (hw : s.strWritable = true)
    (hu : storeUsable s = true) (hf : 4 + totalSize (storedBlocks s) ≤ s.cfg.strCap) :
    Serializing s (startedSerialize s) := by
  refine ⟨rfl, rfl, rfl, writeBytes_wf _ (forget_wf _ _) _, ⟨rfl, hd, hw⟩, Nat.zero_le _, ?_, rfl, ⟨?_, hf⟩, ?_⟩
  · exact (storeUsable_congr (s := s) (by rfl) (by rfl) (by rfl)).trans hu
  · exact congrArg totalSize (storedBlocks_congr (s := s) (by rfl) (by rfl)).symm
  · have := readBytes_writeBytes (forget_wf .str s.strMem) 0 (le32 s.nblk)
    rw [length_le32] at this
    exact this.trans (List.append_nil _).symm

/-- SERIALIZE with none of the conditions of R223 (R222). -/
theorem exec_serialize_good {s : State} (hst : s.st ≠ .busy) (hd : noData s = false) (hw : s.strWritable = true)
    (hu : storeUsable s = true) (hf : 4 + totalSize (storedBlocks s) ≤ s.cfg.strCap) :
    ∃ t, exec .serialize s = .next t ∧ Serialized s t := by
  obtain ⟨k, t, hk, he, hc⟩ := endsAfter_of_progress (I := Serializing s) (Q := Serialized s)
    (left := fun t => s.nblk.toNat - t.sB) (fun t ht => ht.busy) (fun t ht => ht.next)
    (n := s.nblk.toNat) (startedSerialize_serializing hd hw hu hf) (Nat.sub_le _ _)
  refine ⟨t, ?_, hc⟩
  have hstart : startSerialize (beginCommand 0x04#8 s) = startedSerialize s := by
    rw [startSerialize_eq, if_neg (by simp [hd]), if_neg (by simp [hw]), if_neg (by simp [hu]), if_neg (by omega)]
  rw [exec_serialize hst, hstart, runCommand, he.run]
  have : (startedSerialize s).nblk = s.nblk := rfl
  rw [fuelFor, this]
  omega

end Sys2Proof.Machine
end

