-- ==== Sys2Proof/Laws/Reader.lean ====
section
/-! SUPPORT. What one transition of the stream reader can do (44_stream.md R233 to R238), and DESERIALIZE as a whole (R230,
R239). -/

namespace Sys2Proof.Machine

/-! ### The bytes of the stream -/

theorem stream_congr {s t : State} (hm : t.strMem = s.strMem) (hl : t.strLen = s.strLen) : stream t = stream s := by
  simp [stream, hl, strBytes_congr hm]

@[simp] theorem length_stream (s : State) : (stream s).length = s.strLen.toNat := by simp [stream]

/-- The bytes ahead are the first ones of the rest of the stream. -/
theorem bytesAhead_eq (s : State) (h : s.sP ≤ s.strLen.toNat) : bytesAhead s = ((stream s).drop s.sP).take longestInstr := by
  rw [bytesAhead, stream, strBytes, strBytes, drop_readBytes _ _ _ _ _ h, Nat.zero_add]
  by_cases hl : longestInstr ≤ s.strLen.toNat - s.sP
  · rw [take_readBytes _ _ _ _ _ hl, Nat.min_eq_left hl]
  · rw [List.take_of_length_le (by simp; omega), Nat.min_eq_right (by omega)]

/-- The header bytes are the first ones of the stream. -/
theorem headerBytes_eq (s : State) : strBytes s 0 (min 4 s.strLen.toNat) = (stream s).take 4 := by
  rw [stream, strBytes, strBytes]
  by_cases hl : 4 ≤ s.strLen.toNat
  · rw [take_readBytes _ _ _ _ _ hl, Nat.min_eq_left hl]
  · rw [List.take_of_length_le (by simp; omega), Nat.min_eq_right (by omega)]

/-! ### The parser, from the header -/

theorem parseStream_short {cap : Nat} {bytes : List Byte} (h : bytes.length < 4) :
    parseStream cap bytes = .error .malformedStream := by
  match bytes with
  | [] => rfl
  | [_] => rfl
  | [_, _] => rfl
  | [_, _, _] => rfl
  | _ :: _ :: _ :: _ :: _ => simp at h; omega

theorem parseStream_le32 (cap : Nat) (c : Word32) (rest : List Byte) :
    parseStream cap (le32 c ++ rest) =
      if c.toInt ≤ 0 then .error .malformedCount
      else if cap < c.toNat then .error .allocationFailure
      else parseBlocks c.toNat rest := by
  obtain ⟨b0, b1, b2, b3, hb, hc⟩ := le32_bytes c
  rw [hb]
  show parseStream cap (b0 :: b1 :: b2 :: b3 :: rest) = _
  rw [parseStream, hc]

theorem header_cases (bytes : List Byte) :
    bytes.length < 4 ∨ ∃ c : Word32, bytes = le32 c ++ bytes.drop 4 ∧
      decodeHeader (bytes.take 4) = .ok (.count c, []) := by
  match bytes with
  | [] => exact .inl (by simp)
  | [_] => exact .inl (by simp)
  | [_, _] => exact .inl (by simp)
  | [_, _, _] => exact .inl (by simp)
  | b0 :: b1 :: b2 :: b3 :: rest =>
    refine .inr ⟨unle32 b0 b1 b2 b3, ?_, rfl⟩
    have h0 := b0.isLt; have h1 := b1.isLt; have h2 := b2.isLt; have h3 := b3.isLt
    have hn := toNat_unle32 b0 b1 b2 b3
    have : le32 (unle32 b0 b1 b2 b3) = [b0, b1, b2, b3] := by
      simp only [le32, List.cons.injEq, and_true]
      refine ⟨?_, ?_, ?_, ?_⟩ <;> apply BitVec.eq_of_toNat_eq <;>
        simp only [BitVec.extractLsb'_toNat, Nat.shiftRight_eq_div_pow, hn] <;> omega
    rw [this]; rfl

/-- A positive count is its own magnitude. -/
theorem toNat_of_pos {c : Word32} (h : 0 < c.toInt) : 0 < c.toNat ∧ c.toNat < 2 ^ 31 := by
  have := c.isLt
  rw [BitVec.toInt_eq_toNat_cond] at h
  split at h <;> omega

/-- The parser fails under a name. -/
theorem parseStream_error_ne {cap : Nat} {bytes : List Byte} : parseStream cap bytes ≠ .error .none := by
  rcases header_cases bytes with hshort | ⟨c, hs, _⟩
  · rw [parseStream_short hshort]; simp
  · rw [hs, parseStream_le32]
    split_ifs
    · simp
    · simp
    · intro hcon; cases parseBlocks_error hcon

/-! ### One transition -/

/-- The state without what DESERIALIZE writes. -/
def maskDeserialize (s : State) : State :=
  { s with
    cmd := 0#8, st := .idle, err := .none, cdValid := false, nblk := 0#32, phase := .idle, sB := 0, sP := 0, sCnt := 0#32
    blkMem := emptyMem }

theorem maskDeserialize_raise {s : State} (h : s.cmd = 0x05#8) (k : ErrKind) :
    maskDeserialize (raise k s) = maskDeserialize s := by
  simp [raise, cleanUp, h, maskDeserialize, releaseStore, setFail]

/-- The end of DESERIALIZE with a result (R230, R238). -/
structure Deserialized (s t : State) : Prop where
  phase : t.phase = .idle
  st : t.st = .done
  err : t.err = .none
  cmd : t.cmd = 0x05#8
  cdValid : t.cdValid = true
  blocks : parseStream s.cfg.blkCap (stream s) = .ok (storedBlocks t, (stream s).drop t.sP)
  wellFormed : allWellFormed t 0 t.nblk.toNat = true
  rest : ∀ b, t.nblk.toNat ≤ b → entryPresent t b = false

/-- How many transitions the reader can still make. -/
def readLeft (s : State) : Nat := if s.sP = 0 then s.cfg.blkCap + 1 else s.sCnt.toNat - s.sB

/-- What one transition of the reader leaves. -/
inductive ReadOn (s t : State) : Prop where
  | more (phase : t.phase = .des) (st : t.st = .busy) (err : t.err = s.err) (pass : ReadPass t) (left : readLeft t < readLeft s)
  | done (result : Deserialized s t) (inside : t.sB ≤ s.cfg.blkCap ∧ t.sP ≤ s.strLen.toNat)
  | failed (u : State) (k : ErrKind) (start : u = { s with sCnt := u.sCnt, sP := u.sP }) (position : u.sP = s.sP ∨ u.sP = 4)
      (why : parseStream s.cfg.blkCap (stream s) = .error k) (fails : t = raise k u)

/-- The instruction the reader fetches, once it is past the header (R235, R236). -/
theorem fetch_block {s : State} (hp : s.phase = .des) (h0 : s.sP ≠ 0) (hle : s.sP ≤ s.strLen.toNat) :
    fetch s = match decodeBlock ((stream s).drop s.sP) with
      | .ok (i, _) => .instr i
      | .error _ => .fails .malformedStream := by
  simp only [fetch, hp, h0, if_false, fetchFrom, decode, bytesAhead_eq s hle, decodeBlock_take]
  cases decodeBlock ((stream s).drop s.sP) <;> rfl

/-- The reader's transition on a block (R235). -/
theorem desStep_block {s : State} {k : Block} (h : fetch s = .instr k.instr) :
    desStep s = loadBlock k.ctrl k.payload s := by
  unfold desStep
  rw [h]
  cases k <;> rfl

/-- Storing the next block of the stream (R235, R238). -/
theorem loadBlock_spec {s : State} (hp : s.phase = .des) (hb : s.st = .busy) (hwf : s.blkMem.wf .blk) (h : ReadPass s)
    (h0 : s.sP ≠ 0) {k : Block} {rest : List Byte} (hk : lengthOk k.len = true)
    (hd : (stream s).drop s.sP = k.ctrl :: (k.payload ++ rest)) :
    maskDeserialize (loadBlock k.ctrl k.payload s) = maskDeserialize s ∧
      (loadBlock k.ctrl k.payload s).blkMem.wf .blk ∧
      ((∀ c ∈ s.blkMem.cells, c.1 < entrySize * s.cfg.blkCap) →
        ∀ c ∈ (loadBlock k.ctrl k.payload s).blkMem.cells, c.1 < entrySize * s.cfg.blkCap) ∧
      ReadOn s (loadBlock k.ctrl k.payload s) := by
  rcases h.position with ⟨hz, _⟩ | ⟨h4, hle, hhead, hpos, hcap, hlt, hall, hparse⟩
  · exact absurd hz h0
  have hm : ∀ t : State, t = loadBlock k.ctrl k.payload s → t.blkMem = (storeEntry s.sB k.ctrl k.payload s).blkMem := by
    rintro t rfl
    unfold loadBlock
    split <;> rfl
  have hwf' := storeEntry_wf hwf s.sB k.ctrl k.payload
  have hblocks := blocksFrom_storeEntry hwf s.sB hk
  have hall' := allWellFormed_storeEntry hwf (show s.sB < s.cfg.blkCap by omega) hk hall
  have hrest : ∀ b, s.sB + 1 ≤ b → entryPresent (storeEntry s.sB k.ctrl k.payload s) b = false := fun b hb =>
    (entryPresent_storeEntry_ne hwf (by omega) _ (payload_length_le hk)).trans (h.rest b (by omega))
  have hlen := congrArg List.length hd
  rw [List.length_drop, length_stream, List.length_cons, List.length_append] at hlen
  have hdrop : (stream s).drop (s.sP + 1 + k.payload.length) = rest := by
    rw [show s.sP + 1 + k.payload.length = s.sP + (1 + k.payload.length) by omega, ← List.drop_drop, hd, Nat.add_comm 1]
    simp
  have hparse' : parseBlocks (s.sB + 1) ((stream s).drop 4) = .ok (blocksFrom s 0 s.sB ++ [k], rest) := by
    rw [parseBlocks_add hparse 1, hd, show (1 : Nat) = 0 + 1 from rfl, parseBlocks_cons hk]
    rfl
  refine ⟨?_, (hm _ rfl).symm ▸ hwf', fun hc => ?_, ?_⟩
  · unfold loadBlock; split <;> rfl
  · rw [hm _ rfl]; exact storeEntry_bound hc (by omega) _ (payload_length_le hk)
  · by_cases hend : s.sCnt.toNat ≤ s.sB + 1
    · have hcnt : s.sCnt.toNat = s.sB + 1 := by omega
      have hform : loadBlock k.ctrl k.payload s = finishDeserialize
          { storeEntry s.sB k.ctrl k.payload s with sP := s.sP + 1 + k.payload.length, sB := s.sB + 1 } := if_pos hend
      rw [hform]
      refine .done ⟨rfl, rfl, rfl, h.running.1, rfl, ?_, ?_, ?_⟩ ⟨?_, ?_⟩
      · have hs : stream s = le32 s.sCnt ++ (stream s).drop 4 := by rw [← hhead, List.take_append_drop]
        rw [hs, parseStream_le32, if_neg (by omega), if_neg (by omega), hcnt, hparse', ← hs]
        refine congrArg Except.ok (Prod.ext ?_ hdrop.symm)
        show _ = blocksFrom _ 0 s.sCnt.toNat
        rw [hcnt, ← hblocks]
        exact (blocksFrom_congr (by rfl) _ _).symm
      · show allWellFormed _ 0 s.sCnt.toNat = true
        rw [hcnt]
        exact (allWellFormed_congr (by rfl) (by rfl) _ _).trans hall'
      · intro b hb'
        have : s.sCnt.toNat ≤ b := hb'
        exact (entryPresent_congr (by rfl) (by rfl) b).trans (hrest b (by omega))
      · show s.sB + 1 ≤ s.cfg.blkCap
        omega
      · show s.sP + 1 + k.payload.length ≤ s.strLen.toNat
        omega
    · have hform : loadBlock k.ctrl k.payload s =
          { storeEntry s.sB k.ctrl k.payload s with sP := s.sP + 1 + k.payload.length, sB := s.sB + 1 } := if_neg hend
      rw [hform]
      refine .more hp hb rfl ⟨h.running, fun b hb' => ?_, .inr ⟨?_, ?_, hhead, hpos, hcap, ?_, ?_, ?_⟩⟩ ?_
      · exact (entryPresent_congr (by rfl) (by rfl) b).trans (hrest b hb')
      · show 4 ≤ s.sP + 1 + k.payload.length
        omega
      · show s.sP + 1 + k.payload.length ≤ s.strLen.toNat
        omega
      · show s.sB + 1 < s.sCnt.toNat
        omega
      · exact (allWellFormed_congr (by rfl) (by rfl) _ _).trans hall'
      · show parseBlocks (s.sB + 1) ((stream s).drop 4) = .ok (blocksFrom _ 0 (s.sB + 1), (stream s).drop (s.sP + 1 + k.payload.length))
        rw [hparse', hdrop, ← hblocks]
        exact congrArg (fun ks => Except.ok (ks, rest)) (blocksFrom_congr (by rfl) _ _).symm
      · show (if s.sP + 1 + k.payload.length = 0 then s.cfg.blkCap + 1 else s.sCnt.toNat - (s.sB + 1)) < readLeft s
        rw [if_neg (by omega), readLeft, if_neg h0]
        omega

/-- The reader's transition on the header (R233, R234). -/
theorem acceptCount_spec {s : State} (hp : s.phase = .des) (hb : s.st = .busy) (h : ReadPass s) (h0 : s.sP = 0) {c : Word32}
    (hs : stream s = le32 c ++ (stream s).drop 4) :
    maskDeserialize (acceptCount c s) = maskDeserialize s ∧ ReadOn s (acceptCount c s) := by
  have hcmd := h.running.1
  rcases h.position with ⟨_, hz⟩ | ⟨h4, _⟩
  swap
  · omega
  have hlen := congrArg List.length hs
  rw [length_stream, List.length_append, length_le32] at hlen
  unfold acceptCount
  simp only
  by_cases h1 : c.toInt ≤ 0
  · rw [if_pos h1]
    refine ⟨maskDeserialize_raise (s := { s with sCnt := c, sP := 4 }) hcmd _,
        .failed { s with sCnt := c, sP := 4 } _ rfl (.inr rfl) ?_ rfl⟩
    rw [hs, parseStream_le32, if_pos h1]
  · rw [if_neg h1]
    by_cases h2 : s.cfg.blkCap < c.toNat
    · rw [if_pos h2]
      refine ⟨maskDeserialize_raise (s := { s with sCnt := c, sP := 4 }) hcmd _,
        .failed { s with sCnt := c, sP := 4 } _ rfl (.inr rfl) ?_ rfl⟩
      rw [hs, parseStream_le32, if_neg h1, if_pos h2]
    · rw [if_neg h2]
      have hcpos := toNat_of_pos (c := c) (by omega)
      refine ⟨rfl, .more hp hb rfl ⟨h.running, h.rest, .inr ⟨Nat.le_refl 4, ?_, ?_, ?_, ?_, ?_, ?_, ?_⟩⟩ ?_⟩
      · show 4 ≤ s.strLen.toNat
        omega
      · show (stream s).take 4 = le32 c
        rw [hs, List.take_left' (length_le32 c)]
      · show 0 < c.toInt
        omega
      · show c.toNat ≤ s.cfg.blkCap
        omega
      · show s.sB < c.toNat
        omega
      · show allWellFormed _ 0 s.sB = true
        rw [hz]; rfl
      · show parseBlocks s.sB ((stream s).drop 4) = .ok (blocksFrom _ 0 s.sB, (stream s).drop 4)
        rw [hz]; rfl
      · show (if (4 : Nat) = 0 then s.cfg.blkCap + 1 else c.toNat - s.sB) < readLeft s
        rw [if_neg (by decide), readLeft, if_pos h0]
        omega

/-- Everything one transition of the reader can do. -/
theorem desStep_spec {s : State} (hp : s.phase = .des) (hb : s.st = .busy) (hwf : s.blkMem.wf .blk) (h : ReadPass s) :
    maskDeserialize (desStep s) = maskDeserialize s ∧ (desStep s).blkMem.wf .blk ∧
      ((∀ c ∈ s.blkMem.cells, c.1 < entrySize * s.cfg.blkCap) →
        ∀ c ∈ (desStep s).blkMem.cells, c.1 < entrySize * s.cfg.blkCap) ∧ ReadOn s (desStep s) := by
  have hcmd := h.running.1
  have hraise : ∀ k, (raise k s).blkMem = s.blkMem.forget := fun k => by simp [raise, cleanUp, hcmd, setFail]
  have hfail : ∀ k, desStep s = raise k s → parseStream s.cfg.blkCap (stream s) = .error k →
      maskDeserialize (desStep s) = maskDeserialize s ∧ (desStep s).blkMem.wf .blk ∧
        ((∀ c ∈ s.blkMem.cells, c.1 < entrySize * s.cfg.blkCap) →
          ∀ c ∈ (desStep s).blkMem.cells, c.1 < entrySize * s.cfg.blkCap) ∧ ReadOn s (desStep s) := by
    intro k hk hpk
    rw [hk, hraise]
    exact ⟨maskDeserialize_raise hcmd k, forget_wf _ _, fun _ c hc => absurd hc (by simp [Mem.forget]), .failed s k rfl (.inl rfl) hpk rfl⟩
  by_cases h0 : s.sP = 0
  · have hfetch : fetch s = fetchFrom .header ((stream s).take 4) := by
      simp only [fetch, hp, h0, if_true, inOrder_eq, headerBytes_eq]
    rcases header_cases (stream s) with hshort | ⟨c, hs, hdec⟩
    · have hl : (stream s).take 4 = stream s := List.take_of_length_le (by omega)
      refine hfail .malformedStream ?_ (parseStream_short hshort)
      have hf : fetch s = .fails .malformedStream := by
        rw [hfetch, hl]
        revert hshort
        match stream s with
        | [] => intro _; rfl
        | [_] => intro _; rfl
        | [_, _] => intro _; rfl
        | [_, _, _] => intro _; rfl
        | _ :: _ :: _ :: _ :: _ => intro hshort; simp at hshort; omega
      unfold desStep; rw [hf]
    · have hf : fetch s = .instr (.count c) := by rw [hfetch]; simp only [fetchFrom, decode, hdec]
      have hstep : desStep s = acceptCount c s := by unfold desStep; rw [hf]
      have hblk : (acceptCount c s).blkMem = s.blkMem ∨ (acceptCount c s).blkMem = s.blkMem.forget := by
        unfold acceptCount
        simp only
        split
        · exact .inr (by simp [raise, cleanUp, hcmd, setFail])
        · split
          · exact .inr (by simp [raise, cleanUp, hcmd, setFail])
          · exact .inl rfl
      rw [hstep]
      obtain ⟨hmask, hon⟩ := acceptCount_spec hp hb h h0 hs
      refine ⟨hmask, ?_, fun hc => ?_, hon⟩
      · rcases hblk with hblk | hblk <;> rw [hblk]
        · exact hwf
        · exact forget_wf _ _
      · rcases hblk with hblk | hblk <;> rw [hblk]
        · exact hc
        · exact fun c hc => absurd hc (by simp [Mem.forget])
  · rcases h.position with ⟨hz, _⟩ | ⟨h4, hle, hhead, hpos, hcap, hlt, hall, hparse⟩
    · exact absurd hz h0
    have hf := fetch_block hp h0 hle
    cases hd : decodeBlock ((stream s).drop s.sP) with
    | error e =>
      rw [hd] at hf
      refine hfail .malformedStream (by unfold desStep; rw [hf]) ?_
      have hs : stream s = le32 s.sCnt ++ (stream s).drop 4 := by rw [← hhead, List.take_append_drop]
      rw [hs, parseStream_le32, if_neg (by omega), if_neg (by omega),
        show s.sCnt.toNat = s.sB + ((s.sCnt.toNat - s.sB - 1) + 1) by omega, parseBlocks_add hparse, parseBlocks_short hd]
      rfl
    | ok r =>
      obtain ⟨i, rest⟩ := r
      obtain ⟨k, rfl, hk, hbytes⟩ := decodeBlock_ok_block hd
      rw [hd] at hf
      rw [desStep_block hf]
      exact loadBlock_spec hp hb hwf h h0 hk hbytes

/-! ### DESERIALIZE -/

/-- The state after the start rule of DESERIALIZE, when a stream is present (R232). -/
def startedDeserialize (s : State) : State :=
  { releaseStore (setBusy 0x05#8 s) with phase := .des, sP := 0, sB := 0 }

/-- A busy state of DESERIALIZE that started in `s`, with its pass. -/
structure Deserializing (s t : State) : Prop where
  busy : t.st = .busy
  phase : t.phase = .des
  mask : maskDeserialize t = maskDeserialize s
  wf : t.blkMem.wf .blk
  bound : ∀ c ∈ t.blkMem.cells, c.1 < entrySize * s.cfg.blkCap
  pass : ReadPass t

/-- What DESERIALIZE of a stream leaves when it ends (R230, R239). -/
structure DeserializeEnded (s t : State) : Prop where
  mask : maskDeserialize t = maskDeserialize s
  bound : ∀ c ∈ t.blkMem.cells, c.1 < entrySize * s.cfg.blkCap
  result : Deserialized s t ∨
    ∃ k u, parseStream s.cfg.blkCap (stream s) = .error k ∧ u.cmd = 0x05#8 ∧ maskDeserialize u = maskDeserialize s ∧
      t = raise k u

theorem stream_of_mask {s t : State} (h : maskDeserialize t = maskDeserialize s) : stream t = stream s :=
  stream_congr (congrArg State.strMem h :) (congrArg State.strLen h :)

theorem Deserializing.next {s t : State} (h : Deserializing s t) :
    (Deserializing s (transition t) ∧ readLeft (transition t) < readLeft t) ∨
      (DeserializeEnded s (transition t) ∧ (transition t).st ≠ .busy) := by
  have hcfg : t.cfg = s.cfg := (congrArg State.cfg h.mask :)
  have htr : transition t = desStep t := by simp only [transition, h.phase]
  have hstream := stream_of_mask h.mask
  rw [htr]
  obtain ⟨hmask, hwf, hbound, hon⟩ := desStep_spec h.phase h.busy h.wf h.pass
  have hb : ∀ c ∈ (desStep t).blkMem.cells, c.1 < entrySize * s.cfg.blkCap := by
    rw [← hcfg]; exact hbound (by rw [hcfg]; exact h.bound)
  rcases hon with ⟨hp, hst, _, hpass, hleft⟩ | ⟨hd, _⟩ | ⟨u, k, hu, _, hwhy, hf⟩
  · exact .inl ⟨⟨hst, hp, hmask.trans h.mask, hwf, hb, hpass⟩, hleft⟩
  · refine .inr ⟨⟨hmask.trans h.mask, hb, .inl ⟨hd.phase, hd.st, hd.err, hd.cmd, hd.cdValid, ?_, hd.wellFormed, hd.rest⟩⟩, ?_⟩
    · rw [← hstream, ← hcfg]; exact hd.blocks
    · rw [hd.st]; decide
  · rw [hstream, hcfg] at hwhy
    refine .inr ⟨⟨hmask.trans h.mask, hb, .inr ⟨k, u, hwhy, ?_, ?_, hf⟩⟩, by rw [hf]; simp⟩
    · rw [hu]; exact h.pass.running.1
    · rw [hu]; exact h.mask

theorem beginCommand_code05 (s : State) : beginCommand 0x05#8 s = releaseStore (setBusy 0x05#8 s) := by
  simp [beginCommand]

theorem exec_deserialize {s : State} (hst : s.st ≠ .busy) :
    exec .deserialize s = .next (runCommand (startDeserialize (beginCommand 0x05#8 s))) := by
  simp [exec, execDeserialize, command, hst]

/-- DESERIALIZE without a stream (R232). -/
theorem exec_deserialize_absent {s : State} (hst : s.st ≠ .busy) (h : s.strPresent = false) :
    exec .deserialize s = .next (raise .ioFailure (startedDeserialize s)) := by
  have hstart : startDeserialize (beginCommand 0x05#8 s) = raise .ioFailure (startedDeserialize s) := by
    rw [beginCommand_code05]
    refine (if_pos ?_)
    show (!s.strPresent) = true
    rw [h]; rfl
  rw [exec_deserialize hst, hstart, runCommand, runToEnd_stopped (by simp)]

/-- DESERIALIZE of a stream (R230, R239). -/
theorem exec_deserialize_present {s : State} (hst : s.st ≠ .busy) (h : s.strPresent = true) :
    ∃ t, exec .deserialize s = .next t ∧ DeserializeEnded s t := by
  have hstart : startDeserialize (beginCommand 0x05#8 s) = startedDeserialize s := by
    rw [beginCommand_code05]
    refine (if_neg ?_)
    show ¬ (!s.strPresent) = true
    rw [h]; decide
  have hbegin : Deserializing s (startedDeserialize s) :=
    ⟨rfl, rfl, rfl, forget_wf _ _, by intro c hc; simp [startedDeserialize, releaseStore, Mem.forget] at hc,
      ⟨rfl, h, rfl, rfl⟩, fun b _ => entryPresent_forget (m := s.blkMem) rfl b, .inl ⟨rfl, rfl⟩⟩
  obtain ⟨k, t, hk, he, hc⟩ := endsAfter_of_progress (I := Deserializing s) (Q := DeserializeEnded s)
    (left := readLeft) (fun t ht => ht.busy) (fun t ht => ht.next) (n := s.cfg.blkCap + 1) hbegin
    (Nat.le_of_eq (show readLeft (startedDeserialize s) = s.cfg.blkCap + 1 from rfl))
  refine ⟨t, ?_, hc⟩
  rw [exec_deserialize hst, hstart, runCommand, he.run]
  have : (startedDeserialize s).cfg = s.cfg := rfl
  rw [fuelFor, this]
  omega

end Sys2Proof.Machine
end

