-- ==== Sys2Proof/Laws/Size.lean ====
section
/-! SUPPORT. What one transition of the size pass can do (42_size.md R181), and SIZE as a whole (R180, R182). -/

namespace Sys2Proof.Machine

/-- What one transition of the size pass leaves (R181). -/
inductive SizedOn (s t : State) : Prop where
  | sum (next : t = { s with dTotal := s.dTotal + ssize (entryCtrl s s.dB), dB := s.dB + 1 }) (more : s.dB < s.nblk.toNat)
      (pass : SizePass t)
  | done (next : t = finishSize s) (all : s.dB = s.nblk.toNat) (good : storeUsable s = true)
      (total : s.dTotal = totalSize (storedBlocks s))
  | corrupt (bad : storeUsable s = false) (failed : t = raise .corruptStructure s)

theorem sizeStep_spec {s : State} (h : SizePass s) : SizedOn s (sizeStep s) := by
  have hpos := h.position
  unfold sizeStep
  split
  · next hlt =>
    unfold sizeBlock
    split
    · next hu =>
      refine .sum rfl hlt ⟨h.running, hlt, ?_, ?_⟩
      · exact (allUsable_congr (s := s) (by rfl) (by rfl) 0 (s.dB + 1)).trans
          ((allUsable_succ_last s 0 s.dB).2 ⟨h.usable, by rw [Nat.zero_add]; exact hu⟩)
      · show s.dTotal + ssize (entryCtrl s s.dB) = totalSize (blocksFrom _ 0 (s.dB + 1))
        rw [blocksFrom_congr (s := s) (by rfl), blocksFrom_succ_last, totalSize_append, ← h.total, Nat.zero_add]
        simp [totalSize]
    · next hu =>
      refine .corrupt ?_ rfl
      rw [storeUsable, Bool.eq_false_iff]
      intro hall
      have := allUsable_iff.1 hall s.dB hlt
      rw [Nat.zero_add] at this
      exact hu this
  · next hlt =>
    have heq : s.dB = s.nblk.toNat := by omega
    refine .done rfl heq ?_ ?_
    · rw [storeUsable, ← heq]; exact h.usable
    · rw [h.total, heq]; rfl

/-- The state after the start rule of SIZE, when there is data (R181). -/
def startedSize (s : State) : State := { setBusy 0x03#8 s with dB := 0, dTotal := 0, phase := .size }

/-- A busy state of SIZE that started in `s`. -/
def sizing (b total : Nat) (s : State) : State := { startedSize s with dB := b, dTotal := total }

/-- A busy state of SIZE that started in `s`, with its pass. -/
def Sizing (s t : State) : Prop := ∃ b total, t = sizing b total s ∧ SizePass t

/-- The end of SIZE with a result (R180). -/
def sizeDone (s : State) : State :=
  { s with
    cmd := 0x03#8, st := .done, err := .none, phase := .idle, size := BitVec.ofNat 64 (totalSize (storedBlocks s))
    dB := s.nblk.toNat, dTotal := totalSize (storedBlocks s) }

/-- The end of SIZE without a result (R182), but for the hidden registers. -/
def sizeFailed (k : ErrKind) (s : State) : State :=
  { s with cmd := 0x03#8, st := .fail, err := k, phase := .idle, size := 0#64 }

/-- What SIZE of data leaves when it ends (R180, R182). -/
inductive SizeEnded (s t : State) : Prop where
  | done (good : storeUsable s = true) (result : t = sizeDone s)
  | corrupt (bad : storeUsable s = false) (failed : t = { sizeFailed .corruptStructure s with dB := t.dB, dTotal := t.dTotal })

theorem Sizing.next {s t : State} (h : Sizing s t) :
    (Sizing s (transition t) ∧ s.nblk.toNat - (transition t).dB < s.nblk.toNat - t.dB) ∨
      (SizeEnded s (transition t) ∧ (transition t).st ≠ .busy) := by
  obtain ⟨b, total, rfl, hpass⟩ := h
  have htr : transition (sizing b total s) = sizeStep (sizing b total s) := rfl
  rw [htr]
  rcases sizeStep_spec hpass with ⟨he, hlt, hnext⟩ | ⟨he, hall, hgood, htot⟩ | ⟨hbad, hf⟩
  · refine .inl ⟨⟨b + 1, total + ssize (entryCtrl s b), he, hnext⟩, ?_⟩
    rw [he]
    show s.nblk.toNat - (b + 1) < s.nblk.toNat - b
    have : b < s.nblk.toNat := hlt
    omega
  · refine .inr ⟨.done ((storeUsable_congr (by rfl) (by rfl) (by rfl)).symm.trans hgood) ?_, by rw [he]; simp [finishSize]⟩
    have hb : b = s.nblk.toNat := hall
    have ht : total = totalSize (storedBlocks s) :=
      htot.trans (congrArg totalSize (storedBlocks_congr (by rfl) (by rfl)))
    rw [he, hb, ht]; rfl
  · refine .inr ⟨.corrupt ((storeUsable_congr (by rfl) (by rfl) (by rfl)).symm.trans hbad) ?_, by rw [hf]; simp⟩
    rw [hf]; rfl

theorem beginCommand_code03 (s : State) : beginCommand 0x03#8 s = setBusy 0x03#8 s := by simp [beginCommand]

theorem exec_size {s : State} (hst : s.st ≠ .busy) :
    exec .size s = .next (runCommand (startSize (beginCommand 0x03#8 s))) := by
  simp [exec, execSize, command, hst]

/-- SIZE without data (R182). -/
theorem exec_size_noData {s : State} (hst : s.st ≠ .busy) (h : noData s = true) :
    exec .size s = .next { sizeFailed .invalidInput s with dB := 0, dTotal := 0 } := by
  have : startSize (beginCommand 0x03#8 s) = { sizeFailed .invalidInput s with dB := 0, dTotal := 0 } := by
    rw [beginCommand_code03, startSize, if_pos]
    · rfl
    · exact h
  rw [exec_size hst, this, runCommand, runToEnd_stopped (by simp [sizeFailed])]

/-- SIZE of data (R180, R182). -/
theorem exec_size_data {s : State} (hst : s.st ≠ .busy) (h : noData s = false) :
    ∃ t, exec .size s = .next t ∧ SizeEnded s t := by
  have hstart : startSize (beginCommand 0x03#8 s) = startedSize s := by
    rw [beginCommand_code03, startSize, if_neg]
    · rfl
    · show ¬ noData s = true
      simp [h]
  obtain ⟨k, t, hk, he, hc⟩ := endsAfter_of_progress (I := Sizing s) (Q := SizeEnded s)
    (left := fun t => s.nblk.toNat - t.dB) (fun t ht => by obtain ⟨_, _, rfl, _⟩ := ht; rfl) (fun t ht => Sizing.next ht)
    (s := startedSize s) (n := s.nblk.toNat) ⟨0, 0, rfl, ⟨rfl, h⟩, Nat.zero_le _, rfl, rfl⟩ (Nat.sub_le _ _)
  refine ⟨t, ?_, hc⟩
  rw [exec_size hst, hstart, runCommand, he.run]
  have : (startedSize s).nblk = s.nblk := rfl
  rw [fuelFor, this]
  omega

end Sys2Proof.Machine
end

