-- ==== Sys2Proof/Laws/Invariant.lean ====
section
/-! SUPPORT. The invariant of the machine under a transition of the sequencer and under the start of a command: what each pass
keeps, assembled from what one transition of it can do. -/

namespace Sys2Proof

/-- The widths that R6 decides, in numbers. -/
theorem Config.Legal.idx {c : Config} (h : c.Legal) {n : Nat} : n < 2 ^ c.idxW ↔ n < 2 ^ 32 := by rw [h.2.2.2.2.2.2.1]

theorem Config.Legal.acc {c : Config} (h : c.Legal) {n : Nat} : n < 2 ^ c.accW ↔ n < 2 ^ 64 := by rw [h.2.2.2.2.2.2.2]

namespace Machine

/-- What of the invariant does not depend on `PHASE`, `ST`, `ERR` and the running pass, in a state with no start rule pending. -/
structure Sound (s : State) : Prop where
  mem : MemOk s
  caps : CapsOk s
  legal : s.cfg.Legal
  started : s.starting = false
  noOutput : s.outValid = false → s.outLen = 0#64
  widths : WidthsOk s

theorem Inv.sound {s : State} (h : Inv s) (hs : s.starting = false) : Sound s :=
  ⟨h.mem, h.caps, h.control.legal, hs, h.control.noOutput, h.widths⟩

/-- A start is pending only while BUSY. -/
theorem Inv.started {s : State} (h : Inv s) (hst : s.st ≠ .busy) : s.starting = false :=
  Bool.eq_false_iff.2 fun hs => hst (h.start hs).busy

theorem Sound.inv_busy {s : State} (h : Sound s) (hst : s.st = .busy) {p : Phase} (hph : s.phase = p)
    (herr : s.err = .none) (hp : PassOk s) (hne : p ≠ .idle := by decide) : Inv s :=
  ⟨h.mem, h.caps, ⟨h.legal, by simp [hst, hph, hne], by simp [hst, herr], h.noOutput⟩, h.widths,
    fun hs => absurd (hs.symm.trans h.started) (by decide), fun _ => hp⟩

theorem PassOk.encLit {s : State} (hp : s.phase = .encLit) (h : LitScan s) : PassOk s := by simp only [PassOk, hp]; exact h
theorem PassOk.encRep {s : State} (hp : s.phase = .encRep) (h : RepScan s) : PassOk s := by simp only [PassOk, hp]; exact h
theorem PassOk.decSum {s : State} (hp : s.phase = .decSum) (h : SumPass s) : PassOk s := by simp only [PassOk, hp]; exact h
theorem PassOk.decExp {s : State} (hp : s.phase = .decExp) (h : ExpandPass s) : PassOk s := by
  simp only [PassOk, hp]; exact h
theorem PassOk.size {s : State} (hp : s.phase = .size) (h : SizePass s) : PassOk s := by simp only [PassOk, hp]; exact h
theorem PassOk.ser {s : State} (hp : s.phase = .ser) (h : WritePass s) : PassOk s := by simp only [PassOk, hp]; exact h
theorem PassOk.des {s : State} (hp : s.phase = .des) (h : ReadPass s) : PassOk s := by simp only [PassOk, hp]; exact h

theorem Sound.inv_ended {s : State} (h : Sound s) (hph : s.phase = .idle) (hst : s.st ≠ .busy)
    (herr : s.err ≠ .none ↔ s.st = .fail) : Inv s :=
  ⟨h.mem, h.caps, ⟨h.legal, by simp [hst, hph], herr, h.noOutput⟩, h.widths,
    fun hs => absurd (hs.symm.trans h.started) (by decide), fun _ => by simp [PassOk, hph]⟩

theorem Sound.finish {s : State} (h : Sound s) : Sound (finish s) := ⟨⟨h.mem.1, h.mem.2, h.mem.3, h.mem.4⟩,
  ⟨h.caps.1, h.caps.2, h.caps.3, h.caps.4⟩, h.legal, h.started, h.noOutput,
  ⟨h.widths.1, h.widths.2, h.widths.3, h.widths.4, h.widths.5, h.widths.6, h.widths.7, h.widths.8, h.widths.9⟩⟩

theorem Sound.inv_finish {s : State} (h : Sound s) : Inv (Machine.finish s) :=
  h.finish.inv_ended rfl (by simp) (by simp)

theorem forget_bound {m : Mem} {n : Nat} : ∀ c ∈ m.forget.cells, c.1 < n := by simp [Mem.forget]

theorem Sound.releaseStore {s : State} (h : Sound s) : Sound (releaseStore s) := ⟨⟨h.mem.1, forget_wf _ _, h.mem.3, h.mem.4⟩,
  ⟨h.caps.1, forget_bound, h.caps.3, h.caps.4⟩, h.legal, h.started, h.noOutput,
  ⟨h.widths.1, h.widths.2, h.widths.3, h.widths.4, h.widths.5, h.widths.6, h.widths.7, h.widths.8, h.widths.9⟩⟩

theorem Sound.releaseOutput {s : State} (h : Sound s) : Sound (releaseOutput s) :=
  ⟨⟨h.mem.1, h.mem.2, h.mem.3, h.mem.4⟩, ⟨h.caps.1, h.caps.2, h.caps.3, h.caps.4⟩, h.legal, h.started, fun _ => rfl,
  ⟨h.widths.1, h.widths.2, h.widths.3, h.widths.4, h.widths.5, h.widths.6, h.widths.7, h.widths.8, h.widths.9⟩⟩

theorem Sound.forgetOut {s : State} (h : Sound s) : Sound (forgetOut s) :=
  ⟨⟨h.mem.1, h.mem.2, forget_wf _ _, h.mem.4⟩, ⟨h.caps.1, h.caps.2, forget_bound, h.caps.4⟩, h.legal, h.started, h.noOutput,
  ⟨h.widths.1, h.widths.2, h.widths.3, h.widths.4, h.widths.5, h.widths.6, h.widths.7, h.widths.8, h.widths.9⟩⟩

theorem Sound.setBusy {s : State} (h : Sound s) (v : Byte) : Sound (setBusy v s) :=
  ⟨⟨h.mem.1, h.mem.2, h.mem.3, h.mem.4⟩, ⟨h.caps.1, h.caps.2, h.caps.3, h.caps.4⟩, h.legal, h.started, h.noOutput,
  ⟨h.widths.1, h.widths.2, h.widths.3, h.widths.4, h.widths.5, h.widths.6, h.widths.7, h.widths.8, h.widths.9⟩⟩

theorem Sound.setFail {s : State} (h : Sound s) (k : ErrKind) : Sound (setFail k s) :=
  ⟨⟨h.mem.1, h.mem.2, h.mem.3, h.mem.4⟩, ⟨h.caps.1, h.caps.2, h.caps.3, h.caps.4⟩, h.legal, h.started, h.noOutput,
  ⟨h.widths.1, h.widths.2, h.widths.3, h.widths.4, h.widths.5, h.widths.6, h.widths.7, h.widths.8, h.widths.9⟩⟩

theorem Sound.setSize {s : State} (h : Sound s) (v : Word64) : Sound { s with size := v } :=
  ⟨⟨h.mem.1, h.mem.2, h.mem.3, h.mem.4⟩, ⟨h.caps.1, h.caps.2, h.caps.3, h.caps.4⟩, h.legal, h.started, h.noOutput,
  ⟨h.widths.1, h.widths.2, h.widths.3, h.widths.4, h.widths.5, h.widths.6, h.widths.7, h.widths.8, h.widths.9⟩⟩

/-- A failure keeps everything sound, and ends with the whole invariant (R290, R291). -/
theorem Sound.inv_raise {s : State} (h : Sound s) {k : ErrKind} (hk : k ≠ .none) : Inv (raise k s) := by
  have hc : Sound (cleanUp s) := by
    unfold cleanUp
    split_ifs
    · exact h.releaseStore
    · exact h.releaseOutput.forgetOut
    · exact h.setSize _
    · exact h
  exact (hc.setFail k).inv_ended rfl (by simp) (by simp [hk])

/-! ### The passes -/

theorem Sound.compress {s t : State} (h : Sound s) (hmask : maskCompress t = maskCompress s) (hwf : t.blkMem.wf .blk)
    (hbound : ∀ c ∈ t.blkMem.cells, c.1 < entrySize * s.cfg.blkCap) (hi : t.eI < 2 ^ s.cfg.idxW) (hm : t.eM < 2 ^ 8)
    (hr : t.eR < 2 ^ 8) : Sound t := by
  have hcfg : t.cfg = s.cfg := (congrArg State.cfg hmask :)
  have hin : t.inMem = s.inMem := (congrArg State.inMem hmask :)
  have hout : t.outMem = s.outMem := (congrArg State.outMem hmask :)
  have hstr : t.strMem = s.strMem := (congrArg State.strMem hmask :)
  have hv : t.outValid = s.outValid := (congrArg State.outValid hmask :)
  have hl : t.outLen = s.outLen := (congrArg State.outLen hmask :)
  have h1 : t.dB = s.dB := (congrArg State.dB hmask :)
  have h2 : t.dK = s.dK := (congrArg State.dK hmask :)
  have h3 : t.dO = s.dO := (congrArg State.dO hmask :)
  have h4 : t.dTotal = s.dTotal := (congrArg State.dTotal hmask :)
  have h5 : t.sB = s.sB := (congrArg State.sB hmask :)
  have h6 : t.sP = s.sP := (congrArg State.sP hmask :)
  refine ⟨⟨hin ▸ h.mem.1, hwf, hout ▸ h.mem.3, hstr ▸ h.mem.4⟩, ⟨?_, ?_, ?_, ?_⟩, hcfg ▸ h.legal, (congrArg State.starting hmask :).trans h.started, ?_, ?_⟩
  · rw [hin, hcfg]; exact h.caps.1
  · rw [hcfg]; exact hbound
  · rw [hout, hcfg]; exact h.caps.3
  · rw [hstr, hcfg]; exact h.caps.4
  · rw [hv, hl]; exact h.noOutput
  · have hw := h.widths
    rw [← hcfg] at hi
    exact ⟨hi, hm, hr, by rw [h1, hcfg]; exact hw.4, h2 ▸ hw.5, by rw [h3, hcfg]; exact hw.6, by rw [h4, hcfg]; exact hw.7,
      by rw [h5, hcfg]; exact hw.8, by rw [h6, hcfg]; exact hw.9⟩

theorem Sound.deserialize {s t : State} (h : Sound s) (hmask : maskDeserialize t = maskDeserialize s) (hwf : t.blkMem.wf .blk)
    (hbound : ∀ c ∈ t.blkMem.cells, c.1 < entrySize * s.cfg.blkCap) (hb : t.sB < 2 ^ s.cfg.idxW) (hp : t.sP < 2 ^ s.cfg.accW) :
    Sound t := by
  have hcfg : t.cfg = s.cfg := (congrArg State.cfg hmask :)
  have hin : t.inMem = s.inMem := (congrArg State.inMem hmask :)
  have hout : t.outMem = s.outMem := (congrArg State.outMem hmask :)
  have hstr : t.strMem = s.strMem := (congrArg State.strMem hmask :)
  have hv : t.outValid = s.outValid := (congrArg State.outValid hmask :)
  have hl : t.outLen = s.outLen := (congrArg State.outLen hmask :)
  have h1 : t.dB = s.dB := (congrArg State.dB hmask :)
  have h2 : t.dK = s.dK := (congrArg State.dK hmask :)
  have h3 : t.dO = s.dO := (congrArg State.dO hmask :)
  have h4 : t.dTotal = s.dTotal := (congrArg State.dTotal hmask :)
  have h5 : t.eI = s.eI := (congrArg State.eI hmask :)
  have h6 : t.eM = s.eM := (congrArg State.eM hmask :)
  have h7 : t.eR = s.eR := (congrArg State.eR hmask :)
  refine ⟨⟨hin ▸ h.mem.1, hwf, hout ▸ h.mem.3, hstr ▸ h.mem.4⟩, ⟨?_, ?_, ?_, ?_⟩, hcfg ▸ h.legal, (congrArg State.starting hmask :).trans h.started, ?_, ?_⟩
  · rw [hin, hcfg]; exact h.caps.1
  · rw [hcfg]; exact hbound
  · rw [hout, hcfg]; exact h.caps.3
  · rw [hstr, hcfg]; exact h.caps.4
  · rw [hv, hl]; exact h.noOutput
  · have hw := h.widths
    rw [← hcfg] at hb hp
    exact ⟨by rw [h5, hcfg]; exact hw.1, h6 ▸ hw.2, h7 ▸ hw.3, by rw [h1, hcfg]; exact hw.4, h2 ▸ hw.5,
      by rw [h3, hcfg]; exact hw.6, by rw [h4, hcfg]; exact hw.7, hb, hp⟩

theorem encoded_inv {s t : State} (h : Inv s) (hns : s.starting = false) (hb : s.st = .busy)
    (hmask : maskCompress t = maskCompress s) (hk : StoreKept s t) (hon : EncodedOn s t) : Inv t := by
  have herr : s.err = .none := by
    by_contra hcon
    have := h.control.errFail.1 hcon
    rw [hb] at this; cases this
  have hlit : s.cfg.litMax ≤ 128 := by rcases h.control.legal.1 with hl | hl <;> omega
  have hn : t.n = s.n := (congrArg State.n hmask :)
  have hcfg : t.cfg = s.cfg := (congrArg State.cfg hmask :)
  have hbound := hk.bound h.caps.blkCap
  have hn32 := s.n.isLt
  rcases hon with ⟨hp, hst, he, hs, _⟩ | ⟨hp, hst, he, hs, _⟩ | ⟨hr, _, hall⟩ | ⟨_, hf⟩
  · have h1 := hs.span; have h2 := hs.inside; have h3 := hs.closed
    rw [hn] at h2; rw [hcfg] at h1
    exact ((h.sound hns).compress hmask hk.wf hbound (h.control.legal.idx.2 (by omega)) (by omega) (by omega)).inv_busy hst hp
      (he.trans herr) (.encLit hp hs)
  · have h1 := hs.span.2; have h2 := hs.inside; have h3 := hs.closed
    rw [hn] at h2
    simp only [Config.repMax] at h1
    exact ((h.sound hns).compress hmask hk.wf hbound (h.control.legal.idx.2 (by omega)) (by omega) (by omega)).inv_busy hst hp
      (he.trans herr) (.encRep hp hs)
  · exact ((h.sound hns).compress hmask hk.wf hbound (h.control.legal.idx.2 (by omega)) (by omega) (by omega)).inv_ended hr.phase
      (by rw [hr.st]; decide) (by simp [hr.err, hr.st])
  · rw [hf]; exact (h.sound hns).inv_raise (by decide)

/-- The running pass, when a command is running: one of the seven. -/
theorem Inv.busy_err {s : State} (h : Inv s) (hb : s.st = .busy) : s.err = .none := by
  by_contra hcon
  have := h.control.errFail.1 hcon
  rw [hb] at this; cases this

theorem decSum_inv {s : State} (h : Inv s) (hns : s.starting = false) (hp : s.phase = .decSum) (hb : s.st = .busy) : Inv (decSumStep s) := by
  have hs : SumPass s := by have := h.pass hns; simpa only [PassOk, hp] using this
  have hm := h.mem; have hc := h.caps; have hw := h.widths
  have herr := h.busy_err hb
  rcases decSumStep_spec hs with ⟨he, hlt, hpass⟩ | ⟨he, hall, hpass⟩ | ⟨_, hf⟩ | ⟨_, _, hf⟩
  · rw [he] at hpass ⊢
    refine Sound.inv_busy ⟨⟨hm.1, hm.2, hm.3, hm.4⟩, ⟨hc.1, hc.2, hc.3, hc.4⟩, h.control.legal, hns, h.control.noOutput,
      ⟨hw.1, hw.2, hw.3, ?_, hw.5, hw.6, ?_, hw.8, hw.9⟩⟩ hb hp herr (.decSum hp hpass)
    · have := s.nblk.isLt
      refine h.control.legal.idx.2 ?_
      show s.dB + 1 < 2 ^ 32
      omega
    · have h1 := hpass.total
      have h2 := totalLen_blocksFrom_le { s with dTotal := s.dTotal + lenOf (entryCtrl s s.dB), dB := s.dB + 1 } 0 (s.dB + 1)
      have h3 := s.nblk.isLt
      refine h.control.legal.acc.2 ?_
      simp only at h1 ⊢
      omega
  · rw [he] at hpass ⊢
    exact Sound.inv_busy ⟨⟨hm.1, hm.2, forget_wf _ _, hm.4⟩, ⟨hc.1, hc.2, forget_bound, hc.4⟩, h.control.legal,
      hns, h.control.noOutput, ⟨hw.1, hw.2, hw.3, Nat.two_pow_pos _, Nat.two_pow_pos _, Nat.two_pow_pos _, hw.7, hw.8, hw.9⟩⟩ hb (p := .decExp) rfl herr
      (.decExp rfl hpass)
  · rw [hf]; exact (h.sound hns).inv_raise (by decide)
  · rw [hf]; exact (h.sound hns).inv_raise (by decide)

theorem decExp_inv {s : State} (h : Inv s) (hns : s.starting = false) (hp : s.phase = .decExp) (hb : s.st = .busy) : Inv (expandByte s) := by
  have hs : ExpandPass s := by have := h.pass hns; simpa only [PassOk, hp] using this
  have hm := h.mem; have hc := h.caps; have hw := h.widths
  have herr := h.busy_err hb
  have hlt := (decoded_next hs).2
  have htot := hs.total
  have hwidth := h.control.legal.acc.1 hw.dTotal
  have hdb := hs.position
  have hn := s.nblk.isLt
  have hlen := lenOf_le (entryCtrl s s.dB)
  have hwr := write_wf hm.outWf s.dO (expansionByte s)
  have hbound : ∀ c ∈ (s.outMem.write .out s.dO (expansionByte s)).cells, c.1 < s.cfg.outCap :=
    write_bound hc.outCap (by omega) _
  rcases expandByte_spec hm.outWf hs with ⟨he, hpass⟩ | ⟨he, hpass⟩ | ⟨he, hall, _⟩
  · rw [he] at hpass ⊢
    have hk : s.dK + 1 < lenOf (entryCtrl s s.dB) := hpass.position.2
    refine Sound.inv_busy ⟨⟨hm.1, hm.2, hwr, hm.4⟩, ⟨hc.1, hc.2, hbound, hc.4⟩, h.control.legal, hns, h.control.noOutput,
      ⟨hw.1, hw.2, hw.3, hw.4, ?_, ?_, hw.7, hw.8, hw.9⟩⟩ hb hp herr (.decExp hp hpass)
    · show s.dK + 1 < 2 ^ 8
      omega
    · refine h.control.legal.acc.2 ?_
      show s.dO + 1 < 2 ^ 64
      omega
  · rw [he] at hpass ⊢
    refine Sound.inv_busy ⟨⟨hm.1, hm.2, hwr, hm.4⟩, ⟨hc.1, hc.2, hbound, hc.4⟩, h.control.legal, hns, h.control.noOutput,
      ⟨hw.1, hw.2, hw.3, ?_, Nat.two_pow_pos _, ?_, hw.7, hw.8, hw.9⟩⟩ hb hp herr (.decExp hp hpass)
    · refine h.control.legal.idx.2 ?_
      show s.dB + 1 < 2 ^ 32
      omega
    · refine h.control.legal.acc.2 ?_
      show s.dO + 1 < 2 ^ 64
      omega
  · rw [he]
    refine Sound.inv_ended ⟨⟨hm.1, hm.2, hwr, hm.4⟩, ⟨hc.1, hc.2, hbound, hc.4⟩, h.control.legal, hns, ?_,
      ⟨hw.1, hw.2, hw.3, ?_, Nat.two_pow_pos _, ?_, hw.7, hw.8, hw.9⟩⟩ rfl (by simp [finishDecompress]) (by simp [finishDecompress])
    · intro hcon; cases hcon
    · refine h.control.legal.idx.2 ?_
      show s.dB + 1 < 2 ^ 32
      omega
    · refine h.control.legal.acc.2 ?_
      show s.dO + 1 < 2 ^ 64
      omega

theorem size_inv {s : State} (h : Inv s) (hns : s.starting = false) (hp : s.phase = .size) (hb : s.st = .busy) : Inv (sizeStep s) := by
  have hs : SizePass s := by have := h.pass hns; simpa only [PassOk, hp] using this
  have hm := h.mem; have hc := h.caps; have hw := h.widths
  have herr := h.busy_err hb
  rcases sizeStep_spec hs with ⟨he, hlt, hpass⟩ | ⟨he, _, _, _⟩ | ⟨_, hf⟩
  · rw [he] at hpass ⊢
    refine Sound.inv_busy ⟨⟨hm.1, hm.2, hm.3, hm.4⟩, ⟨hc.1, hc.2, hc.3, hc.4⟩, h.control.legal, hns, h.control.noOutput,
      ⟨hw.1, hw.2, hw.3, ?_, hw.5, hw.6, ?_, hw.8, hw.9⟩⟩ hb hp herr (.size hp hpass)
    · have := s.nblk.isLt
      refine h.control.legal.idx.2 ?_
      show s.dB + 1 < 2 ^ 32
      omega
    · have h1 := hpass.total
      have h2 := totalSize_blocksFrom_le { s with dTotal := s.dTotal + ssize (entryCtrl s s.dB), dB := s.dB + 1 } 0 (s.dB + 1)
      have h3 := s.nblk.isLt
      refine h.control.legal.acc.2 ?_
      simp only at h1 ⊢
      omega
  · rw [he]; exact ((h.sound hns).setSize _).inv_finish
  · rw [hf]; exact (h.sound hns).inv_raise (by decide)

theorem ser_inv {s : State} (h : Inv s) (hns : s.starting = false) (hp : s.phase = .ser) (hb : s.st = .busy) : Inv (serStep s) := by
  have hs : WritePass s := by have := h.pass hns; simpa only [PassOk, hp] using this
  have hm := h.mem; have hc := h.caps; have hw := h.widths
  have herr := h.busy_err hb
  rcases serStep_spec hm.strWf hs with ⟨he, hlt, hpass⟩ | ⟨he, _, _⟩
  · have hlen := entryBytes_length s s.sB
    have hcut := totalSize_cut hlt
    have haddr := hs.address
    have htot := hs.total
    have hwidth := totalSize_blocksFrom_le s 0 s.nblk.toNat
    have hn := s.nblk.isLt
    simp only [storedBlocks] at hcut htot
    have hroom : s.sP + (entryCtrl s s.sB :: entryPayload s s.sB).length ≤ s.cfg.strCap := by omega
    rw [he] at hpass ⊢
    refine Sound.inv_busy ⟨⟨hm.1, hm.2, hm.3, writeBytes_wf _ hm.strWf _⟩,
      ⟨hc.1, hc.2, hc.3, writeBytes_bound _ hc.strCap hroom⟩, h.control.legal, hns, h.control.noOutput,
      ⟨hw.1, hw.2, hw.3, hw.4, hw.5, hw.6, hw.7, ?_, ?_⟩⟩ hb hp herr (.ser hp hpass)
    · refine h.control.legal.idx.2 ?_
      show s.sB + 1 < 2 ^ 32
      omega
    · refine h.control.legal.acc.2 ?_
      show s.sP + (entryCtrl s s.sB :: entryPayload s s.sB).length < 2 ^ 64
      omega
  · rw [he]
    exact (Sound.mk ⟨hm.1, hm.2, hm.3, hm.4⟩ ⟨hc.1, hc.2, hc.3, hc.4⟩ h.control.legal hns h.control.noOutput
      ⟨hw.1, hw.2, hw.3, hw.4, hw.5, hw.6, hw.7, hw.8, hw.9⟩ :
      Sound { s with strLen := BitVec.ofNat 64 s.sP, strPresent := true }).inv_finish

theorem des_inv {s : State} (h : Inv s) (hns : s.starting = false) (hp : s.phase = .des) (hb : s.st = .busy) : Inv (desStep s) := by
  have hs : ReadPass s := by have := h.pass hns; simpa only [PassOk, hp] using this
  have hm := h.mem; have hc := h.caps; have hw := h.widths
  have herr := h.busy_err hb
  obtain ⟨hmask, hwf, hbound, hon⟩ := desStep_spec hp hb hm.blkWf hs
  have hcap := h.control.legal.2.1.2
  have hlen : (desStep s).strLen = s.strLen := (congrArg State.strLen hmask :)
  have hcfg : (desStep s).cfg = s.cfg := (congrArg State.cfg hmask :)
  have h64 := s.strLen.isLt
  rcases hon with ⟨hp', hst, he, hpass, _⟩ | ⟨hd, hin⟩ | ⟨u, k, hu, hsp, hwhy, hf⟩
  · refine ((h.sound hns).deserialize hmask hwf (hbound hc.blkCap) ?_ ?_).inv_busy hst hp' (he.trans herr)
      (.des hp' hpass)
    · rcases hpass.position with ⟨_, hz⟩ | ⟨_, _, _, _, hcnt, hlt, _⟩
      · exact h.control.legal.idx.2 (by omega)
      · rw [hcfg] at hcnt; exact h.control.legal.idx.2 (by omega)
    · rcases hpass.position with ⟨hz, _⟩ | ⟨_, hle, _⟩
      · exact h.control.legal.acc.2 (by omega)
      · rw [hlen] at hle; exact h.control.legal.acc.2 (by omega)
  · exact ((h.sound hns).deserialize hmask hwf (hbound hc.blkCap) (h.control.legal.idx.2 (by omega)) (h.control.legal.acc.2 (by omega))).inv_ended hd.phase
      (by rw [hd.st]; decide) (by simp [hd.err, hd.st])
  · have hk : k ≠ .none := by rintro rfl; exact parseStream_error_ne hwhy
    have hsound : Sound u := by
      rw [hu]
      refine ⟨⟨hm.1, hm.2, hm.3, hm.4⟩, ⟨hc.1, hc.2, hc.3, hc.4⟩, h.control.legal, hns, h.control.noOutput,
        ⟨hw.1, hw.2, hw.3, hw.4, hw.5, hw.6, hw.7, hw.8, ?_⟩⟩
      have := h.control.legal.acc.1 hw.sP
      refine h.control.legal.acc.2 ?_
      show u.sP < 2 ^ 64
      omega
    rw [hf]; exact hsound.inv_raise hk

end Machine

end Sys2Proof
end

