-- ==== Sys2Proof/Laws/Start.lean ====
section
/-! SUPPORT. The start of a command (60_exceptions.md R300): which start rule a code has, what the common start leaves, and that
both keep the invariant. -/

namespace Sys2Proof.Machine

/-- The common start of the command with code `v`, and its own start rule. -/
def startOnly (v : Byte) (s : State) : State := startRule v (beginCommand v s)

/-- Every byte is a command code, and decodes to the instruction that has that byte (R102). -/
theorem encode_decodeCommand : ∀ v : Byte, encode (decodeCommand v) = [v] := by decide

theorem spaceOf_decodeCommand : ∀ v : Byte, spaceOf (decodeCommand v) = .command := by decide

theorem decodeCommand_low : ∀ v : Byte, v ≤ 0x06#8 →
    decodeCommand v ∈ [.nop, .compress, .decompress, .size, .serialize, .deserialize, .release] := by decide

/-- The start rule of each code (R27). -/
theorem startRule_spec (v : Byte) (s : State) :
    (v = 0x00#8 ∧ startRule v s = finish s) ∨ (v = 0x01#8 ∧ startRule v s = startCompress s) ∨
      (v = 0x02#8 ∧ startRule v s = startDecompress s) ∨ (v = 0x03#8 ∧ startRule v s = startSize s) ∨
      (v = 0x04#8 ∧ startRule v s = startSerialize s) ∨ (v = 0x05#8 ∧ startRule v s = startDeserialize s) ∨
      (v = 0x06#8 ∧ startRule v s = startRelease s) ∨ (0x06#8 < v ∧ startRule v s = startReserved s) := by
  have hc := encode_decodeCommand v
  have hsp := spaceOf_decodeCommand v
  have hle := decodeCommand_low v
  unfold startRule
  cases hd : decodeCommand v <;> rw [hd] at hc hsp hle <;> simp only [encode, List.cons.injEq, and_true] at hc <;>
    first
      | (simp [spaceOf] at hsp; done)
      | (simp [← hc]; done)
      | exact .inr (.inr (.inr (.inr (.inr (.inr (.inr ⟨BitVec.not_le.1 fun h => by simpa using hle h, rfl⟩))))))

/-! ### The common start -/

theorem Sound.beginCommand {s : State} (h : Sound s) (v : Byte) : Sound (beginCommand v s) := by
  unfold Machine.beginCommand
  split_ifs
  · exact (h.setBusy v).releaseStore
  · exact (h.setBusy v).releaseOutput
  · exact h.setBusy v

theorem busyPhase_ne : ∀ k, busyPhase k ≠ .idle := by decide

/-- The common start does the command's pre-clear (R300). -/
theorem beginCommand_pending (v : Byte) (s : State) : StartPending (beginCommand v s) := by
  refine ⟨beginCommand_st v s, fun hc => ?_, fun hc => ?_⟩ <;> rw [beginCommand_cmd] at hc
  · rw [beginCommand, if_pos hc]
    exact ⟨rfl, rfl, fun b => entryPresent_forget (m := s.blkMem) rfl b⟩
  · subst hc
    rw [beginCommand_code02]
    rfl

/-- What is done between the common start and the start rule depends on neither `PHASE` nor the marker of a pending start. -/
theorem Sound.paused {s : State} (h : Sound s) (p : Phase) {t : State} (ht : t = { s with phase := p, starting := true }) :
    MemOk t ∧ CapsOk t ∧ WidthsOk t := by
  subst ht
  have hm := h.mem; have hc := h.caps; have hw := h.widths
  exact ⟨⟨hm.1, hm.2, hm.3, hm.4⟩, ⟨hc.1, hc.2, hc.3, hc.4⟩, ⟨hw.1, hw.2, hw.3, hw.4, hw.5, hw.6, hw.7, hw.8, hw.9⟩⟩

/-- A host write to `CMD` while not BUSY keeps the invariant (R300, R330). -/
theorem writeCmd_inv {s : State} (h : Inv s) (hst : s.st ≠ .busy) (v : Byte) : Inv (writeCmd v s) := by
  have hs := (h.sound (h.started hst)).beginCommand v
  have hp := beginCommand_pending v s
  obtain ⟨hm, hc, hw⟩ := hs.paused (busyPhase (Config.startPhase v)) rfl
  refine ⟨hm, hc, ⟨hs.legal, ?_, ?_, hs.noOutput⟩, hw, fun _ => ⟨hp.busy, hp.released, hp.invalidated⟩, by rintro ⟨⟩⟩
  · simp [writeCmd, busyPhase_ne]
  · simp [writeCmd]

/-! ### The start rules -/

/-- Where the pre-clear has nothing to do, the common start only repeats itself. -/
theorem setBusy_self {s : State} (hb : s.st = .busy) (he : s.err = .none) : setBusy s.cmd s = s := by
  unfold setBusy
  rw [← hb, ← he]

/-- The start rule of any command keeps the invariant, after the common start (R300). -/
theorem startRule_inv {s : State} (h : Sound s) (hb : s.st = .busy) (he : s.err = .none) (hp : StartPending s) :
    Inv (startRule s.cmd s) := by
  have hm := h.mem; have hcp := h.caps; have hw := h.widths
  rcases startRule_spec s.cmd s with ⟨_, e⟩ | ⟨hc, e⟩ | ⟨hc, e⟩ | ⟨hc, e⟩ | ⟨hc, e⟩ | ⟨hc, e⟩ | ⟨_, e⟩ | ⟨_, e⟩ <;> rw [e]
  · exact h.inv_finish
  · obtain ⟨hv, hn, hs⟩ := hp.released (.inl hc)
    unfold startCompress
    cases hi : inputBad s with
    | true => exact h.inv_raise (by decide)
    | false =>
      exact (h.compress (t := { s with eI := 0, eM := 0, eR := 0, phase := .encLit }) rfl hm.2 hcp.2 (Nat.two_pow_pos _)
        (Nat.two_pow_pos _) (Nat.two_pow_pos _)).inv_busy hb (p := .encLit) rfl he (.encLit rfl (litScan_start hc hi hv hn hs))
  · unfold startDecompress
    cases hn : noData s with
    | true => exact h.inv_raise (by decide)
    | false =>
      exact Sound.inv_busy ⟨⟨hm.1, hm.2, hm.3, hm.4⟩, ⟨hcp.1, hcp.2, hcp.3, hcp.4⟩, h.legal, h.started, h.noOutput,
        ⟨hw.1, hw.2, hw.3, Nat.two_pow_pos _, Nat.two_pow_pos _, Nat.two_pow_pos _, Nat.two_pow_pos _, hw.8, hw.9⟩⟩ hb (p := .decSum) rfl he
        (.decSum rfl ⟨⟨hc, hn, hp.invalidated hc⟩, Nat.zero_le _, rfl, rfl⟩)
  · have hs : Sound { s with dB := 0, dTotal := 0, phase := .size } := ⟨⟨hm.1, hm.2, hm.3, hm.4⟩,
      ⟨hcp.1, hcp.2, hcp.3, hcp.4⟩, h.legal, h.started, h.noOutput,
      ⟨hw.1, hw.2, hw.3, Nat.two_pow_pos _, hw.5, hw.6, Nat.two_pow_pos _, hw.8, hw.9⟩⟩
    unfold startSize
    cases hn : noData s with
    | true => exact hs.inv_raise (by decide)
    | false => exact hs.inv_busy hb (p := .size) rfl he (.size rfl ⟨⟨hc, hn⟩, Nat.zero_le _, rfl, rfl⟩)
  · have hself : s = beginCommand 0x04#8 s := by rw [beginCommand_code04, ← hc, setBusy_self hb he]
    have hfail : ∀ k, k ≠ .none → Inv (serializeFailed k s) := fun k hk => Sound.inv_ended
      ⟨⟨hm.1, hm.2, hm.3, hm.4⟩, ⟨hcp.1, hcp.2, hcp.3, hcp.4⟩, h.legal, h.started, h.noOutput,
        ⟨hw.1, hw.2, hw.3, hw.4, hw.5, hw.6, hw.7, hw.8, hw.9⟩⟩ rfl (by simp [serializeFailed]) (by simp [serializeFailed, hk])
    rw [hself, startSerialize_eq]
    by_cases h1 : noData s = true
    · rw [if_pos h1]; exact hfail _ (by decide)
    rw [if_neg h1]
    by_cases h2 : s.strWritable = false
    · rw [if_pos h2]; exact hfail _ (by decide)
    rw [if_neg h2]
    by_cases h3 : storeUsable s = false
    · rw [if_pos h3]; exact hfail _ (by decide)
    rw [if_neg h3]
    by_cases h4 : s.cfg.strCap < 4 + totalSize (storedBlocks s)
    · rw [if_pos h4]; exact hfail _ (by decide)
    rw [if_neg h4]
    have hser := startedSerialize_serializing (s := s) (by simpa using h1) (by simpa using h2) (by simpa using h3) (by omega)
    have hwidth := totalSize_blocksFrom_le s 0 s.nblk.toNat
    have hn := s.nblk.isLt
    have hleg := h.legal.2.2.1
    refine Sound.inv_busy ⟨⟨hm.1, hm.2, hm.3, hser.wf⟩, ⟨hcp.1, hcp.2, hcp.3, writeBytes_bound _ forget_bound ?_⟩,
      h.legal, h.started, h.noOutput, ⟨hw.1, hw.2, hw.3, hw.4, hw.5, hw.6, h.legal.acc.2 ?_, Nat.two_pow_pos _, h.legal.acc.2 ?_⟩⟩ rfl (p := .ser) rfl rfl
      (.ser rfl hser.pass)
    · show 0 + (inOrder s.cfg.countOrder (le32 s.nblk)).length ≤ s.cfg.strCap
      rw [inOrder_eq, length_le32]; exact hleg
    · show totalSize (storedBlocks s) < 2 ^ 64
      simp only [storedBlocks]
      omega
    · show 4 < 2 ^ 64
      decide
  · obtain ⟨hv, hn, hs⟩ := hp.released (.inr hc)
    have ht : Sound { s with phase := .des, sP := 0, sB := 0 } :=
      h.deserialize rfl hm.2 hcp.2 (Nat.two_pow_pos _) (Nat.two_pow_pos _)
    unfold startDeserialize
    by_cases hpr : s.strPresent = true
    · refine (if_neg (show ¬ (!s.strPresent) = true by simp [hpr])).symm ▸ ?_
      exact ht.inv_busy hb (p := .des) rfl he (.des rfl ⟨⟨hc, hpr, hv, hn⟩, fun b _ => hs b, .inl ⟨rfl, rfl⟩⟩)
    · refine (if_pos (show (!s.strPresent) = true by simp [hpr])).symm ▸ ?_
      exact ht.inv_raise (k := .ioFailure) (by decide)
  · exact h.releaseStore.inv_finish
  · exact h.inv_raise (by decide)

/-- The start of any command keeps the invariant (R300, and each command's start rule). -/
theorem startOnly_inv {s : State} (h : Inv s) (hst : s.st ≠ .busy) (v : Byte) : Inv (startOnly v s) := by
  have hb := (h.sound (h.started hst)).beginCommand v
  have := startRule_inv hb (by simp) (by simp) (beginCommand_pending v s)
  rwa [beginCommand_cmd] at this

/-- The start rule that the sequencer takes after a host write to `CMD` keeps the invariant. -/
theorem takeStart_inv {s : State} (h : Inv s) (hs : s.starting = true) : Inv (takeStart s) := by
  have hp := h.start hs
  have hm := h.mem; have hc := h.caps; have hw := h.widths
  exact startRule_inv (s := { s with starting := false }) ⟨⟨hm.1, hm.2, hm.3, hm.4⟩, ⟨hc.1, hc.2, hc.3, hc.4⟩, h.control.legal,
    rfl, h.control.noOutput, ⟨hw.1, hw.2, hw.3, hw.4, hw.5, hw.6, hw.7, hw.8, hw.9⟩⟩ hp.busy (h.busy_err hp.busy)
    ⟨hp.busy, hp.released, hp.invalidated⟩

/-- No start rule leaves another start pending. -/
@[simp] theorem startRule_starting (v : Byte) (s : State) : (startRule v s).starting = s.starting := by
  rcases startRule_spec v s with ⟨_, e⟩ | ⟨_, e⟩ | ⟨_, e⟩ | ⟨_, e⟩ | ⟨_, e⟩ | ⟨_, e⟩ | ⟨_, e⟩ | ⟨_, e⟩ <;> rw [e]
  · rfl
  · unfold startCompress; split <;> simp
  · unfold startDecompress; split <;> simp
  · unfold startSize; split <;> simp
  · unfold startSerialize preCheck writeHeader
    repeat' split
    all_goals simp
  · unfold startDeserialize; simp only; split <;> simp
  · rfl
  · simp [startReserved]

theorem takeStart_starting (s : State) : (takeStart s).starting = false := by simp [takeStart]

theorem raise_overPhase (k : ErrKind) (p : Phase) (s : State) : raise k { s with phase := p } = raise k s := by
  unfold raise cleanUp
  split_ifs <;> rfl

/-- Every start rule writes `PHASE`, whatever it held (R22). -/
theorem startRule_overPhase (v : Byte) (p : Phase) (s : State) : startRule v { s with phase := p } = startRule v s := by
  unfold startRule
  split
  · rfl
  · show (if inputBad s then raise _ { s with phase := p } else _) = _
    rw [raise_overPhase]; rfl
  · show (if noData s then raise _ { s with phase := p } else _) = _
    rw [raise_overPhase]; rfl
  · rfl
  · rfl
  · rfl
  · rfl
  · exact raise_overPhase _ p s

/-- A command that the host starts without waiting goes on as the one run in one step (R71, R72). -/
theorem takeStart_writeCmd {v : Byte} {s : State} (hs : s.starting = false) : takeStart (writeCmd v s) = startOnly v s := by
  have hb : (beginCommand v s).starting = false := by simpa using hs
  have : ({ writeCmd v s with starting := false } : State) =
      { beginCommand v s with phase := busyPhase (Config.startPhase v) } := by rw [← hb]; rfl
  rw [takeStart, this, startRule_overPhase, startOnly, show (writeCmd v s).cmd = v from beginCommand_cmd v s]

end Sys2Proof.Machine
end

