-- ==== Sys2Proof/Laws/Commands.lean ====
section
/-! SUPPORT. What a command code does (10_state.md R27, 60_exceptions.md R300 to R304), what the sequencer's steps and the host's
accesses keep, and that a command ends. -/

namespace Sys2Proof.Machine

/-! ### The sequencer -/

theorem transition_inv {s : State} (h : Inv s) (hns : s.starting = false) (hb : s.st = .busy) : Inv (transition s) := by
  have hp := h.pass hns
  unfold transition
  unfold PassOk at hp
  cases hph : s.phase <;> simp only [hph] at hp ⊢
  · exact h
  · obtain ⟨hm, hk, hon⟩ := encLitStep_spec h.mem.blkWf h.control.legal hph hb hp
    exact encoded_inv h hns hb hm hk hon
  · obtain ⟨hm, hk, hon⟩ := encRepStep_spec h.mem.blkWf h.control.legal hph hb hp
    exact encoded_inv h hns hb hm hk hon
  · exact decSum_inv h hns hph hb
  · exact decExp_inv h hns hph hb
  · exact size_inv h hns hph hb
  · exact ser_inv h hns hph hb
  · exact des_inv h hns hph hb

/-- No transition of a pass makes a start pending. -/
@[simp] theorem transition_starting (s : State) : (transition s).starting = s.starting := by
  unfold transition
  split
  · rfl
  · unfold encLitStep closeLiteral emit
    split_ifs <;> simp [extendLiteral, openRepeat]
  · unfold encRepStep closeRepeat emit
    split_ifs <;> simp [extendRepeat, finishCompress]
  · unfold decSumStep sumBlock allocateOut
    split_ifs <;> simp
  · unfold expandByte endBlock
    simp only
    split_ifs <;> simp [finishDecompress]
  · unfold sizeStep sizeBlock
    split_ifs <;> simp [finishSize]
  · unfold serStep
    split_ifs <;> simp [writeBlock, finishSerialize]
  · unfold desStep acceptCount loadBlock
    repeat' split
    all_goals simp [finishDeserialize]

theorem runToEnd_inv {s : State} (h : Inv s) (hns : s.starting = false) (fuel : Nat) : Inv (runToEnd fuel s) := by
  induction fuel generalizing s with
  | zero => exact h
  | succ fuel ih =>
    by_cases hb : s.st = .busy
    · rw [runToEnd_busy hb]; exact ih (transition_inv h hns hb) (by simpa using hns)
    · rw [runToEnd_stopped hb]; exact h

/-- A busy state of the machine in which no start is pending is in the middle of a pass. -/
theorem Inv.phase_ne {s : State} (h : Inv s) (hb : s.st = .busy) : s.phase ≠ .idle := fun hp =>
  absurd hb (h.control.phaseIdle.1 hp)

/-- How many transitions the running pass can still make, at most. -/
def transitionsLeft (s : State) : Nat :=
  match s.phase with
  | .idle => 0
  | .encLit => 2 * s.n.toNat - encProgress s
  | .encRep => 2 * s.n.toNat - encProgress s
  | .decSum => decLeft s s
  | .decExp => decLeft s s
  | .size => s.nblk.toNat - s.dB
  | .ser => s.nblk.toNat - s.sB
  | .des => readLeft s

/-- Every busy state of the machine in which no start is pending ends its command (R30). -/
theorem Inv.ends {s : State} (h : Inv s) (hns : s.starting = false) (hb : s.st = .busy) : ∃ k t, EndsAfter k s t ∧ k ≤ transitionsLeft s + 1 := by
  have hp := h.pass hns
  unfold PassOk at hp
  have hlegal := h.control.legal
  have ofCompress : ((s.phase = .encLit ∧ LitScan s) ∨ (s.phase = .encRep ∧ RepScan s)) →
      ∃ k t, EndsAfter k s t ∧ k ≤ 2 * s.n.toNat - encProgress s + 1 := fun hs => by
    obtain ⟨k, t, hk, he, _⟩ := endsAfter_of_progress (I := Compressing s) (Q := CompressEnded s)
      (left := fun t => 2 * s.n.toNat - encProgress t) (n := 2 * s.n.toNat - encProgress s)
      (fun t ht => ht.busy) (fun t ht => by
        rcases ht.next hlegal with ⟨hn, hpr⟩ | ⟨he, hst, _⟩
        · have := hn.progress_le
          exact .inl ⟨hn, by omega⟩
        · exact .inr ⟨he, hst⟩) (s := s) ⟨hb, rfl, h.mem.blkWf, h.caps.blkCap, hs⟩ (Nat.le_refl _)
    exact ⟨k, t, he, hk⟩
  have ofDecompress : ((s.phase = .decSum ∧ SumPass s) ∨ (s.phase = .decExp ∧ ExpandPass s ∧ s.outMem.wf .out)) →
      ∃ k t, EndsAfter k s t ∧ k ≤ decLeft s s + 1 := fun hs => by
    obtain ⟨k, t, hk, he, _⟩ := endsAfter_of_progress (I := Decompressing s) (Q := DecompressEnded s)
      (left := decLeft s) (n := decLeft s s) (fun t ht => ht.busy) (fun t ht => by
        rcases ht.next with ⟨hn, hpr⟩ | ⟨he, hst, _⟩
        · exact .inl ⟨hn, by omega⟩
        · exact .inr ⟨he, hst⟩) (s := s) ⟨hb, rfl, hs⟩ (Nat.le_refl _)
    exact ⟨k, t, he, hk⟩
  cases hph : s.phase <;> simp only [transitionsLeft, hph] at hp ⊢
  · exact absurd hph (h.phase_ne hb)
  · exact ofCompress (.inl ⟨hph, hp⟩)
  · exact ofCompress (.inr ⟨hph, hp⟩)
  · exact ofDecompress (.inl ⟨hph, hp⟩)
  · exact ofDecompress (.inr ⟨hph, hp, h.mem.outWf⟩)
  · obtain ⟨k, t, hk, he, _⟩ := endsAfter_of_progress (I := fun t => t.st = .busy ∧ t.phase = .size ∧ t.nblk = s.nblk ∧ SizePass t)
      (Q := fun _ => True) (left := fun t => s.nblk.toNat - t.dB) (n := s.nblk.toNat - s.dB) (fun t ht => ht.1) (fun t ht => by
        obtain ⟨hst, htp, hn, hpass⟩ := ht
        have htr : transition t = sizeStep t := by simp only [transition, htp]
        rw [htr]
        rcases sizeStep_spec hpass with ⟨he, hlt, hnext⟩ | ⟨he, _, _, _⟩ | ⟨_, hf⟩
        · rw [hn] at hlt
          refine .inl ⟨⟨he ▸ hst, he ▸ htp, he ▸ hn, hnext⟩, ?_⟩
          rw [he]
          show s.nblk.toNat - (t.dB + 1) < s.nblk.toNat - t.dB
          omega
        · exact .inr ⟨trivial, by rw [he]; simp [finishSize]⟩
        · exact .inr ⟨trivial, by rw [hf]; simp⟩) (s := s) ⟨hb, hph, rfl, hp⟩ (Nat.le_refl _)
    exact ⟨k, t, he, hk⟩
  · obtain ⟨k, t, hk, he, _⟩ := endsAfter_of_progress (I := Serializing s) (Q := Serialized s)
      (left := fun t => s.nblk.toNat - t.sB) (n := s.nblk.toNat - s.sB) (fun t ht => ht.busy) (fun t ht => ht.next)
      (s := s) ⟨hb, hph, rfl, h.mem.strWf, hp⟩ (Nat.le_refl _)
    exact ⟨k, t, he, hk⟩
  · obtain ⟨k, t, hk, he, _⟩ := endsAfter_of_progress (I := Deserializing s) (Q := DeserializeEnded s)
      (left := readLeft) (n := readLeft s) (fun t ht => ht.busy) (fun t ht => ht.next)
      (s := s) ⟨hb, hph, rfl, h.mem.blkWf, h.caps.blkCap, hp⟩ (Nat.le_refl _)
    exact ⟨k, t, he, hk⟩

/-- The fuel of a command is enough for every busy state of the machine. -/
theorem transitionsLeft_lt_fuel {s : State} (h : Inv s) (hns : s.starting = false) : transitionsLeft s + 1 ≤ fuelFor s := by
  have hlen := totalLen_blocksFrom_le s 0 s.nblk.toNat
  unfold transitionsLeft fuelFor
  cases hph : s.phase
  · simp only; omega
  · simp only; omega
  · simp only; omega
  · simp only [decLeft, hph, storedBlocks]; omega
  · simp only [decLeft, hph, storedBlocks]; omega
  · simp only; omega
  · simp only; omega
  · have hp := h.pass hns
    simp only [PassOk, hph] at hp
    simp only [readLeft]
    split
    · omega
    · rcases hp.position with ⟨_, _⟩ | ⟨_, _, _, _, hc, _⟩ <;> omega

/-- A command run from a busy state of the machine has ended. -/
theorem runCommand_ended {s : State} (h : Inv s) (hns : s.starting = false) : (runCommand s).st ≠ .busy := by
  by_cases hb : s.st = .busy
  · obtain ⟨k, t, he, hk⟩ := h.ends hns hb
    rw [runCommand, he.run (Nat.le_trans hk (transitionsLeft_lt_fuel h hns))]
    exact he.ended
  · rw [runCommand, runToEnd_stopped hb]; exact hb

/-- A step of the sequencer is one or more of its transitions: all of a block's in the expansion pass, else one (R72). -/
theorem sequencerStep_eq_run {s : State} (h : Inv s) (hns : s.starting = false) (hb : s.st = .busy) :
    ∃ j, sequencerStep s = .next (runToEnd (j + 1) s) ∧ ∀ i < j + 1, (runToEnd i s).st = .busy := by
  have hone : ∀ i < 0 + 1, (runToEnd i s).st = .busy := fun i hi => by
    obtain rfl : i = 0 := by omega
    exact hb
  have hp := h.pass hns
  unfold PassOk at hp
  cases hph : s.phase <;> simp only [hph] at hp
  case idle => exact absurd hph (h.phase_ne hb)
  case decExp =>
    have hpos := hp.position
    have hlen : (entryBytes s s.dB) = (entryBlock s s.dB).ctrl :: ((entryBlock s s.dB).payload ++ []) := by simp [entryBytes]
    have hf : fetch s = .instr (entryBlock s s.dB).instr := by
      simp only [fetch, hph, fetchFrom, decode, hlen, decodeBlock_block (entryBlock_lengthOk s s.dB)]
    have he : sequencerStep s = .next (expandBlock (entryBlock s s.dB).expand s) := by
      unfold sequencerStep
      rw [if_neg (by simp [hns]), hf]
      cases entryBlock s s.dB <;> simp only [Block.instr, exec, execLit, execRep, executeBlock, hph, Block.expand]
    obtain ⟨hbusy, hrun⟩ := expandBlock_eq_run (n := lenOf (entryCtrl s s.dB) - s.dK - 1) hph hb (by omega)
    exact ⟨_, by rw [he, hrun], hbusy⟩
  case des =>
    refine ⟨0, ?_, hone⟩
    rw [runToEnd_busy hb, runToEnd_zero]
    simp only [transition, hph]
    unfold sequencerStep desStep
    rw [if_neg (by simp [hns])]
    have hfetch : (∃ c, fetch s = .instr (.count c)) ∨ (∃ k : Block, fetch s = .instr k.instr) ∨ ∃ k, fetch s = .fails k := by
      simp only [fetch, hph, inOrder_eq]
      split
      · unfold fetchFrom decode
        simp only
        cases hd : decodeHeader (strBytes s 0 (min 4 s.strLen.toNat)) with
        | error e => exact .inr (.inr ⟨_, rfl⟩)
        | ok r =>
          obtain ⟨i, rest⟩ := r
          unfold decodeHeader at hd
          split at hd
          · cases hd; exact .inl ⟨_, rfl⟩
          · cases hd
      · unfold fetchFrom decode
        simp only
        cases hd : decodeBlock (bytesAhead s) with
        | error e => exact .inr (.inr ⟨_, rfl⟩)
        | ok r =>
          obtain ⟨i, rest⟩ := r
          obtain ⟨k, rfl, _, _⟩ := decodeBlock_ok_block hd
          exact .inr (.inl ⟨k, rfl⟩)
    rcases hfetch with ⟨c, hf⟩ | ⟨k, hf⟩ | ⟨k, hf⟩ <;> rw [hf]
    · simp only [exec, execCount, hph]
    · cases k <;> simp only [Block.instr, exec, execLit, execRep, executeBlock, hph]
  all_goals
    refine ⟨0, ?_, hone⟩
    rw [runToEnd_busy hb, runToEnd_zero]
    simp only [sequencerStep, hns, Bool.false_eq_true, if_false, fetch, hph]

/-! ### Command codes -/

/-- What a command code does: refused while busy (R304), else started and run to its end (R300). -/
theorem exec_decodeCommand (v : Byte) (s : State) :
    exec (decodeCommand v) s = if s.st = .busy then .refused .hostWriteWhileBusy else .next (runCommand (startOnly v s)) := by
  have hc := encode_decodeCommand v
  unfold startOnly startRule
  cases hd : decodeCommand v with
  | lit p => exact absurd (hd ▸ spaceOf_decodeCommand v) (by simp [spaceOf])
  | rep l b => exact absurd (hd ▸ spaceOf_decodeCommand v) (by simp [spaceOf])
  | count c => exact absurd (hd ▸ spaceOf_decodeCommand v) (by simp [spaceOf])
  | pack k l => exact absurd (hd ▸ spaceOf_decodeCommand v) (by simp [spaceOf])
  | unpack c => exact absurd (hd ▸ spaceOf_decodeCommand v) (by simp [spaceOf])
  | _ =>
    rw [hd] at hc
    simp only [encode, List.cons.injEq, and_true] at hc
    subst hc
    rfl

theorem exec_command {v : Byte} {s : State} (hst : s.st ≠ .busy) :
    exec (decodeCommand v) s = .next (runCommand (startOnly v s)) := by rw [exec_decodeCommand, if_neg hst]

/-! ### The host's accesses -/

/-- While not busy, only the memories, the bounds and the control registers count. -/
theorem Inv.idle {s t : State} (h : Inv s) (hst : s.st ≠ .busy) (hcfg : t.cfg = s.cfg) (hts : t.st = s.st) (hte : t.err = s.err)
    (htp : t.phase = s.phase) (hsr : t.starting = s.starting) (hov : t.outValid = s.outValid) (hol : t.outLen = s.outLen)
    (hregs : [t.eI, t.eM, t.eR, t.dB, t.dK, t.dO, t.dTotal, t.sB, t.sP] = [s.eI, s.eM, s.eR, s.dB, s.dK, s.dO, s.dTotal, s.sB, s.sP])
    (hm : MemOk t) (hc : CapsOk t) : Inv t := by
  have hph := h.control.phaseIdle.2 hst
  simp only [List.cons.injEq, and_true] at hregs
  obtain ⟨h1, h2, h3, h4, h5, h6, h7, h8, h9⟩ := hregs
  have hw : WidthsOk t := by
    obtain ⟨w1, w2, w3, w4, w5, w6, w7, w8, w9⟩ := h.widths
    constructor <;> simpa only [h1, h2, h3, h4, h5, h6, h7, h8, h9, hcfg]
  exact Sound.inv_ended ⟨hm, hc, hcfg ▸ h.control.legal, hsr.trans (h.started hst), by rw [hov, hol]; exact h.control.noOutput, hw⟩
    (htp.trans hph) (by rw [hts]; exact hst) (by rw [hte, hts]; exact h.control.errFail)

theorem resetEvent_inv {s : State} (h : Inv s) : Inv (resetEvent s) :=
  Sound.inv_ended ⟨⟨forget_wf _ _, forget_wf _ _, forget_wf _ _, forget_wf _ _⟩,
    ⟨forget_bound, forget_bound, forget_bound, forget_bound⟩, h.control.legal, rfl, fun _ => rfl,
    ⟨Nat.two_pow_pos _, Nat.two_pow_pos _, Nat.two_pow_pos _, Nat.two_pow_pos _, Nat.two_pow_pos _, Nat.two_pow_pos _,
      Nat.two_pow_pos _, Nat.two_pow_pos _, Nat.two_pow_pos _⟩⟩ rfl (by simp [resetEvent, State.resetWith])
    (by simp [resetEvent, State.resetWith])

/-- A field that no pass reads or writes: what the host still has to do, what it read, what it drives on the ports. -/
def aside (s : State) (hs : List HostAct) (v : Word64) (d : Nat) (k : Kind) (l c : Byte) : State :=
  { s with host := hs, lastRead := v, draws := d, pkKind := k, pkLen := l, upCtrl := c }

theorem Covered.aside {s : State} (h : Covered s) (hs v d k l c) : Covered (aside s hs v d k l c) := by
  have hst : storedBlocks (Machine.aside s hs v d k l c) = storedBlocks s := storedBlocks_congr rfl rfl
  have haw : ∀ b n, allWellFormed (Machine.aside s hs v d k l c) b n = allWellFormed s b n := allWellFormed_congr rfl rfl
  have hep : ∀ b, entryPresent (Machine.aside s hs v d k l c) b = entryPresent s b := entryPresent_congr rfl rfl
  refine ⟨h.running, h.cap, h.count, (haw _ _).trans h.wellFormed, fun b hb => (hep b).trans (h.rest b hb), ?_, ?_⟩
  · rw [hst]; exact h.expands
  · rw [hst]; exact h.agrees

/-- What holds in the running pass does not depend on them. -/
theorem PassOk.aside {s : State} (h : PassOk s) (hs v d k l c) : PassOk (aside s hs v d k l c) := by
  have hst : storedBlocks (Machine.aside s hs v d k l c) = storedBlocks s := storedBlocks_congr rfl rfl
  have hbf : ∀ b n, blocksFrom (Machine.aside s hs v d k l c) b n = blocksFrom s b n := blocksFrom_congr rfl
  have hau : ∀ b n, allUsable (Machine.aside s hs v d k l c) b n = allUsable s b n := allUsable_congr rfl rfl
  have hsu : storeUsable (Machine.aside s hs v d k l c) = storeUsable s := storeUsable_congr rfl rfl rfl
  have haw : ∀ b n, allWellFormed (Machine.aside s hs v d k l c) b n = allWellFormed s b n := allWellFormed_congr rfl rfl
  have hep : ∀ b, entryPresent (Machine.aside s hs v d k l c) b = entryPresent s b := entryPresent_congr rfl rfl
  unfold PassOk at h ⊢
  rw [show (Machine.aside s hs v d k l c).phase = s.phase from rfl]
  cases hp : s.phase <;> simp only [hp] at h ⊢
  · exact ⟨h.toCovered.aside hs v d k l c, h.2, h.3, h.4, h.5⟩
  · exact ⟨h.toCovered.aside hs v d k l c, h.2, h.3, h.4, h.5, h.6⟩
  · exact ⟨h.1, h.2, (hau _ _).trans h.3, by rw [hbf]; exact h.4⟩
  · exact ⟨h.1, h.2, hsu.trans h.3, by rw [hbf]; exact h.4, by rw [hst]; exact h.5, by rw [hst]; exact h.6⟩
  · exact ⟨h.1, h.2, (hau _ _).trans h.3, by rw [hbf]; exact h.4⟩
  · exact ⟨h.1, h.2, hsu.trans h.3, by rw [hbf]; exact h.4, by rw [hst]; exact h.5, by rw [hbf]; exact h.6⟩
  · refine ⟨h.1, fun b hb => (hep b).trans (h.2 b hb), ?_⟩
    rw [hbf, haw]
    exact h.3

theorem Inv.aside {s : State} (h : Inv s) (hs v d k l c) : Inv (aside s hs v d k l c) := by
  have hm := h.mem; have hc := h.caps; have hw := h.widths; have hl := h.control
  have hep : ∀ b, entryPresent (Machine.aside s hs v d k l c) b = entryPresent s b := entryPresent_congr rfl rfl
  refine ⟨⟨hm.1, hm.2, hm.3, hm.4⟩, ⟨hc.1, hc.2, hc.3, hc.4⟩, ⟨hl.1, hl.2, hl.3, hl.4⟩,
    ⟨hw.1, hw.2, hw.3, hw.4, hw.5, hw.6, hw.7, hw.8, hw.9⟩, fun hs' => ?_, fun hs' => (h.pass hs').aside hs v d k l c⟩
  have hp := h.start hs'
  exact ⟨hp.busy, fun hcmd => ⟨(hp.released hcmd).1, (hp.released hcmd).2.1, fun b => (hep b).trans ((hp.released hcmd).2.2 b)⟩,
    hp.invalidated⟩

/-- A host access that goes on keeps the invariant (R330). -/
theorem hostAccess_inv {s t : State} {a : HostAccess} (h : Inv s) (ha : hostAccess a s = .next t) : Inv t := by
  have hm := h.mem; have hc := h.caps
  have hwrite : ∀ {u : State}, hostWrite u s = .next t → s.st ≠ .busy ∧ t = u := fun hu => by
    unfold hostWrite at hu
    split at hu
    · cases hu
    · next hst => cases hu; exact ⟨hst, rfl⟩
  have hwriteAt : ∀ {x cap : Nat} {u : State}, hostWriteAt x cap u s = .next t → s.st ≠ .busy ∧ x < cap ∧ t = u := fun hu => by
    unfold hostWriteAt at hu
    split at hu
    · cases hu
    · next hst =>
      split at hu
      · next hlt => cases hu; exact ⟨hst, hlt, rfl⟩
      · cases hu
  have hread : ∀ {v : Word64}, hostRead v s = .next t → Inv t := fun hu => by
    unfold hostRead at hu
    split at hu
    · cases hu; exact h.aside s.host _ _ s.pkKind s.pkLen s.upCtrl
    · cases hu; exact h.aside s.host _ s.draws s.pkKind s.pkLen s.upCtrl
  have hreadAt : ∀ {x cap : Nat} {v : Byte}, hostReadAt x cap v s = .next t → Inv t := fun hu => by
    unfold hostReadAt at hu
    split at hu
    · exact hread hu
    · cases hu
  cases a with
  | reset => cases ha; exact resetEvent_inv h
  | read r =>
    cases r with
    | status => cases ha; exact h.aside s.host _ s.draws s.pkKind s.pkLen s.upCtrl
    | _ => exact hread ha
  | readIn x => exact hreadAt ha
  | readOut x => exact hreadAt ha
  | readStr x => exact hreadAt ha
  | readEntry b f => exact hread ha
  | write r v =>
    obtain ⟨hst, rfl⟩ := hwrite ha
    cases r with
    | cmd => exact writeCmd_inv h hst _
    | _ => exact h.idle hst rfl rfl rfl rfl rfl rfl rfl rfl ⟨hm.1, hm.2, hm.3, hm.4⟩ ⟨hc.1, hc.2, hc.3, hc.4⟩
  | writeFlag f v =>
    obtain ⟨hst, rfl⟩ := hwrite ha
    cases f <;> exact h.idle hst rfl rfl rfl rfl rfl rfl rfl rfl ⟨hm.1, hm.2, hm.3, hm.4⟩ ⟨hc.1, hc.2, hc.3, hc.4⟩
  | writeIn x v =>
    obtain ⟨hst, hlt, rfl⟩ := hwriteAt ha
    exact h.idle hst rfl rfl rfl rfl rfl rfl rfl rfl ⟨write_wf hm.1 _ _, hm.2, hm.3, hm.4⟩ ⟨write_bound hc.1 hlt _, hc.2, hc.3, hc.4⟩
  | writeOut x v =>
    obtain ⟨hst, hlt, rfl⟩ := hwriteAt ha
    exact h
  | writeStr x v =>
    obtain ⟨hst, hlt, rfl⟩ := hwriteAt ha
    exact h.idle hst rfl rfl rfl rfl rfl rfl rfl rfl ⟨hm.1, hm.2, hm.3, write_wf hm.4 _ _⟩ ⟨hc.1, hc.2, hc.3, write_bound hc.4 hlt _⟩
  | writeEntry b f v =>
    obtain ⟨hst, hlt, rfl⟩ := hwriteAt ha
    have hb := (fieldAddr_bounds b f).2
    have hle : entrySize * (b + 1) ≤ entrySize * s.cfg.blkCap := Nat.mul_le_mul_left _ hlt
    exact h.idle hst rfl rfl rfl rfl rfl rfl rfl rfl ⟨hm.1, write_wf hm.2 _ _, hm.3, hm.4⟩
      ⟨hc.1, write_bound hc.2 (Nat.lt_of_lt_of_le hb hle) _, hc.3, hc.4⟩

end Sys2Proof.Machine
end

