-- ==== Sys2Proof/Laws/PerInstr.lean ====
section
/-! SUPPORT. What holds of every instruction as syntax: a well-formed one encodes to as many bytes as the table gives it, never
none and never more than the longest instruction has (30_encoding.md R94, R95, R102). -/

namespace Sys2Proof.Laws

open Sys2Proof

/-- The encoding has the length R94, R95 and R102 give it. -/
def EncodeLength.Statement (i : Instr) : Prop :=
  i.wellFormed = true → (encode i).length = encodedLength i ∧ 1 ≤ encodedLength i ∧ encodedLength i ≤ longestInstr

theorem EncodeLength.lit (payload : List Byte) : EncodeLength.Statement (.lit payload) := by
  intro h
  have h2 := (lengthOk_iff.1 h).2
  refine ⟨?_, ?_, ?_⟩
  · simp only [encode, encodedLength, List.length_cons]; omega
  · simp only [encodedLength]; omega
  · simp only [encodedLength, longestInstr]; omega

theorem EncodeLength.rep (len : Nat) (b : Byte) : EncodeLength.Statement (.rep len b) :=
  fun _ => ⟨rfl, by simp only [encodedLength]; omega, by simp only [encodedLength, longestInstr]; omega⟩

theorem EncodeLength.count (c : Word32) : EncodeLength.Statement (.count c) :=
  fun _ => ⟨rfl, by simp only [encodedLength]; omega, by simp only [encodedLength, longestInstr]; omega⟩

/-- An instruction of one byte. -/
theorem oneByte {i : Instr} (hl : (encode i).length = 1) (he : encodedLength i = 1) : EncodeLength.Statement i :=
  fun _ => ⟨hl.trans he.symm, by omega, by simp only [longestInstr]; omega⟩

theorem EncodeLength.nop : EncodeLength.Statement .nop := oneByte rfl rfl
theorem EncodeLength.compress : EncodeLength.Statement .compress := oneByte rfl rfl
theorem EncodeLength.decompress : EncodeLength.Statement .decompress := oneByte rfl rfl
theorem EncodeLength.size : EncodeLength.Statement .size := oneByte rfl rfl
theorem EncodeLength.serialize : EncodeLength.Statement .serialize := oneByte rfl rfl
theorem EncodeLength.deserialize : EncodeLength.Statement .deserialize := oneByte rfl rfl
theorem EncodeLength.release : EncodeLength.Statement .release := oneByte rfl rfl
theorem EncodeLength.reserved07 : EncodeLength.Statement .reserved07 := oneByte rfl rfl
theorem EncodeLength.reserved08 (low : BitVec 3) : EncodeLength.Statement (.reserved08 low) := oneByte rfl rfl
theorem EncodeLength.reserved10 (low : BitVec 4) : EncodeLength.Statement (.reserved10 low) := oneByte rfl rfl
theorem EncodeLength.reserved20 (low : BitVec 5) : EncodeLength.Statement (.reserved20 low) := oneByte rfl rfl
theorem EncodeLength.reserved40 (low : BitVec 6) : EncodeLength.Statement (.reserved40 low) := oneByte rfl rfl
theorem EncodeLength.reserved80 (low : BitVec 7) : EncodeLength.Statement (.reserved80 low) := oneByte rfl rfl
theorem EncodeLength.pack (kind : Kind) (len : Byte) : EncodeLength.Statement (.pack kind len) := oneByte rfl rfl
theorem EncodeLength.unpack (c : Byte) : EncodeLength.Statement (.unpack c) := oneByte rfl rfl

end Sys2Proof.Laws
end

