-- ==== Sys2Proof/Laws/Step.lean ====
section
/-! SUPPORT. Everything one step can do when it answers a next state. -/

namespace Sys2Proof.Machine

/-- The outcomes of a step that goes on: a step of the sequencer, with the host's list as it was or a `.tick` shorter; nothing, or
only a shorter list; a command run to its end; a port; a host access. -/
inductive SteppedOn (s t : State) : Prop where
  | sequencer (hs : List HostAct) (busy : s.st = .busy) (next : sequencerStep { s with host := hs } = .next t)
  | idle (hs : List HostAct) (stopped : s.st ≠ .busy) (next : t = { s with host := hs })
  | command (v : Byte) (rest : List HostAct) (stopped : s.st ≠ .busy) (next : t = runCommand (startOnly v { s with host := rest }))
  | pack (k : Kind) (len : Byte) (rest : List HostAct) (next : t = { s with host := rest, pkKind := k, pkLen := len })
  | unpack (c : Byte) (rest : List HostAct) (next : t = { s with host := rest, upCtrl := c })
  | access (a : HostAccess) (rest : List HostAct) (next : hostAccess a { s with host := rest } = .next t)

theorem step_spec {s t : State} (h : step s = .next t) : SteppedOn s t := by
  unfold step at h
  split at h
  · split at h
    · next hb => exact .sequencer s.host hb h
    · next hb => exact .idle s.host hb (Host.Outcome.next.inj h).symm
  · split at h
    · next hb => exact .sequencer s.host hb h
    · next hb => exact .idle _ hb (Host.Outcome.next.inj h).symm
  · split at h
    · next hb => exact .sequencer _ hb h
    · next hb => exact .idle _ hb (Host.Outcome.next.inj h).symm
  · next v rest _ =>
    rw [exec_decodeCommand] at h
    split at h
    · cases h
    · next hb => exact .command v rest hb (Host.Outcome.next.inj h).symm
  · exact .pack _ _ _ (Host.Outcome.next.inj h).symm
  · exact .unpack _ _ (Host.Outcome.next.inj h).symm
  · exact .access _ _ h

end Sys2Proof.Machine
end

