-- ==== Sys2Proof/Tests/Slice0.lean ====
section
/-! SUPPORT. Tests against the spec's own words and vectors (95_test_vectors.md), and a witness for the hypotheses of every
statement that has some. -/

namespace Sys2Proof.Tests

open Sys2Proof Sys2Proof.Machine

/-! ### Helpers -/

/-- A small block: 4 entries, 16 bytes of output, 32 of stream, 8 of input. -/
def small : Config := { Config.standard with blkCap := 4, outCap := 16, strCap := 32, inCap := 8 }

/-- The outcome is a next state with this property. -/
def answers (o : Host.Outcome State Fault Refusal) (p : State → Bool) : Bool :=
  match o with
  | .next t => p t
  | .fault _ => false
  | .refused _ => false

/-- The host makes these accesses one after the other; one that does not succeed changes nothing. -/
def after (as : List HostAccess) (s : State) : State :=
  match as with
  | [] => s
  | a :: rest =>
    match hostAccess a s with
    | .next t => after rest t
    | .fault _ => after rest s
    | .refused _ => after rest s

/-- Writes of a sequence of bytes, the first at `a`. -/
def writes (w : Nat → Byte → HostAccess) (a : Nat) : List Byte → List HostAccess
  | [] => []
  | b :: bs => w a b :: writes w (a + 1) bs

/-- The accesses that install an input. -/
def inputOf (bytes : List Byte) : List HostAccess :=
  .write .n (BitVec.ofNat 64 bytes.length) :: .writeFlag .inPresent true :: writes .writeIn 0 bytes

/-- The accesses that install a stream. -/
def streamOf (bytes : List Byte) : List HostAccess :=
  .write .strLen (BitVec.ofNat 64 bytes.length) :: .writeFlag .strPresent true :: writes .writeStr 0 bytes

/-- The accesses that install entry `b` with all of this payload. -/
def entryOf (b : Nat) (ctrl : Byte) (payload : List Byte) : List HostAccess :=
  .writeEntry b .present 1#8 :: .writeEntry b .ctrl ctrl :: .writeEntry b .plen (BitVec.ofNat 8 payload.length) ::
    writes (fun k v => .writeEntry b (.pay (Fin.ofNat 128 k)) v) 0 payload

/-- The accesses that declare `n` entries valid. -/
def countOf (n : Nat) : List HostAccess := [.write .nblk (BitVec.ofNat 64 n), .writeFlag .cdValid true]

/-- A fresh small block after these accesses. -/
def block (as : List HostAccess) : State := after as (State.resetWith small)

/-- "abbc" as input. -/
def abbc : List Byte := [0x61#8, 0x62#8, 0x62#8, 0x63#8]

/-- The entries of V-D3, whose expansion is "abbc". -/
def vd3 : List HostAccess :=
  entryOf 0 0x00#8 [0x61#8] ++ entryOf 1 0x03#8 [0x62#8] ++ entryOf 2 0x01#8 [0x63#8] ++ countOf 3

/-- The stream of V-E7. -/
def ve7 : List Byte := [0x03#8, 0x00#8, 0x00#8, 0x00#8, 0x00#8, 0x61#8, 0x03#8, 0x62#8, 0x01#8, 0x63#8]

theorem small_inv : Inv (State.resetWith small) := by
  refine ⟨⟨emptyMem_wf _, emptyMem_wf _, emptyMem_wf _, emptyMem_wf _⟩, ⟨?_, ?_, ?_, ?_⟩, ⟨by decide, by decide, by decide, by decide⟩,
    ⟨by decide, by decide, by decide, by decide, by decide, by decide, by decide, by decide, by decide⟩, by rintro ⟨⟩, fun _ => trivial⟩
  all_goals simp [State.resetWith, emptyMem]

theorem after_inv (as : List HostAccess) {s : State} (h : Inv s) : Inv (after as s) := by
  induction as generalizing s with
  | nil => exact h
  | cons a rest ih =>
    unfold after
    split
    · next t ht => exact ih (hostAccess_inv h ht)
    · exact ih h
    · exact ih h

theorem block_inv (as : List HostAccess) : Inv (block as) := after_inv as small_inv

/-! ### Well-formedness: the terms the checks refuse (R41, R7) -/

theorem test_wellFormed_lit_empty : Instr.wellFormed (.lit []) = false := by decide
theorem test_wellFormed_lit_129 : Instr.wellFormed (.lit (List.replicate 129 0#8)) = false := by decide +kernel
theorem test_wellFormed_lit_128 : Instr.wellFormed (.lit (List.replicate 128 0#8)) = true := by decide +kernel
theorem test_wellFormed_rep_zero : Instr.wellFormed (.rep 0 0#8) = false := by decide
theorem test_wellFormed_rep_129 : Instr.wellFormed (.rep 129 0#8) = false := by decide
theorem test_wellFormed_pack_zero : Instr.wellFormed (.pack .rep 0#8) = false := by decide
theorem test_wellFormed_pack_129 : Instr.wellFormed (.pack .lit 129#8) = false := by decide

/-! ### Decoding: words written out from the encodings (R91 to R95, R102, R303) -/

/-- `LIT` (R92): bits 7:1 = 0000010 (length 3), bit 0 = 0, then the three bytes. -/
theorem test_decode_lit : decode .block [0b00000100#8, 0x61#8, 0x62#8, 0x61#8, 0x99#8] =
    .ok (.lit [0x61#8, 0x62#8, 0x61#8], [0x99#8]) := rfl

/-- `REP` (R93): bits 7:1 = 0000101 (length 6), bit 0 = 1, then the byte. -/
theorem test_decode_rep : decode .block [0b00001011#8, 0x62#8] = .ok (.rep 6 0x62#8, []) := rfl

/-- `COUNT` (R95): the lowest byte first. -/
theorem test_decode_count : decode .header [0x02#8, 0x00#8, 0x01#8, 0x00#8] = .ok (.count 0x00010002#32, []) := rfl

/-- `FF FF FF FF` is the count -1 (R95, V-T3). -/
theorem test_decode_count_negative : (unle32 0xFF#8 0xFF#8 0xFF#8 0xFF#8).toInt = -1 := by decide

/-- The seven commands (R102). -/
theorem test_decode_commands :
    (List.map decodeCommand [0b00000000#8, 0b00000001#8, 0b00000010#8, 0b00000011#8, 0b00000100#8, 0b00000101#8, 0b00000110#8]) =
      [.nop, .compress, .decompress, .size, .serialize, .deserialize, .release] := by decide

/-- The ends of the six reserved rows (R303). -/
theorem test_decode_reserved :
    (List.map decodeCommand [0x07#8, 0x08#8, 0x0F#8, 0x10#8, 0x1F#8, 0x20#8, 0x3F#8, 0x40#8, 0x7F#8, 0x80#8, 0xFF#8]) =
      [.reserved07, .reserved08 0#3, .reserved08 7#3, .reserved10 0#4, .reserved10 15#4, .reserved20 0#5, .reserved20 31#5,
        .reserved40 0#6, .reserved40 63#6, .reserved80 0#7, .reserved80 127#7] := by decide

/-- V-P1, V-P5, V-P7, V-P9, V-P10. -/
theorem test_pack_vectors : [packLen .lit 1, packLen .rep 6, packLen .lit 65, packLen .lit 128, packLen .rep 128] =
    [0x00#8, 0x0B#8, 0x80#8, 0xFE#8, 0xFF#8] := by decide

/-- V-P11. -/
theorem test_unpack_vectors : (List.map (fun c => (kindOf c, lenOf c)) [0x00#8, 0x57#8, 0x80#8, 0xFF#8]) =
    [(.lit, 1), (.rep, 44), (.lit, 65), (.rep, 128)] := by decide

/-- A table word of 8 bits is a command code, of 32 bits a header. -/
theorem test_table_words : decodeTableWord 8 0x06 = some .release ∧ decodeTableWord 32 0x02 = some (.count 2#32) := by decide

/-! ### The commands on the spec's vectors -/

/-- V-E7: "abbc" gives `L("a"), R(2,"b"), R(1,"c")`. -/
theorem test_compress_abbc : answers (exec .compress (block (inputOf abbc)))
    (fun t => storedBlocks t == [.lit [0x61#8], .rep 2 0x62#8, .rep 1 0x63#8] && t.nblk == 3#32 && t.cdValid) = true := by
  decide +kernel

/-- V-F5: the same with room for two blocks fails with AllocationFailure and releases both. -/
theorem test_compress_full : answers
    (exec .compress (after (inputOf abbc) (State.resetWith { small with blkCap := 2 })))
    (fun t => t.st == .fail && t.err == .allocationFailure && t.nblk == 0#32 && !entryPresent t 0) = true := by
  decide +kernel

/-- V-D3. -/
theorem test_decompress_vd3 : answers (exec .decompress (block vd3)) (fun t => output t == abbc && t.outLen == 4#64) = true := by
  decide +kernel

/-- V-F8: an absent entry. -/
theorem test_decompress_absent : answers (exec .decompress (block (vd3 ++ [.writeEntry 1 .present 0#8])))
    (fun t => t.err == .corruptStructure && !t.outValid) = true := by
  decide +kernel

/-- V-Z4: `L("aba"), R(6,"b")` has size 6. -/
theorem test_size_vz4 : answers
    (exec .size (block (entryOf 0 0x04#8 [0x61#8, 0x62#8, 0x61#8] ++ entryOf 1 0x0B#8 [0x62#8] ++ countOf 2)))
    (fun t => t.size == 6#64 && t.st == .done) = true := by
  decide +kernel

/-- V-Z10: a Literal of length 3 with 2 payload bytes. -/
theorem test_size_vz10 : answers (exec .size (block (entryOf 0 0x04#8 [0x61#8, 0x62#8] ++ countOf 1)))
    (fun t => t.size == 0#64 && t.err == .corruptStructure) = true := by
  decide +kernel

/-- V-S2. -/
theorem test_serialize_vs2 : answers (exec .serialize (block (vd3 ++ [.writeFlag .strWritable true])))
    (fun t => stream t == ve7 && t.strLen == 10#64 && t.strPresent) = true := by
  decide +kernel

/-- V-S6: only the payload bytes the block needs are written. -/
theorem test_serialize_vs6 : answers
    (exec .serialize (block (entryOf 0 0x03#8 [0x61#8, 0x62#8, 0x63#8] ++ countOf 1 ++ [.writeFlag .strWritable true])))
    (fun t => stream t == [0x01#8, 0x00#8, 0x00#8, 0x00#8, 0x03#8, 0x61#8]) = true := by
  decide +kernel

/-- V-T11: bytes after the last block are ignored. -/
theorem test_deserialize_vt11 : answers (exec .deserialize (block (streamOf (ve7 ++ [0xDE#8, 0xAD#8]))))
    (fun t => storedBlocks t == [.lit [0x61#8], .rep 2 0x62#8, .rep 1 0x63#8] && t.st == .done) = true := by
  decide +kernel

/-- V-T10: the block already stored is released. -/
theorem test_deserialize_vt10 : answers
    (exec .deserialize (block (streamOf [0x02#8, 0x00#8, 0x00#8, 0x00#8, 0x03#8, 0x61#8])))
    (fun t => t.err == .malformedStream && t.nblk == 0#32 && !entryPresent t 0) = true := by
  decide +kernel

/-- V-P15, U4: out of its domain PACK still runs. -/
theorem test_pack_step : answers (step { State.reset with host := [.pack .rep 0#8] })
    (fun t => t.pkLen == 0#8 && t.host == []) = true := by
  decide

/-- Whatever byte the host writes to `CMD`, `ST` is BUSY at once (R330), also of NOP (0x00), RELEASE and a reserved code. -/
theorem test_status_busy_at_once : (List.map (fun v : Byte =>
    answers (step { State.reset with host := [.access (.write .cmd (v.setWidth 64))] }) (fun t => regWord t .status == 1#64))
      [0x00#8, 0x06#8, 0xFF#8]) = [true, true, true] := by decide

/-- A host reads `STATUS` while BUSY (R330). -/
theorem test_status_while_busy : answers
    (step { startOnly 0x01#8 (block (inputOf abbc)) with host := [.access (.read .status)] })
    (fun t => t.lastRead == 1#64 && t.st == .busy) = true := by
  decide +kernel

/-- A reset in the middle of a command (U14): one transition into it. -/
theorem test_reset_while_busy : answers
    (step { runToEnd 1 (startOnly 0x01#8 (block (inputOf abbc))) with host := [.access .reset] })
    (fun t => t.st == .idle && t.phase == .idle && t.cmd == 0x00#8 && !t.cdValid) = true := by
  decide +kernel

/-- A host writes `FLAGS` = 0xFF: `OUT_VALID` stays 0 and the reserved bits read as 0 (R32). -/
theorem test_flags_write : answers (hostAccess (.write .flags 0xFF#64) State.reset)
    (fun t => regWord t .flags == 0x1B#64) = true := by
  decide

/-! ### Witnesses

One theorem per statement that has hypotheses: a state and operands that meet all of them, each clause at an end of its range. -/

/-- COMPRESS of "abbc", started and not finished. -/
def compressing : State := startOnly 0x01#8 (block (inputOf abbc))

/-- DECOMPRESS of V-D3 at the head of its expansion pass: three S1 and S2 later. -/
def expanding : State := runToEnd 4 (startOnly 0x02#8 (block vd3))

/-- DESERIALIZE of the stream of V-E7, at the header. -/
def reading : State := startOnly 0x05#8 (block (streamOf ve7))

theorem compressing_inv : Inv compressing := startOnly_inv (block_inv _) (by decide +kernel) _
theorem expanding_inv : Inv expanding := runToEnd_inv (startOnly_inv (block_inv _) (by decide +kernel) _) (by decide +kernel) _
theorem reading_inv : Inv reading := startOnly_inv (block_inv _) (by decide +kernel) _

theorem witness_DecodeEncodeRoundTrip :
    (Instr.lit [0x00#8]).wellFormed = true ∧ (Instr.lit (List.replicate 128 0xFF#8)).wellFormed = true ∧
      (Instr.rep 1 0x00#8).wellFormed = true ∧ (Instr.rep 128 0xFF#8).wellFormed = true ∧
      (Instr.count 0x80000000#32).wellFormed = true ∧ (Instr.pack .lit 1#8).wellFormed = true ∧
      (Instr.pack .rep 128#8).wellFormed = true := by decide +kernel

theorem witness_EveryByteIsACommand : spaceOf .nop = .command ∧ spaceOf (.reserved80 127#7) = .command := by decide

theorem witness_PackUnpackInverse : (1 ≤ 1 ∧ 1 ≤ 128) ∧ (1 ≤ 128 ∧ 128 ≤ 128) := by decide

theorem witness_StreamRoundTrip :
    ((∀ k ∈ [Block.rep 1 0x00#8, .rep 128 0xFF#8], 1 ≤ k.len ∧ k.len ≤ 128) ∧ 1 ≤ 2 ∧ 2 ≤ 2 ∧ 2 ≤ 2 ^ 31 - 1) ∧
      parseStream 1 [0x01#8, 0x00#8, 0x00#8, 0x00#8, 0x03#8, 0x61#8] = .ok ([.rep 2 0x61#8], []) := ⟨by decide, rfl⟩

theorem witness_StepRunsTheFetchedInstruction :
    (State.reset.st ≠ .busy ∧ State.reset.host = []) ∧
      (expanding.st = .busy ∧ expanding.host = [] ∧ expanding.phase = .decExp ∧
        (decode .block (entryBytes expanding expanding.dB)).toOption = some (.lit [0x61#8], [])) ∧
      (reading.phase = .des ∧ reading.sP = 0 ∧
        (decode .header ((stream reading).take 4)).toOption = some (.count 3#32, [])) ∧
      (compressing.st = .busy ∧ compressing.starting = false ∧ fetch compressing = .nothing) ∧
      ((runToEnd 1 reading).phase = .des ∧ (runToEnd 1 reading).sP ≠ 0 ∧
        (runToEnd 1 reading).sP ≤ (runToEnd 1 reading).strLen.toNat ∧
        (decode .block ((stream (runToEnd 1 reading)).drop (runToEnd 1 reading).sP)).toOption =
          some (.lit [0x61#8], [0x03#8, 0x62#8, 0x01#8, 0x63#8])) ∧
      fetch (startOnly 0x05#8 (block (streamOf [0x01#8, 0x00#8, 0x00#8]))) = .fails .malformedStream ∧
      ((writeCmd 0x00#8 State.reset).st = .busy ∧ (writeCmd 0x00#8 State.reset).starting = true) := by decide +kernel

theorem witness_PackCompletes : (1 ≤ (1#8).toNat ∧ (1#8).toNat ≤ 128) ∧ (1 ≤ (128#8).toNat ∧ (128#8).toNat ≤ 128) := by decide

theorem witness_PackOutsideTheDomainIsFree : (0#8).toNat = 0 ∧ 128 < (129#8).toNat ∧ 128 < (255#8).toNat := by decide

theorem witness_CommandStart : State.reset.st ≠ .busy ∧ (block vd3).st ≠ .busy := by decide +kernel

theorem witness_CommandWriteIsBusyAtOnce :
    State.reset.st ≠ .busy ∧ State.reset.starting = false ∧ (0x06#8 : Byte) ≤ 0x06#8 ∧ (0x06#8 : Byte) ≤ 0xFF#8 := by decide

/-- A state that is not BUSY and goes BUSY, and one in the middle of a command. -/
theorem witness_PhaseIsIdleExactlyWhenNotBusy :
    ((block vd3).phase = .idle ↔ (block vd3).st ≠ .busy) ∧
      answers (step { block vd3 with host := [.access (.write .cmd 0x00#64)] }) (fun t => t.st == .busy) = true ∧
      (compressing.phase = .idle ↔ compressing.st ≠ .busy) ∧
      answers (step compressing) (fun t => t.phase == .encLit) = true := by decide +kernel

theorem witness_BusyWritesAreRefused : compressing.st = .busy ∧ expanding.st = .busy ∧ reading.st = .busy := by decide +kernel

theorem witness_NopCompletes : (block vd3).st ≠ .busy := by decide +kernel

/-- Also of an empty store. -/
theorem witness_ReleaseCompletes : (block vd3).st ≠ .busy ∧ State.reset.st ≠ .busy := by decide +kernel

theorem witness_ReservedCodesFail : (block vd3).st ≠ .busy := by decide +kernel

/-- Both ends of the lengths, and the last block of the store and one before it. -/
theorem witness_BlocksExpandInTheDecoder :
    (expanding.phase = .decExp ∧ expanding.outMem.wf .out ∧ expanding.dK < (Block.rep 1 0x00#8).len ∧
      expanding.dK < (Block.rep 128 0x00#8).len ∧ expanding.dB + 1 ≠ expanding.nblk.toNat) ∧
      (runToEnd 3 expanding).phase = .decExp ∧ (runToEnd 3 expanding).dB + 1 = (runToEnd 3 expanding).nblk.toNat := by
  decide +kernel

theorem witness_ExpansionOfAnEntry : kindOf (entryCtrl (block vd3) 0) = .lit ∧ kindOf (entryCtrl (block vd3) 1) = .rep := by
  decide +kernel

/-- At the first block and at the last of three. -/
theorem witness_BlocksLoadInTheReader :
    ((runToEnd 1 reading).phase = .des ∧ (runToEnd 1 reading).blkMem.wf .blk ∧ (runToEnd 1 reading).sB < small.blkCap ∧
      (runToEnd 1 reading).sB + 1 < (runToEnd 1 reading).sCnt.toNat) ∧
      (runToEnd 3 reading).phase = .des ∧ (runToEnd 3 reading).blkMem.wf .blk ∧
      (runToEnd 3 reading).sCnt.toNat ≤ (runToEnd 3 reading).sB + 1 := by decide +kernel

/-- The least and the largest count accepted, and the counts beside them. -/
theorem witness_CountInTheReader :
    reading.phase = .des ∧ reading.cmd = 0x05#8 ∧ (0 < (1#32).toInt ∧ (1#32).toNat ≤ reading.cfg.blkCap) ∧
      (0 < (4#32).toInt ∧ (4#32).toNat ≤ reading.cfg.blkCap) ∧ (0#32).toInt ≤ 0 ∧ (0x80000000#32).toInt ≤ 0 ∧
      (0 < (5#32).toInt ∧ reading.cfg.blkCap < (5#32).toNat) := by decide +kernel

theorem witness_BlocksOutsideTheirPass : compressing.phase ≠ .decExp ∧ compressing.phase ≠ .des := by decide +kernel

theorem witness_BlockGrainIsNotObservable :
    Inv expanding ∧ expanding.st = .busy ∧ expanding.starting = false ∧ expanding.phase = .decExp :=
  ⟨expanding_inv, by decide +kernel, by decide +kernel, by decide +kernel⟩

/-- The legal values of `LIT_MAX`, and a non-empty input. -/
theorem witness_BlocksCoverTheInput : (127 = 127 ∨ 127 = 128) ∧ (128 = 127 ∨ 128 = 128) ∧ abbc ≠ [] := by decide

/-- V-E7 and V-E13: a Literal before a Repeat, a Repeat of less than 128 and one of 128 before another block. -/
theorem witness_CanonicalForm :
    encodeBytes 128 abbc = [] ++ Block.lit [0x61#8] :: .rep 2 0x62#8 :: [.rep 1 0x63#8] ∧
      encodeBytes 127 abbc = [.lit [0x61#8]] ++ Block.rep 2 0x62#8 :: .rep 1 0x63#8 :: [] ∧
      encodeBytes 127 (List.replicate 129 0x61#8 ++ [0x62#8]) =
        [] ++ Block.rep 128 0x61#8 :: .lit [0x61#8] :: [.rep 1 0x62#8] := by decide +kernel

theorem witness_LengthBounds : Block.lit [0x61#8] ∈ encodeBytes 128 abbc ∧ Block.rep 2 0x62#8 ∈ encodeBytes 127 abbc := by
  decide +kernel

theorem witness_RepeatPreference : (127 = 127 ∨ 127 = 128) ∧ (128 = 127 ∨ 128 = 128) := by decide

theorem witness_BoundaryAt128 : (127 = 127 ∨ 127 = 128) ∧ (128 = 127 ∨ 128 = 128) ∧ (0x61#8 : Byte) ≠ 0x62#8 := by decide

/-- "abbc" and "xaaz". -/
theorem witness_ShapeDependsOnEqualPairs :
    abbc.length = [0x78#8, 0x61#8, 0x61#8, 0x7A#8].length ∧
      ∀ j < 3, (abbc[j]? = abbc[j + 1]? ↔ [0x78#8, 0x61#8, 0x61#8, 0x7A#8][j]? = [0x78#8, 0x61#8, 0x61#8, 0x7A#8][j + 1]?) := by
  decide

theorem witness_SizeOfEncoding : (127 = 127 ∨ 127 = 128) ∧ [0x61#8] ≠ [] := by decide

/-- A good input of one byte; one that fills the input memory; a store with one entry too few; and the three bad inputs at the
ends of their ranges. -/
theorem witness_CompressResult :
    (block (inputOf [0x61#8])).st ≠ .busy ∧ (block (inputOf [0x61#8])).cfg.Legal ∧
      inputBad (block (inputOf [0x61#8])) = false ∧
      (encodeBytes 128 (input (block (inputOf [0x61#8])))).length ≤ small.blkCap ∧
      inputBad (block (inputOf (abbc ++ [0x63#8, 0x63#8, 0x63#8, 0x63#8]))) = false ∧
      (encodeBytes 128 (input (block (inputOf (abbc ++ [0x63#8, 0x63#8, 0x63#8, 0x63#8]))))).length ≤ small.blkCap ∧
      (after (inputOf abbc) (State.resetWith { small with blkCap := 2 })).cfg.blkCap <
        (encodeBytes 128 (input (after (inputOf abbc) (State.resetWith { small with blkCap := 2 })))).length ∧
      (block []).inPresent = false ∧ (block (inputOf [])).n.toNat = 0 ∧
      min small.nMax small.inCap < (block (inputOf [] ++ [.write .n 9#64])).n.toNat := by decide +kernel

theorem witness_CompressTransitionCount :
    (block (inputOf abbc)).cfg.Legal ∧ inputBad (block (inputOf abbc)) = false ∧
      (encodeBytes (block (inputOf abbc)).cfg.litMax (input (block (inputOf abbc)))).length ≤ small.blkCap := by decide +kernel

/-- Two states with the same input and different stores. -/
theorem witness_CompressIsDeterministic :
    (block (inputOf abbc)).st ≠ .busy ∧ (block (vd3 ++ inputOf abbc)).st ≠ .busy ∧ (block (inputOf abbc)).cfg.Legal ∧
      (block (vd3 ++ inputOf abbc)).cfg = (block (inputOf abbc)).cfg ∧
      (block (vd3 ++ inputOf abbc)).inPresent = (block (inputOf abbc)).inPresent ∧
      (block (vd3 ++ inputOf abbc)).n = (block (inputOf abbc)).n ∧
      input (block (vd3 ++ inputOf abbc)) = input (block (inputOf abbc)) ∧
      block (vd3 ++ inputOf abbc) ≠ block (inputOf abbc) := by decide +kernel

/-- Usable entries whose total fills the output exactly, and one byte more; an entry that is not usable; no data, and an empty
one. -/
theorem witness_DecompressResult :
    (block vd3).st ≠ .busy ∧ (block vd3).cdValid = true ∧ (block vd3).nblk.toNat ≠ 0 ∧
      storeUsable (block (entryOf 0 0x1F#8 [0x61#8] ++ countOf 1)) = true ∧
      totalLen (storedBlocks (block (entryOf 0 0x1F#8 [0x61#8] ++ countOf 1))) = small.outCap ∧
      storeUsable (block (entryOf 0 0x21#8 [0x61#8] ++ countOf 1)) = true ∧
      small.outCap < totalLen (storedBlocks (block (entryOf 0 0x21#8 [0x61#8] ++ countOf 1))) ∧
      storeUsable (block (vd3 ++ [.writeEntry 2 .present 0#8])) = false ∧
      (block []).cdValid = false ∧ (block (countOf 0)).nblk.toNat = 0 ∧ (block (countOf 0)).cdValid = true := by decide +kernel

theorem witness_DecompressTransitionCount :
    noData (block vd3) = false ∧ storeUsable (block vd3) = true ∧ totalLen (storedBlocks (block vd3)) ≤ small.outCap := by
  decide +kernel

theorem witness_SizeResult :
    (block vd3).st ≠ .busy ∧ (block vd3).cdValid = true ∧ (block vd3).nblk.toNat ≠ 0 ∧ storeUsable (block vd3) = true ∧
      storeUsable (block (entryOf 0 0x04#8 [0x61#8, 0x62#8] ++ countOf 1)) = false ∧
      (block []).cdValid = false ∧ (block (countOf 0)).nblk.toNat = 0 := by decide +kernel

theorem witness_EntriesBeyondTheStoreAreAbsent :
    (block (countOf 5 ++ [.writeFlag .strWritable true])).st ≠ .busy ∧
      (block (countOf 5 ++ [.writeFlag .strWritable true])).cdValid = true ∧
      small.blkCap < (block (countOf 5 ++ [.writeFlag .strWritable true])).nblk.toNat ∧
      (block (countOf 5 ++ [.writeFlag .strWritable true])).strWritable = true := by decide +kernel

/-- A stream that fills its memory exactly, and one that is one byte too long; the other three no-op conditions. -/
theorem witness_SerializeResult :
    (block (vd3 ++ [.writeFlag .strWritable true])).st ≠ .busy ∧ (block (vd3 ++ [.writeFlag .strWritable true])).cdValid = true ∧
      (block (vd3 ++ [.writeFlag .strWritable true])).strWritable = true ∧ storeUsable (block vd3) = true ∧
      4 + totalSize (storedBlocks (after vd3 (State.resetWith { small with strCap := 10 }))) = 10 ∧
      (after vd3 (State.resetWith { small with strCap := 9 })).cfg.strCap <
        4 + totalSize (storedBlocks (after vd3 (State.resetWith { small with strCap := 9 }))) ∧
      storeUsable (block (vd3 ++ [.writeEntry 0 .plen 0#8])) = false ∧ (block vd3).strWritable = false ∧
      (block []).cdValid = false ∧ (block (countOf 0)).nblk.toNat = 0 := by decide +kernel

theorem witness_DeserializeResult :
    (block (streamOf ve7)).st ≠ .busy ∧ (block (streamOf ve7)).strPresent = true ∧
      (parseStream small.blkCap (stream (block (streamOf ve7)))).toOption =
        some ([.lit [0x61#8], .rep 2 0x62#8, .rep 1 0x63#8], []) ∧
      (parseStream small.blkCap (stream (block (streamOf [0x00#8, 0x00#8, 0x00#8, 0x00#8])))).toOption = none ∧
      (block (streamOf [0x00#8, 0x00#8, 0x00#8, 0x00#8])).strPresent = true ∧ (block []).strPresent = false := by decide +kernel

/-- Three bytes; the counts 0, -2^31 and one more than the store holds; a stream that ends before and inside a payload. -/
theorem witness_ParserFailures :
    [0x01#8, 0x00#8, 0x00#8].length < 4 ∧ (0#32).toInt ≤ 0 ∧ (0x80000000#32).toInt ≤ 0 ∧ (0 < (5#32).toInt ∧ 4 < (5#32).toNat) ∧
      [0x02#8, 0x00#8, 0x00#8, 0x00#8, 0x03#8, 0x61#8, 0x04#8, 0x61#8, 0x62#8] =
        le32 2#32 ++ (serializeBlocks [.rep 2 0x61#8] ++ [0x04#8, 0x61#8, 0x62#8]) ∧
      0 < (2#32).toInt ∧ (2#32).toNat ≤ 4 ∧ (∀ k ∈ [Block.rep 2 0x61#8], 1 ≤ k.len ∧ k.len ≤ 128) ∧
      [Block.rep 2 0x61#8].length < (2#32).toNat ∧ [0x61#8, 0x62#8].length < need 0x04#8 := by decide

theorem witness_RoundTrip :
    (127 = 127 ∨ 127 = 128) ∧ (block (inputOf abbc)).st ≠ .busy ∧ (block (inputOf abbc)).cfg.Legal ∧
      (block (inputOf abbc)).inPresent = true ∧ 1 ≤ (block (inputOf abbc)).n.toNat ∧
      (block (inputOf abbc)).n.toNat ≤ min small.nMax small.inCap ∧
      (encodeBytes 128 (input (block (inputOf abbc)))).length ≤ small.blkCap ∧
      (block (inputOf abbc)).n.toNat ≤ small.outCap := by decide +kernel

/-- SIZE and SERIALIZE both end with a result. -/
theorem witness_SizeAgreesWithTheStream :
    (∀ k ∈ [Block.rep 1 0x00#8, .rep 128 0xFF#8], 1 ≤ k.len ∧ k.len ≤ 128) ∧
      (block (vd3 ++ [.writeFlag .strWritable true])).st ≠ .busy ∧
      answers (exec .size (block (vd3 ++ [.writeFlag .strWritable true]))) (fun t => t.st == .done && t.err == .none &&
        answers (exec .serialize t) (fun u => u.st == .done && u.err == .none)) = true := by decide +kernel

theorem witness_PersistenceRoundTrip :
    abbc ≠ [] ∧ (encodeBytes 127 abbc).length ≤ 3 ∧ 3 ≤ 2 ^ 31 - 1 ∧
      (block (inputOf abbc ++ [.writeFlag .strWritable true])).st ≠ .busy ∧
      (block (inputOf abbc ++ [.writeFlag .strWritable true])).cfg.Legal ∧
      (block (inputOf abbc ++ [.writeFlag .strWritable true])).inPresent = true ∧
      (block (inputOf abbc ++ [.writeFlag .strWritable true])).strWritable = true ∧
      (block (inputOf abbc ++ [.writeFlag .strWritable true])).n.toNat = 4 ∧ 4 ≤ min small.nMax small.inCap ∧
      4 ≤ small.blkCap ∧ 2 * 4 + 4 ≤ small.strCap ∧ 4 ≤ small.outCap := by decide +kernel

theorem witness_FailureSignals :
    (block (inputOf [])).st ≠ .busy ∧ (block (inputOf [])).n.toNat = 0 ∧
      (block [.write .n 5#64]).inPresent = false ∧ (block []).strPresent = false := by decide +kernel

/-- A failed DECOMPRESS of a store with an absent entry, and a failed COMPRESS. -/
theorem witness_FailuresArePrecise :
    (block vd3).st ≠ .busy ∧ (block vd3).cfg.Legal ∧
      answers (exec (decodeCommand 0x01#8) (block vd3)) (fun t => t.st == .fail) = true ∧
      answers (exec (decodeCommand 0x02#8) (block (vd3 ++ [.writeEntry 1 .present 0#8]))) (fun t => t.st == .fail) = true := by
  decide +kernel

/-- A store that holds nothing and stays so; one that the host declared valid and empty. -/
theorem witness_StoreValidity :
    ((block []).st ≠ .busy ∧ (block []).cfg.Legal ∧ (block []).nblk = 0#32 ∧
      answers (exec (decodeCommand 0x00#8) (block [])) (fun t => !t.cdValid) = true) ∧
      answers (exec (decodeCommand 0x00#8) (block (countOf 0))) (fun t => t.cdValid && t.nblk == 0#32) = true := by
  decide +kernel

theorem witness_InvariantAtReset : small.Legal := by decide

/-- A step of a running command, and one of the host. -/
theorem witness_EveryStepKeepsTheInvariant :
    (Inv compressing ∧ answers (step compressing) (fun t => t.st == .busy) = true) ∧
      Inv (block vd3) ∧ answers (step { block vd3 with host := [.command 0x02#8] }) (fun t => t.st == .done) = true :=
  ⟨⟨compressing_inv, by decide +kernel⟩, block_inv _, by decide +kernel⟩

/-- In a pass, before the start rule, and while not BUSY. -/
theorem witness_EveryCommandEnds :
    (Inv expanding ∧ expanding.st = .busy ∧ expanding.starting = false) ∧
      (Inv (writeCmd 0x02#8 (block vd3)) ∧ (writeCmd 0x02#8 (block vd3)).starting = true) ∧
      Inv (block vd3) ∧ (block vd3).st ≠ .busy :=
  ⟨⟨expanding_inv, by decide +kernel⟩, ⟨writeCmd_inv (block_inv _) (by decide +kernel) _, rfl⟩, block_inv _, by decide +kernel⟩

/-- A reset block that the host lets wait. -/
theorem witness_StepwiseRunEndsTheSame :
    Inv { block vd3 with host := [.wait] } ∧ ({ block vd3 with host := [.wait] } : State).st ≠ .busy :=
  ⟨(block_inv vd3).aside [.wait] (block vd3).lastRead (block vd3).draws (block vd3).pkKind (block vd3).pkLen (block vd3).upCtrl,
    by decide +kernel⟩

/-- A running command and no action; a command while idle. -/
theorem witness_MachineNeverStopsAnObedientHost :
    (Inv compressing ∧ compressing.host = [] ∧ hostObeys compressing) ∧
      Inv { block vd3 with host := [.command 0x02#8] } ∧ hostObeys { block vd3 with host := [.command 0x02#8] } :=
  ⟨⟨compressing_inv, by decide +kernel, by have h : compressing.host = [] := by decide +kernel
                                           simp [hostObeys, h]⟩,
    (block_inv vd3).aside [.command 0x02#8] (block vd3).lastRead (block vd3).draws (block vd3).pkKind (block vd3).pkLen
      (block vd3).upCtrl,
    (by decide +kernel : (block vd3).st ≠ .busy)⟩

/-- The first and the last address, and a write of `FLAGS` that goes on. -/
theorem witness_ReadOnlyToTheHost :
    (block vd3).st ≠ .busy ∧ 0 < (block vd3).cfg.outCap ∧ 15 < (block vd3).cfg.outCap ∧
      answers (hostAccess (.write .flags 0xFF#64) (block vd3)) (fun t => t.cdValid) = true := by decide +kernel

/-- The last address of each memory, and the first beyond it, while not BUSY and while BUSY. -/
theorem witness_HostReads :
    ((block vd3).st ≠ .busy ∧ compressing.st = .busy) ∧ (7 < (block vd3).cfg.inCap ∧ (block vd3).cfg.inCap ≤ 8) ∧
      (15 < (block vd3).cfg.outCap ∧ (block vd3).cfg.outCap ≤ 16) ∧ (31 < (block vd3).cfg.strCap ∧ (block vd3).cfg.strCap ≤ 32) ∧
      (7 < compressing.cfg.inCap ∧ 15 < compressing.cfg.outCap ∧ 31 < compressing.cfg.strCap) ∧ CReg.cmd ≠ .status ∧
      EntryField.pay 127 ≠ .present := by decide +kernel

theorem witness_HostReadsWhatItWrote :
    answers (exec (decodeCommand 0xFF#8) (block vd3)) (fun t => t.st == .fail && t.cmd == 0xFF#8) = true ∧
    (block vd3).st ≠ .busy ∧ 7 < (block vd3).cfg.inCap ∧ (block vd3).inMem.wf .inp ∧ 31 < (block vd3).cfg.strCap ∧
      (block vd3).strMem.wf .str ∧ 3 < (block vd3).cfg.blkCap ∧ (block vd3).blkMem.wf .blk := by decide +kernel

theorem witness_CommandsWriteOnlyTheirOwn :
    Inv (block vd3) ∧ spaceOf .decompress = .command ∧ answers (exec .decompress (block vd3)) (fun t => t.st == .done) = true :=
  ⟨block_inv _, by decide, by decide +kernel⟩

/-- Two states that differ in a working register. -/
theorem witness_WorkingRegistersAreDead :
    (block vd3).st ≠ .busy ∧ visible (block vd3) = visible { block vd3 with dTotal := 5, sB := 7 } ∧
      block vd3 ≠ { block vd3 with dTotal := 5, sB := 7 } := by decide +kernel

end Sys2Proof.Tests
end

section
/-! SUPPORT. The invariant of the machine under every step, and at reset (10_state.md R47; 41_encoder.md R159, 43_decoder.md
R207). -/

namespace Sys2Proof.Machine

/-- A step of the sequencer that goes on keeps the invariant: a pending start rule, or transitions of the running pass. -/
theorem sequencerStep_inv {s t : State} (h : Inv s) (hb : s.st = .busy) (hst : sequencerStep s = .next t) : Inv t := by
  by_cases hs : s.starting = true
  · rw [sequencerStep, if_pos hs] at hst
    cases hst
    exact takeStart_inv h hs
  · have hns : s.starting = false := by simpa using hs
    obtain ⟨j, hrun, -⟩ := sequencerStep_eq_run h hns hb
    rw [hrun] at hst
    cases hst
    exact runToEnd_inv h hns (j + 1)

/-- A command run to its end keeps the invariant. -/
theorem runCommand_startOnly_inv {s : State} (h : Inv s) (hst : s.st ≠ .busy) (v : Byte) : Inv (runCommand (startOnly v s)) :=
  runToEnd_inv (startOnly_inv h hst v) (by simp [startOnly, h.started hst]) _

/-- Settles O49: each outcome of a step that goes on keeps the invariant. -/
theorem everyStepKeepsTheInvariant : Obligations.EveryStepKeepsTheInvariant := by
  intro s t h hstep
  have shorter : ∀ hs, Inv { s with host := hs } := fun hs => h.aside hs s.lastRead s.draws s.pkKind s.pkLen s.upCtrl
  cases step_spec hstep with
  | sequencer hs busy next => exact sequencerStep_inv (shorter hs) busy next
  | idle hs stopped next => exact next ▸ shorter hs
  | command v rest stopped next => exact next ▸ runCommand_startOnly_inv (shorter rest) stopped v
  | pack k len rest next => exact next ▸ h.aside rest s.lastRead s.draws k len s.upCtrl
  | unpack c rest next => exact next ▸ h.aside rest s.lastRead s.draws s.pkKind s.pkLen c
  | access a rest next => exact hostAccess_inv (shorter rest) next

/-- Right after reset the invariant holds, for any legal parameters (R47). -/
theorem resetWith_inv {c : Config} (hc : c.Legal) : Inv (State.resetWith c) := by
  have hmem : ∀ n : Nat, ∀ x ∈ emptyMem.cells, x.1 < n := by simp [emptyMem]
  refine Sound.inv_ended ⟨⟨emptyMem_wf _, emptyMem_wf _, emptyMem_wf _, emptyMem_wf _⟩, ⟨hmem _, hmem _, hmem _, hmem _⟩, hc,
    rfl, fun _ => rfl, ?_⟩ rfl (by simp [State.resetWith]) (by simp [State.resetWith])
  constructor <;> exact Nat.two_pow_pos _

/-- Settles O48: `Config.standard` is legal, and every legal reset state meets the invariant. -/
theorem invariantAtReset : Obligations.InvariantAtReset := ⟨resetWith_inv (by decide), fun _ hc => resetWith_inv hc⟩

end Sys2Proof.Machine
end

section
/-! SUPPORT. `ST` and `PHASE` from a command's start to its end, in any state at all: BUSY in a pass, or DONE or FAIL and idle
(10_state.md R23, R30), and that every command ends. -/

namespace Sys2Proof.Machine

/-- A command is running in one of its passes. -/
def InPass (s : State) : Prop := s.st = .busy ∧ s.phase ≠ .idle

/-- A command is running in one of its passes, or it has ended. -/
def RunningOrEnded (s : State) : Prop := InPass s ∨ ((s.st = .done ∨ s.st = .fail) ∧ s.phase = .idle)

theorem RunningOrEnded.phaseIdle {s : State} (h : RunningOrEnded s) : s.phase = .idle ↔ s.st ≠ .busy := by
  rcases h with ⟨hst, hp⟩ | ⟨hst | hst, hp⟩ <;> simp [hst, hp]

theorem RunningOrEnded.inPass {s : State} (h : RunningOrEnded s) (hb : s.st = .busy) : InPass s :=
  h.resolve_right fun he => by simp [hb] at he

theorem finish_runningOrEnded (s : State) : RunningOrEnded (finish s) := .inr ⟨.inl rfl, rfl⟩

theorem raise_runningOrEnded (k : ErrKind) (s : State) : RunningOrEnded (raise k s) := .inr ⟨.inr rfl, rfl⟩

theorem endBlock_runningOrEnded {s : State} (h : InPass s) : RunningOrEnded (endBlock s) := by
  unfold endBlock
  split
  · exact finish_runningOrEnded _
  · exact .inl h

theorem loadBlock_runningOrEnded {s : State} (h : InPass s) (c : Byte) (p : List Byte) : RunningOrEnded (loadBlock c p s) := by
  unfold loadBlock
  simp only
  split
  · exact finish_runningOrEnded _
  · exact .inl h

theorem acceptCount_runningOrEnded {s : State} (h : InPass s) (c : Word32) : RunningOrEnded (acceptCount c s) := by
  unfold acceptCount
  simp only
  split_ifs
  · exact raise_runningOrEnded _ _
  · exact raise_runningOrEnded _ _
  · exact .inl h

/-- T2 and T5 fail when the store is full (R145). -/
theorem closeLiteral_full {s : State} (h : s.cfg.blkCap ≤ s.nblk.toNat) : closeLiteral s = raise .allocationFailure s := by
  rw [closeLiteral, emit, if_pos h]

theorem closeRepeat_full {s : State} (h : s.cfg.blkCap ≤ s.nblk.toNat) : closeRepeat s = raise .allocationFailure s := by
  rw [closeRepeat, emit, if_pos h]

/-- T2 with room in the store (R152). -/
theorem closeLiteral_room {s : State} (h : ¬ s.cfg.blkCap ≤ s.nblk.toNat) :
    closeLiteral s = { storeEntry s.nblk.toNat (packLen .lit s.eM) (inBytes s s.eI s.eM) s with
      nblk := s.nblk + 1#32, eI := s.eI + s.eM, eM := 0 } := by
  rw [closeLiteral, emit, if_neg h]

/-- T5 with room in the store, at the end of the input (R155, R156). -/
theorem closeRepeat_last {s : State} (h : ¬ s.cfg.blkCap ≤ s.nblk.toNat) (hn : s.eI + s.eR = s.n.toNat) :
    closeRepeat s = finishCompress { storeEntry s.nblk.toNat (packLen .rep s.eR) [s.eFirst] s with
      nblk := s.nblk + 1#32, eI := s.eI + s.eR, eR := 0 } := by
  rw [closeRepeat, emit, if_neg h]
  exact if_pos hn

/-- T5 with room in the store and input to come (R155). -/
theorem closeRepeat_more {s : State} (h : ¬ s.cfg.blkCap ≤ s.nblk.toNat) (hn : s.eI + s.eR ≠ s.n.toNat) :
    closeRepeat s = { storeEntry s.nblk.toNat (packLen .rep s.eR) [s.eFirst] s with
      nblk := s.nblk + 1#32, eI := s.eI + s.eR, eR := 0, eM := 0, phase := .encLit } := by
  rw [closeRepeat, emit, if_neg h]
  exact if_neg hn

theorem encLitStep_runningOrEnded {s : State} (h : InPass s) : RunningOrEnded (encLitStep s) := by
  unfold encLitStep
  split_ifs
  · exact .inl h
  · by_cases hcap : s.cfg.blkCap ≤ s.nblk.toNat
    · rw [closeLiteral_full hcap]; exact raise_runningOrEnded _ _
    · rw [closeLiteral_room hcap]; exact .inl h
  · exact .inl ⟨h.1, by simp [openRepeat]⟩

theorem encRepStep_runningOrEnded {s : State} (h : InPass s) : RunningOrEnded (encRepStep s) := by
  unfold encRepStep
  split
  · exact .inl h
  · by_cases hcap : s.cfg.blkCap ≤ s.nblk.toNat
    · rw [closeRepeat_full hcap]; exact raise_runningOrEnded _ _
    · by_cases hn : s.eI + s.eR = s.n.toNat
      · rw [closeRepeat_last hcap hn]; exact finish_runningOrEnded _
      · rw [closeRepeat_more hcap hn]; exact .inl ⟨h.1, by simp⟩

theorem decSumStep_runningOrEnded {s : State} (h : InPass s) : RunningOrEnded (decSumStep s) := by
  unfold decSumStep sumBlock allocateOut
  split_ifs
  · exact .inl h
  · exact raise_runningOrEnded _ _
  · exact raise_runningOrEnded _ _
  · exact .inl ⟨h.1, by simp⟩

theorem expandByte_runningOrEnded {s : State} (h : InPass s) : RunningOrEnded (expandByte s) := by
  unfold expandByte
  simp only
  split
  · exact .inl h
  · exact endBlock_runningOrEnded h

theorem sizeStep_runningOrEnded {s : State} (h : InPass s) : RunningOrEnded (sizeStep s) := by
  unfold sizeStep sizeBlock
  split_ifs
  · exact .inl h
  · exact raise_runningOrEnded _ _
  · exact finish_runningOrEnded _

theorem serStep_runningOrEnded {s : State} (h : InPass s) : RunningOrEnded (serStep s) := by
  unfold serStep
  split
  · exact .inl h
  · exact finish_runningOrEnded _

theorem desStep_runningOrEnded {s : State} (h : InPass s) : RunningOrEnded (desStep s) := by
  unfold desStep
  split
  · exact acceptCount_runningOrEnded h _
  · exact loadBlock_runningOrEnded h _ _
  · exact loadBlock_runningOrEnded h _ _
  · exact raise_runningOrEnded _ _
  · exact .inl h

/-- A transition of a pass stays in a pass, or ends the command (R30). -/
theorem transition_runningOrEnded {s : State} (h : InPass s) : RunningOrEnded (transition s) := by
  unfold transition
  split
  · exact .inl h
  · exact encLitStep_runningOrEnded h
  · exact encRepStep_runningOrEnded h
  · exact decSumStep_runningOrEnded h
  · exact expandByte_runningOrEnded h
  · exact sizeStep_runningOrEnded h
  · exact serStep_runningOrEnded h
  · exact desStep_runningOrEnded h

theorem runToEnd_runningOrEnded {s : State} (h : RunningOrEnded s) (fuel : Nat) : RunningOrEnded (runToEnd fuel s) := by
  induction fuel generalizing s with
  | zero => exact h
  | succ fuel ih =>
    by_cases hb : s.st = .busy
    · rw [runToEnd_busy hb]
      exact ih (transition_runningOrEnded (h.inPass hb))
    · rw [runToEnd_stopped hb]
      exact h

/-- A start rule enters a pass, or ends the command (R300). -/
theorem startRule_runningOrEnded {s : State} (hb : s.st = .busy) (v : Byte) : RunningOrEnded (startRule v s) := by
  rcases startRule_spec v s with ⟨_, e⟩ | ⟨_, e⟩ | ⟨_, e⟩ | ⟨_, e⟩ | ⟨_, e⟩ | ⟨_, e⟩ | ⟨_, e⟩ | ⟨_, e⟩ <;> rw [e]
  · exact finish_runningOrEnded _
  · unfold startCompress
    split
    · exact raise_runningOrEnded _ _
    · exact .inl ⟨hb, by simp⟩
  · unfold startDecompress
    split
    · exact raise_runningOrEnded _ _
    · exact .inl ⟨hb, by simp⟩
  · unfold startSize
    split
    · exact raise_runningOrEnded _ _
    · exact .inl ⟨hb, by simp⟩
  · unfold startSerialize preCheck
    split_ifs
    · exact raise_runningOrEnded _ _
    · exact raise_runningOrEnded _ _
    · split
      · exact raise_runningOrEnded _ _
      · split
        · exact raise_runningOrEnded _ _
        · exact .inl ⟨hb, by simp [writeHeader]⟩
  · unfold startDeserialize
    simp only
    split
    · exact raise_runningOrEnded _ _
    · exact .inl ⟨hb, by simp⟩
  · exact finish_runningOrEnded _
  · exact raise_runningOrEnded _ _

theorem runCommand_startOnly_runningOrEnded (v : Byte) (s : State) : RunningOrEnded (runCommand (startOnly v s)) :=
  runToEnd_runningOrEnded (startRule_runningOrEnded (beginCommand_st v s) v) _

/-- From a state of the invariant with no start pending, the command that is running ends within the fuel, if one is. -/
theorem Inv.ends_within_fuel {s : State} (h : Inv s) (hns : s.starting = false) :
    ∃ k ≤ fuelFor s, (∀ j < k, (runToEnd j s).st = .busy) ∧ (runToEnd k s).st ≠ .busy := by
  by_cases hb : s.st = .busy
  · obtain ⟨k, t, he, hk⟩ := h.ends hns hb
    exact ⟨k, hk.trans (transitionsLeft_lt_fuel h hns), he.busyBefore, he.reaches ▸ he.ended⟩
  · exact ⟨0, Nat.zero_le _, fun j hj => absurd hj (Nat.not_lt_zero j), hb⟩

/-- Settles O50: the passes end within the fuel, also after a pending start rule, and what a whole command answers has ended. -/
theorem everyCommandEnds : Obligations.EveryCommandEnds := by
  refine ⟨fun s h _ hns => h.ends_within_fuel hns, fun s h hs => ?_, fun s v h hst => ?_⟩
  · obtain ⟨k, hk, hbefore, hend⟩ := (takeStart_inv h hs).ends_within_fuel (takeStart_starting s)
    exact ⟨takeStart s, k, if_pos hs, takeStart_starting s, hk, hbefore, hend⟩
  · have hended := runCommand_ended (startOnly_inv h hst v) (by simp [startOnly, h.started hst])
    refine ⟨_, exec_command hst, ?_⟩
    exact (runCommand_startOnly_runningOrEnded v s).resolve_left fun hp => hended hp.1

/-- An instruction that a running pass executes stays in a pass, or ends the command. -/
theorem exec_runningOrEnded {i : Instr} {s t : State} (h : InPass s) (ht : exec i s = .next t) : RunningOrEnded t := by
  have hblock : ∀ {c p e}, executeBlock c p e s = .next t → RunningOrEnded t := fun {c p e} ht => by
    unfold executeBlock at ht
    split at ht <;> cases ht
    · exact endBlock_runningOrEnded h
    · exact loadBlock_runningOrEnded h _ _
  have hcommand : ∀ {v own}, command v own s = .next t → RunningOrEnded t := fun ht => by
    rw [command, if_pos h.1] at ht
    cases ht
  cases i with
  | lit p => exact hblock ht
  | rep n b => exact hblock ht
  | count c =>
    simp only [exec, execCount] at ht
    split at ht <;> cases ht
    exact acceptCount_runningOrEnded h c
  | pack k n => cases ht; exact .inl h
  | unpack c => cases ht; exact .inl h
  | _ => exact hcommand ht

/-- A step of the sequencer stays in a pass, or ends the command. -/
theorem sequencerStep_runningOrEnded {s t : State} (h : InPass s) (ht : sequencerStep s = .next t) : RunningOrEnded t := by
  unfold sequencerStep at ht
  split at ht
  · cases ht
    exact startRule_runningOrEnded (s := { s with starting := false }) h.1 _
  · split at ht
    · exact exec_runningOrEnded h ht
    · cases ht; exact raise_runningOrEnded _ _
    · cases ht; exact transition_runningOrEnded h

/-- What a host write that goes on answers, and when. -/
theorem hostWrite_next {s t u : State} (h : hostWrite u s = .next t) : s.st ≠ .busy ∧ t = u := by
  unfold hostWrite at h
  split at h
  · cases h
  · next hst => cases h; exact ⟨hst, rfl⟩

/-- What a host write to a memory that goes on answers, and when. -/
theorem hostWriteAt_next {a cap : Nat} {s t u : State} (h : hostWriteAt a cap u s = .next t) :
    s.st ≠ .busy ∧ a < cap ∧ t = u := by
  unfold hostWriteAt at h
  split at h
  · cases h
  · next hst =>
    split at h
    · next hlt => cases h; exact ⟨hst, hlt, rfl⟩
    · cases h

/-- A host read changes only what the host last read and the counter of free values (R68). -/
theorem hostRead_next {v : Word64} {s t : State} (h : hostRead v s = .next t) :
    t = { s with lastRead := t.lastRead, draws := t.draws } := by
  unfold hostRead at h
  split at h <;> cases h <;> rfl

theorem hostReadAt_next {a cap : Nat} {v : Byte} {s t : State} (h : hostReadAt a cap v s = .next t) :
    t = { s with lastRead := t.lastRead, draws := t.draws } := by
  unfold hostReadAt at h
  split at h
  · exact hostRead_next h
  · cases h

theorem hostReadReg_next {r : CReg} {s t : State} (h : hostReadReg r s = .next t) :
    t = { s with lastRead := t.lastRead, draws := t.draws } := by
  cases r with
  | status => cases h; rfl
  | _ => exact hostRead_next h

/-- A host access leaves `PHASE` and `ST` idle (a reset), busy (a write to `CMD`) or as they were. -/
theorem hostAccess_control {a : HostAccess} {s t : State} (h : hostAccess a s = .next t) :
    (t.phase = .idle ∧ t.st ≠ .busy) ∨ (t.phase ≠ .idle ∧ t.st = .busy) ∨ (t.phase = s.phase ∧ t.st = s.st) := by
  cases a with
  | reset => cases h; exact .inl ⟨rfl, by simp [resetEvent, State.resetWith]⟩
  | write r v =>
    obtain ⟨-, rfl⟩ := hostWrite_next h
    cases r with
    | cmd => exact .inr (.inl ⟨busyPhase_ne _, beginCommand_st _ _⟩)
    | _ => exact .inr (.inr ⟨rfl, rfl⟩)
  | writeFlag f v =>
    obtain ⟨-, rfl⟩ := hostWrite_next h
    cases f <;> exact .inr (.inr ⟨rfl, rfl⟩)
  | writeIn x v => obtain ⟨-, -, rfl⟩ := hostWriteAt_next h; exact .inr (.inr ⟨rfl, rfl⟩)
  | writeOut x v => obtain ⟨-, -, rfl⟩ := hostWriteAt_next h; exact .inr (.inr ⟨rfl, rfl⟩)
  | writeStr x v => obtain ⟨-, -, rfl⟩ := hostWriteAt_next h; exact .inr (.inr ⟨rfl, rfl⟩)
  | writeEntry b f v => obtain ⟨-, -, rfl⟩ := hostWriteAt_next h; exact .inr (.inr ⟨rfl, rfl⟩)
  | read r => rw [hostReadReg_next h]; exact .inr (.inr ⟨rfl, rfl⟩)
  | readIn x => rw [hostReadAt_next h]; exact .inr (.inr ⟨rfl, rfl⟩)
  | readOut x => rw [hostReadAt_next h]; exact .inr (.inr ⟨rfl, rfl⟩)
  | readStr x => rw [hostReadAt_next h]; exact .inr (.inr ⟨rfl, rfl⟩)
  | readEntry b f => rw [hostRead_next h]; exact .inr (.inr ⟨rfl, rfl⟩)

/-- Every step keeps that `PHASE` is `P_IDLE` exactly while not BUSY, from any state (R23). -/
theorem step_phaseIdle {s t : State} (h : s.phase = .idle ↔ s.st ≠ .busy) (hstep : step s = .next t) :
    t.phase = .idle ↔ t.st ≠ .busy := by
  cases step_spec hstep with
  | sequencer hs busy next =>
    exact (sequencerStep_runningOrEnded (s := { s with host := hs }) ⟨busy, fun hp => h.1 hp busy⟩ next).phaseIdle
  | idle hs stopped next => subst next; exact h
  | command v rest stopped next => subst next; exact (runCommand_startOnly_runningOrEnded v _).phaseIdle
  | pack k len rest next => subst next; exact h
  | unpack c rest next => subst next; exact h
  | access a rest next =>
    rcases hostAccess_control next with ⟨hp, hst⟩ | ⟨hp, hst⟩ | ⟨hp, hst⟩
    · exact iff_of_true hp hst
    · exact iff_of_false hp (not_not_intro hst)
    · rw [hp, hst]; exact h

/-- The reserved values 8 to 15 of `PHASE` are no value's number (R23). -/
theorem phaseCode_lt_eight : ∀ p, (phaseCode p).toNat < 8 := by
  intro p
  cases p <;> decide

/-- Settles O59: the equivalence holds after reset, and every step keeps it. -/
theorem phaseIsIdleExactlyWhenNotBusy : Obligations.PhaseIsIdleExactlyWhenNotBusy :=
  ⟨rfl, rfl, rfl, rfl, rfl, rfl, rfl, rfl, phaseCode_lt_eight, fun _ => by simp [State.resetWith],
    fun _ _ h hs => step_phaseIdle h hs⟩

end Sys2Proof.Machine
end

section
/-! SUPPORT. What each command code writes and what it leaves alone (10_state.md R33 to R38, R61), and what the block store holds
after it (R34, R35). -/

namespace Sys2Proof.Machine

/-! ### The parts of the state that commands share out -/

/-- What no command writes. -/
def hostPart (s : State) : Config × Word32 × Mem × Bool × Bool := (s.cfg, s.n, s.inMem, s.inPresent, s.strWritable)

/-- The block store (R33). -/
def storePart (s : State) : Bool × Word32 × Mem := (s.cdValid, s.nblk, s.blkMem)

/-- The decoded output (R36). -/
def outPart (s : State) : Bool × Word64 × Mem := (s.outValid, s.outLen, s.outMem)

/-- The stream (R37). -/
def streamPart (s : State) : Bool × Word64 × Mem := (s.strPresent, s.strLen, s.strMem)

/-- The command with code `v` has written only what is its own. -/
structure OwnOnly (v : Byte) (s t : State) : Prop where
  host : hostPart t = hostPart s
  store : v ≠ 0x01#8 → v ≠ 0x05#8 → v ≠ 0x06#8 → storePart t = storePart s
  out : v ≠ 0x02#8 → outPart t = outPart s
  size : v ≠ 0x03#8 → t.size = s.size
  stream : v ≠ 0x04#8 → streamPart t = streamPart s

/-- A store after a command that writes it: a CompressedData with blocks, or nothing at all (R34, R35). -/
def FullOrEmpty (t : State) : Prop :=
  (t.cdValid = true ∧ t.nblk ≠ 0#32) ∨ (t.cdValid = false ∧ t.nblk = 0#32 ∧ storeEmpty t)

theorem FullOrEmpty.of_raise {u : State} (h : u.cmd = 0x01#8 ∨ u.cmd = 0x05#8) (k : ErrKind) : FullOrEmpty (raise k u) := by
  obtain ⟨hv, hn, -, he⟩ := raise_released h k
  exact .inr ⟨hv, hn, he⟩

/-- A valid store with a block in its sequence is not empty. -/
theorem FullOrEmpty.of_blocks {t : State} (hv : t.cdValid = true) (h : storedBlocks t ≠ []) : FullOrEmpty t :=
  .inl ⟨hv, fun hn => h (by rw [storedBlocks, hn]; rfl)⟩

/-! ### What a command leaves, by its code -/

/-- A command that ends with its start rule. -/
theorem exec_of_startOnly_stopped {v : Byte} {s t : State} (hst : s.st ≠ .busy) (h : exec (decodeCommand v) s = .next t)
    (hstop : (startOnly v s).st ≠ .busy) : t = startOnly v s := by
  rw [exec_command hst, runCommand, runToEnd_stopped hstop] at h
  exact (Host.Outcome.next.inj h).symm

/-- A good input has a byte, so its normative sequence has a block (R143). -/
theorem encodeBytes_input_ne_nil {s : State} (h : inputBad s = false) : encodeBytes s.cfg.litMax (input s) ≠ [] := by
  have hn : s.n.toNat ≠ 0 := fun h0 => by
    have hz : s.n = 0#32 := BitVec.eq_of_toNat_eq h0
    simp [inputBad, hz] at h
  obtain ⟨m, hm⟩ := Nat.exists_eq_succ_of_ne_zero hn
  rw [input, hm, inBytes_succ, encodeBytes_cons]
  exact List.cons_ne_nil _ _

theorem exec_compress_leaves {s t : State} (hst : s.st ≠ .busy) (hlegal : s.cfg.Legal) (h : exec .compress s = .next t) :
    maskCompress t = maskCompress s ∧ FullOrEmpty t := by
  cases hi : inputBad s with
  | true =>
    obtain rfl : _ = t := Host.Outcome.next.inj ((exec_compress_bad hst hi).symm.trans h)
    exact ⟨maskCompress_raise _ rfl _, .of_raise (.inl rfl) _⟩
  | false =>
    obtain ⟨t', ht', hend⟩ := exec_compress_good hst hlegal hi
    obtain rfl : t' = t := Host.Outcome.next.inj (ht'.symm.trans h)
    refine ⟨hend.mask, ?_⟩
    rcases hend.result with ⟨hc, -⟩ | ⟨-, u, hu, rfl⟩
    · refine .of_blocks hc.cdValid ?_
      rw [hc.blocks, input_of_mask hend.mask, show t'.cfg = s.cfg from (congrArg State.cfg hend.mask :)]
      exact encodeBytes_input_ne_nil hi
    · refine .of_raise (.inl ?_) _
      rcases hu.scan with ⟨_, hs⟩ | ⟨_, hs⟩ <;> exact hs.running.1

/-- The parser accepts no stream without blocks (R231). -/
theorem parseStream_ne_nil {cap : Nat} {bytes rest : List Byte} {ks : List Block} (h : parseStream cap bytes = .ok (ks, rest)) :
    ks ≠ [] := by
  unfold parseStream at h
  split at h
  · next b0 b1 b2 b3 tail =>
    split_ifs at h with hpos hcap
    have hl := (parseBlocks_ok h).1
    rintro rfl
    have hz : unle32 b0 b1 b2 b3 = 0#32 := BitVec.eq_of_toNat_eq hl.symm
    exact hpos (by rw [hz]; decide)
  · cases h

theorem exec_deserialize_leaves {s t : State} (hst : s.st ≠ .busy) (h : exec .deserialize s = .next t) :
    maskDeserialize t = maskDeserialize s ∧ FullOrEmpty t := by
  cases hp : s.strPresent with
  | false =>
    obtain rfl : _ = t := Host.Outcome.next.inj ((exec_deserialize_absent hst hp).symm.trans h)
    exact ⟨maskDeserialize_raise rfl _, .of_raise (.inr rfl) _⟩
  | true =>
    obtain ⟨t', ht', hend⟩ := exec_deserialize_present hst hp
    obtain rfl : t' = t := Host.Outcome.next.inj (ht'.symm.trans h)
    refine ⟨hend.mask, ?_⟩
    rcases hend.result with hd | ⟨k, u, -, hcmd, -, rfl⟩
    · exact .of_blocks hd.cdValid (parseStream_ne_nil hd.blocks)
    · exact .of_raise (.inr hcmd) _

theorem exec_decompress_leaves {s t : State} (hst : s.st ≠ .busy) (h : exec .decompress s = .next t) :
    maskDecompress t = maskDecompress s := by
  cases hd : noData s with
  | true =>
    obtain rfl : _ = t := Host.Outcome.next.inj ((exec_decompress_noData hst hd).symm.trans h)
    exact maskDecompress_raise rfl _
  | false =>
    obtain ⟨t', ht', hend⟩ := exec_decompress_data hst hd
    obtain rfl : t' = t := Host.Outcome.next.inj (ht'.symm.trans h)
    exact hend.mask

theorem exec_serialize_leaves {s t : State} (hst : s.st ≠ .busy) (h : exec .serialize s = .next t) :
    maskSerialize t = maskSerialize s := by
  have failed : ∀ {k}, startSerialize (beginCommand 0x04#8 s) = serializeFailed k s → maskSerialize t = maskSerialize s :=
    fun hs => by
      rw [exec_serialize hst, hs, runCommand_serializeFailed] at h
      cases h
      rfl
  have hstart := startSerialize_eq s
  split_ifs at hstart with hd hw hu hf
  · exact failed hstart
  · exact failed hstart
  · exact failed hstart
  · exact failed hstart
  · obtain ⟨t', ht', hend⟩ := exec_serialize_good hst (by simpa using hd) (by simpa using hw) (by simpa using hu)
      (Nat.le_of_not_lt hf)
    obtain rfl : t' = t := Host.Outcome.next.inj (ht'.symm.trans h)
    exact hend.mask

/-- The state without what SIZE writes. -/
def maskSize (s : State) : State :=
  { s with cmd := 0#8, st := .idle, err := .none, size := 0#64, phase := .idle, dB := 0, dTotal := 0 }

theorem exec_size_leaves {s t : State} (hst : s.st ≠ .busy) (h : exec .size s = .next t) : maskSize t = maskSize s := by
  cases hd : noData s with
  | true =>
    obtain rfl : _ = t := Host.Outcome.next.inj ((exec_size_noData hst hd).symm.trans h)
    rfl
  | false =>
    obtain ⟨t', ht', hend⟩ := exec_size_data hst hd
    obtain rfl : t' = t := Host.Outcome.next.inj (ht'.symm.trans h)
    cases hend with
    | done good result => rw [result]; rfl
    | corrupt bad failed => rw [failed]; rfl

/-! ### Every code -/

/-- A reserved code writes `CMD`, `STATUS`, `ERR` and `PHASE` alone (R303). -/
theorem startReserved_beginCommand {v : Byte} (hv : 0x06#8 < v) (s : State) :
    startReserved (beginCommand v s) = { s with cmd := v, st := .fail, err := .illegalCommand, phase := .idle } := by
  have other : ∀ w ≤ 0x06#8, v ≠ w := fun w hw hvw => BitVec.not_lt.2 hw (hvw ▸ hv)
  have h1 := other 0x01#8 (by decide)
  have h2 := other 0x02#8 (by decide)
  have h3 := other 0x03#8 (by decide)
  have h5 := other 0x05#8 (by decide)
  simp [startReserved, raise, cleanUp, beginCommand, h1, h2, h3, h5, setFail, setBusy]

/-- Every command code writes only what is its command's own (R61). -/
theorem exec_ownOnly {v : Byte} {s t : State} (hst : s.st ≠ .busy) (hlegal : s.cfg.Legal)
    (h : exec (decodeCommand v) s = .next t) : OwnOnly v s t := by
  rcases startRule_spec v (beginCommand v s) with
    ⟨rfl, e⟩ | ⟨rfl, e⟩ | ⟨rfl, e⟩ | ⟨rfl, e⟩ | ⟨rfl, e⟩ | ⟨rfl, e⟩ | ⟨rfl, e⟩ | ⟨hv, e⟩
  · have ht := exec_of_startOnly_stopped hst h (by rw [startOnly, e]; simp)
    rw [ht]
    exact ⟨rfl, fun _ _ _ => rfl, fun _ => rfl, fun _ => rfl, fun _ => rfl⟩
  · have hm := (exec_compress_leaves hst hlegal h).1
    exact ⟨(congrArg hostPart hm :), fun h1 => absurd rfl h1, fun _ => (congrArg outPart hm :), fun _ => (congrArg State.size hm :),
      fun _ => (congrArg streamPart hm :)⟩
  · have hm := exec_decompress_leaves hst h
    exact ⟨(congrArg hostPart hm :), fun _ _ _ => (congrArg storePart hm :), fun h2 => absurd rfl h2,
      fun _ => (congrArg State.size hm :), fun _ => (congrArg streamPart hm :)⟩
  · have hm := exec_size_leaves hst h
    exact ⟨(congrArg hostPart hm :), fun _ _ _ => (congrArg storePart hm :), fun _ => (congrArg outPart hm :),
      fun h3 => absurd rfl h3, fun _ => (congrArg streamPart hm :)⟩
  · have hm := exec_serialize_leaves hst h
    exact ⟨(congrArg hostPart hm :), fun _ _ _ => (congrArg storePart hm :), fun _ => (congrArg outPart hm :),
      fun _ => (congrArg State.size hm :), fun h4 => absurd rfl h4⟩
  · have hm := (exec_deserialize_leaves hst h).1
    exact ⟨(congrArg hostPart hm :), fun _ h5 => absurd rfl h5, fun _ => (congrArg outPart hm :), fun _ => (congrArg State.size hm :),
      fun _ => (congrArg streamPart hm :)⟩
  · have ht := exec_of_startOnly_stopped hst h (by rw [startOnly, e]; simp [startRelease])
    rw [ht]
    exact ⟨rfl, fun _ _ h6 => absurd rfl h6, fun _ => rfl, fun _ => rfl, fun _ => rfl⟩
  · have hc : startOnly v s = _ := e.trans (startReserved_beginCommand hv s)
    have ht := exec_of_startOnly_stopped hst h (by rw [hc]; simp)
    rw [ht, hc]
    exact ⟨rfl, fun _ _ _ => rfl, fun _ => rfl, fun _ => rfl, fun _ => rfl⟩

/-- After a command that writes the store, it holds a CompressedData with blocks, or nothing (R34, R35). -/
theorem exec_store {v : Byte} {s t : State} (hst : s.st ≠ .busy) (hlegal : s.cfg.Legal)
    (h : exec (decodeCommand v) s = .next t) (hv : v = 0x01#8 ∨ v = 0x05#8 ∨ v = 0x06#8) : FullOrEmpty t := by
  rcases hv with rfl | rfl | rfl
  · exact (exec_compress_leaves hst hlegal h).2
  · exact (exec_deserialize_leaves hst h).2
  · have ht := exec_of_startOnly_stopped (v := 0x06#8) hst h (show St.done ≠ St.busy by decide)
    rw [ht]
    exact .inr ⟨rfl, rfl, entryPresent_forget (m := s.blkMem) rfl⟩

/-- Every instruction of the command space has a code (R102, R303). -/
theorem exists_decodeCommand {i : Instr} (h : spaceOf i = .command) : ∃ v, decodeCommand v = i := by
  cases i with
  | nop => exact ⟨0x00#8, rfl⟩
  | compress => exact ⟨0x01#8, rfl⟩
  | decompress => exact ⟨0x02#8, rfl⟩
  | size => exact ⟨0x03#8, rfl⟩
  | serialize => exact ⟨0x04#8, rfl⟩
  | deserialize => exact ⟨0x05#8, rfl⟩
  | release => exact ⟨0x06#8, rfl⟩
  | reserved07 => exact ⟨0x07#8, rfl⟩
  | reserved08 low => exact ⟨0b00001#5 ++ low, by revert low; decide⟩
  | reserved10 low => exact ⟨0b0001#4 ++ low, by revert low; decide⟩
  | reserved20 low => exact ⟨0b001#3 ++ low, by revert low; decide⟩
  | reserved40 low => exact ⟨0b01#2 ++ low, by revert low; decide⟩
  | reserved80 low => exact ⟨0b1#1 ++ low, by revert low; decide⟩
  | lit p => cases h
  | rep n b => cases h
  | count c => cases h
  | pack k n => cases h
  | unpack c => cases h

/-- A command that is answered was given while not BUSY (R304). -/
theorem stopped_of_exec_command {v : Byte} {s t : State} (h : exec (decodeCommand v) s = .next t) : s.st ≠ .busy := by
  rintro hb
  rw [exec_decodeCommand, if_pos hb] at h
  cases h

/-- Settles O56: each code writes its own part of the state, and the parts are apart. -/
theorem commandsWriteOnlyTheirOwn : Obligations.CommandsWriteOnlyTheirOwn := by
  intro i s t hinv hi h
  obtain ⟨v, rfl⟩ := exists_decodeCommand hi
  obtain ⟨hhost, hstore, hout, hsize, hstream⟩ := exec_ownOnly (stopped_of_exec_command h) hinv.control.legal h
  have code : ∀ {w : Byte} {j : Instr}, decodeCommand w = j → decodeCommand v ≠ j → v ≠ w :=
    fun hw hne hvw => hne (hvw ▸ hw)
  simp only [hostPart, storePart, outPart, streamPart, Prod.mk.injEq] at hhost hstore hout hstream
  obtain ⟨hcfg, hn, hin, hpresent, hwritable⟩ := hhost
  exact ⟨hcfg, hn, hin, hpresent, hwritable, fun h1 h5 h6 => hstore (code rfl h1) (code rfl h5) (code rfl h6),
    fun h2 => hout (code rfl h2), fun h3 => hsize (code rfl h3), fun h4 => hstream (code rfl h4)⟩

/-- Settles O47: the store is empty at reset; a command that writes it leaves it full or empty, the others leave it alone. -/
theorem storeValidity : Obligations.StoreValidity := by
  refine ⟨fun c => ⟨rfl, rfl, entryPresent_reset c⟩, fun v s t hst hlegal h => ?_⟩
  by_cases hv : v = 0x01#8 ∨ v = 0x05#8 ∨ v = 0x06#8
  · rcases exec_store hst hlegal h hv with ⟨hvalid, hn⟩ | ⟨hvalid, hn, hempty⟩
    · exact ⟨fun _ hf => by simp [hvalid] at hf, fun hc => absurd hc.2 hn⟩
    · exact ⟨fun _ _ => ⟨hn, hempty⟩, fun hc => by simp [hvalid] at hc⟩
  · obtain ⟨h1, h5, h6⟩ : v ≠ 0x01#8 ∧ v ≠ 0x05#8 ∧ v ≠ 0x06#8 := by simpa only [not_or] using hv
    have hown := exec_ownOnly hst hlegal h
    have hstore := hown.store h1 h5 h6
    simp only [storePart, Prod.mk.injEq] at hstore
    obtain ⟨hvalid, hn, hm⟩ := hstore
    have hempty : storeEmpty t ↔ storeEmpty s :=
      forall_congr' fun b => by rw [entryPresent_congr (congrArg Prod.fst hown.host) hm]
    rw [hvalid, hn, hempty]
    exact ⟨id, id⟩

end Sys2Proof.Machine
end

section
/-! SUPPORT. Which working registers a pass reads (10_state.md R22): erasing all others commutes with every transition, so that no
command depends on what a working register held before it (R46). -/

namespace Sys2Proof.Machine

/-! ### The live registers -/

/-- The working registers that the literal scan reads. -/
def keepLiteral (s : State) : State := { visible s with eI := s.eI, eM := s.eM }

/-- The working registers that the repeat scan reads. -/
def keepRepeat (s : State) : State := { visible s with eI := s.eI, eR := s.eR, eFirst := s.eFirst }

/-- The working registers that the summing pass and the size pass read. -/
def keepSum (s : State) : State := { visible s with dB := s.dB, dTotal := s.dTotal }

/-- The working registers that the expansion pass reads. -/
def keepExpand (s : State) : State := { visible s with dB := s.dB, dK := s.dK, dO := s.dO, dTotal := s.dTotal }

/-- The working registers that the write loop reads. -/
def keepWriter (s : State) : State := { visible s with sB := s.sB, sP := s.sP }

/-- The working registers that the stream reader reads: `S_CNT` only once it is past the header. -/
def keepReader (s : State) : State :=
  { visible s with sB := s.sB, sP := s.sP, sCnt := if s.sP = 0 then 0#32 else s.sCnt }

/-- The state with only the working registers that the running pass reads before it writes them. -/
def live (s : State) : State :=
  match s.phase with
  | .idle => visible s
  | .encLit => keepLiteral s
  | .encRep => keepRepeat s
  | .decSum => keepSum s
  | .decExp => keepExpand s
  | .size => keepSum s
  | .ser => keepWriter s
  | .des => keepReader s

theorem visible_live (s : State) : visible (live s) = visible s := by
  unfold live; split <;> rfl

theorem visible_eq_of_live {s u : State} (h : live s = live u) : visible s = visible u := by
  rw [← visible_live s, h, visible_live]

/-- Once a command has ended, or before one has started a pass, no working register is live. -/
theorem live_idle {s : State} (h : s.phase = .idle) : live s = visible s := by simp only [live, h]

/-! ### Failing and finishing -/

theorem visible_raise (k : ErrKind) (s : State) : visible (raise k s) = raise k (visible s) := by
  unfold raise cleanUp
  rw [show (visible s).cmd = s.cmd from rfl]
  split_ifs <;> rfl

/-- A failure leaves no register live, so it is the same for states with the same visible part. -/
theorem live_raise_congr {s u : State} (h : visible s = visible u) (k : ErrKind) : live (raise k s) = live (raise k u) := by
  rw [live_idle rfl, live_idle rfl, visible_raise, visible_raise, h]

theorem live_finish_congr {s u : State} (h : visible s = visible u) : live (finish s) = live (finish u) := by
  have hf : ∀ x, visible (finish x) = finish (visible x) := fun _ => rfl
  rw [live_idle rfl, live_idle rfl, hf, hf, h]

/-! ### The transitions of each pass -/

theorem encLitStep_live {s : State} (hp : s.phase = .encLit) : live (encLitStep s) = live (encLitStep (keepLiteral s)) := by
  unfold encLitStep
  rw [show litGoesOn (keepLiteral s) = litGoesOn s from rfl, show (keepLiteral s).eM = s.eM from rfl]
  split_ifs
  · simp only [live, extendLiteral, keepLiteral, visible, hp]
  · by_cases hcap : s.cfg.blkCap ≤ s.nblk.toNat
    · rw [closeLiteral_full hcap, closeLiteral_full (s := keepLiteral s) hcap]
      exact live_raise_congr (by rfl) _
    · rw [closeLiteral_room hcap, closeLiteral_room (s := keepLiteral s) hcap]
      simp only [live, storeEntry, keepLiteral, visible, hp]
      rfl
  · rfl

theorem encRepStep_live {s : State} (hp : s.phase = .encRep) : live (encRepStep s) = live (encRepStep (keepRepeat s)) := by
  unfold encRepStep
  rw [show repGoesOn (keepRepeat s) = repGoesOn s from rfl]
  split_ifs
  · simp only [live, extendRepeat, keepRepeat, visible, hp]
  · by_cases hcap : s.cfg.blkCap ≤ s.nblk.toNat
    · rw [closeRepeat_full hcap, closeRepeat_full (s := keepRepeat s) hcap]
      exact live_raise_congr (by rfl) _
    · by_cases hn : s.eI + s.eR = s.n.toNat
      · rw [closeRepeat_last hcap hn, closeRepeat_last (s := keepRepeat s) hcap hn]
        rfl
      · rw [closeRepeat_more hcap hn, closeRepeat_more (s := keepRepeat s) hcap hn]
        rfl

theorem decSumStep_live {s : State} (hp : s.phase = .decSum) : live (decSumStep s) = live (decSumStep (keepSum s)) := by
  unfold decSumStep sumBlock allocateOut
  rw [show usable (keepSum s) (keepSum s).dB = usable s s.dB from rfl, show (keepSum s).dB = s.dB from rfl,
    show (keepSum s).nblk = s.nblk from rfl, show (keepSum s).dTotal = s.dTotal from rfl, show (keepSum s).cfg = s.cfg from rfl]
  split_ifs
  · simp only [live, keepSum, visible, hp]
    rfl
  · exact live_raise_congr (by rfl) _
  · exact live_raise_congr (by rfl) _
  · rfl

theorem endBlock_live {s : State} (hp : s.phase = .decExp) : live (endBlock s) = live (endBlock (keepExpand s)) := by
  unfold endBlock
  rw [show (keepExpand s).dB = s.dB from rfl, show (keepExpand s).nblk = s.nblk from rfl]
  split_ifs
  · rfl
  · simp only [live, keepExpand, visible, hp]

theorem expandByte_live {s : State} (hp : s.phase = .decExp) : live (expandByte s) = live (expandByte (keepExpand s)) := by
  unfold expandByte
  simp only
  rw [show expansionByte (keepExpand s) = expansionByte s from rfl,
    show entryCtrl (keepExpand s) (keepExpand s).dB = entryCtrl s s.dB from rfl, show (keepExpand s).dK = s.dK from rfl]
  split_ifs
  · simp only [live, putByte, keepExpand, visible, hp]
  · exact endBlock_live (s := putByte (expansionByte s) s) hp

theorem sizeStep_live {s : State} (hp : s.phase = .size) : live (sizeStep s) = live (sizeStep (keepSum s)) := by
  unfold sizeStep sizeBlock
  rw [show usable (keepSum s) (keepSum s).dB = usable s s.dB from rfl, show (keepSum s).dB = s.dB from rfl,
    show (keepSum s).nblk = s.nblk from rfl]
  split_ifs
  · simp only [live, keepSum, visible, hp]
    rfl
  · exact live_raise_congr (by rfl) _
  · rfl

theorem serStep_live {s : State} (hp : s.phase = .ser) : live (serStep s) = live (serStep (keepWriter s)) := by
  unfold serStep
  rw [show (keepWriter s).sB = s.sB from rfl, show (keepWriter s).nblk = s.nblk from rfl]
  split_ifs
  · simp only [live, writeBlock, keepWriter, visible, hp]
    rfl
  · rfl

theorem acceptCount_live {s : State} (hp : s.phase = .des) (c : Word32) :
    live (acceptCount c s) = live (acceptCount c (keepReader s)) := by
  unfold acceptCount
  simp only
  rw [show (keepReader s).cfg = s.cfg from rfl]
  split_ifs
  · exact live_raise_congr (by rfl) _
  · exact live_raise_congr (by rfl) _
  · simp only [live, keepReader, visible, hp]

theorem loadBlock_live {s : State} (hp : s.phase = .des) (h0 : s.sP ≠ 0) (c : Byte) (p : List Byte) :
    live (loadBlock c p s) = live (loadBlock c p (keepReader s)) := by
  have hcnt : (keepReader s).sCnt = s.sCnt := if_neg h0
  unfold loadBlock finishDeserialize
  simp only [hcnt]
  rw [show (keepReader s).sB = s.sB from rfl]
  split_ifs
  · refine live_finish_congr ?_
    simp only [visible, storeEntry_sCnt, hcnt]
    rfl
  · simp only [live, keepReader, storeEntry, visible, hp, h0]
    rfl

/-- What the reader fetches is a header, a block that comes after a header, or a failure (R233 to R236). -/
theorem fetch_reader {s : State} (hp : s.phase = .des) :
    (∃ c, fetch s = .instr (.count c)) ∨ (s.sP ≠ 0 ∧ ∃ k : Block, fetch s = .instr k.instr) ∨ ∃ k, fetch s = .fails k := by
  simp only [fetch, hp, fetchFrom, decode]
  split_ifs with h0
  · split
    · next i rest hd =>
      unfold decodeHeader at hd
      split at hd <;> cases hd
      exact .inl ⟨_, rfl⟩
    · exact .inr (.inr ⟨_, rfl⟩)
  · split
    · next i rest hd =>
      obtain ⟨k, rfl, -, -⟩ := decodeBlock_ok_block hd
      exact .inr (.inl ⟨h0, k, rfl⟩)
    · exact .inr (.inr ⟨_, rfl⟩)

theorem desStep_live {s : State} (hp : s.phase = .des) : live (desStep s) = live (desStep (keepReader s)) := by
  have hfetch : fetch (keepReader s) = fetch s := by
    simp only [fetch, show (keepReader s).phase = s.phase from rfl, hp]
    rfl
  rcases fetch_reader hp with ⟨c, hf⟩ | ⟨h0, k, hf⟩ | ⟨k, hf⟩
  · simp only [desStep, hfetch, hf]
    exact acceptCount_live hp c
  · rw [desStep_block hf, desStep_block (hfetch.trans hf)]
    exact loadBlock_live hp h0 _ _
  · simp only [desStep, hfetch, hf]
    exact live_raise_congr (by rfl) _

/-- A transition reads no working register but the live ones (R22). -/
theorem transition_live (s : State) : live (transition s) = live (transition (live s)) := by
  have hph : (live s).phase = s.phase := (congrArg State.phase (visible_live s) :)
  unfold transition
  rw [hph]
  cases hp : s.phase with
  | idle =>
    show live s = live (live s)
    rw [live_idle hp, live_idle (s := visible s) hp]
    rfl
  | encLit => rw [show live s = keepLiteral s by simp only [live, hp]]; exact encLitStep_live hp
  | encRep => rw [show live s = keepRepeat s by simp only [live, hp]]; exact encRepStep_live hp
  | decSum => rw [show live s = keepSum s by simp only [live, hp]]; exact decSumStep_live hp
  | decExp => rw [show live s = keepExpand s by simp only [live, hp]]; exact expandByte_live hp
  | size => rw [show live s = keepSum s by simp only [live, hp]]; exact sizeStep_live hp
  | ser => rw [show live s = keepWriter s by simp only [live, hp]]; exact serStep_live hp
  | des => rw [show live s = keepReader s by simp only [live, hp]]; exact desStep_live hp

/-! ### Whole commands -/

/-- Runs from states that agree on the live registers agree on them to the end. -/
theorem runToEnd_live_congr {s u : State} (h : live s = live u) (fuel : Nat) :
    live (runToEnd fuel s) = live (runToEnd fuel u) := by
  induction fuel generalizing s u with
  | zero => exact h
  | succ fuel ih =>
    have hst : s.st = u.st := (congrArg State.st (visible_eq_of_live h) :)
    by_cases hb : s.st = .busy
    · rw [runToEnd_busy hb, runToEnd_busy (hst ▸ hb)]
      exact ih (by rw [transition_live s, transition_live u, h])
    · rw [runToEnd_stopped hb, runToEnd_stopped (hst ▸ hb)]
      exact h

theorem visible_beginCommand (v : Byte) (s : State) : visible (beginCommand v s) = beginCommand v (visible s) := by
  unfold beginCommand
  split_ifs <;> rfl

theorem checkEntries_visible (s : State) (b total n : Nat) : checkEntries (visible s) b total n = checkEntries s b total n := by
  rw [checkEntries_eq, checkEntries_eq, allUsable_congr (s := s) (by rfl) (by rfl), blocksFrom_congr (s := s) (by rfl)]

theorem preCheck_live {s : State} (hp : s.phase = .ser) : live (preCheck s) = live (preCheck (visible s)) := by
  unfold preCheck
  rw [checkEntries_visible, show (visible s).nblk = s.nblk from rfl, show (visible s).cfg = s.cfg from rfl]
  split
  · exact live_raise_congr (by rfl) _
  · split_ifs
    · exact live_raise_congr (by rfl) _
    · simp only [live, writeHeader, forgetStr, visible, hp]
      rfl

theorem startSerialize_live (s : State) : live (startSerialize s) = live (startSerialize (visible s)) := by
  unfold startSerialize
  rw [show noData (visible s) = noData s from rfl, show (visible s).strWritable = s.strWritable from rfl]
  split_ifs
  · exact live_raise_congr (by rfl) _
  · exact live_raise_congr (by rfl) _
  · exact preCheck_live (s := { s with phase := .ser }) rfl

/-- A start rule reads no working register (R22). -/
theorem startRule_live (v : Byte) (s : State) : live (startRule v s) = live (startRule v (visible s)) := by
  unfold startRule
  split
  · exact live_finish_congr (by rfl)
  · unfold startCompress
    rw [show inputBad (visible s) = inputBad s from rfl]
    split_ifs
    · exact live_raise_congr (by rfl) _
    · rfl
  · unfold startDecompress
    rw [show noData (visible s) = noData s from rfl]
    split_ifs
    · exact live_raise_congr (by rfl) _
    · rfl
  · unfold startSize
    rw [show noData (visible s) = noData s from rfl]
    split_ifs
    · exact live_raise_congr (by rfl) _
    · rfl
  · exact startSerialize_live s
  · unfold startDeserialize
    simp only
    rw [show (visible s).strPresent = s.strPresent from rfl]
    split_ifs
    · exact live_raise_congr (by rfl) _
    · rfl
  · rfl
  · exact live_raise_congr (by rfl) _

/-- Settles O57: the commands start alike, and their runs agree on the live registers to the end. -/
theorem workingRegistersAreDead : Obligations.WorkingRegistersAreDead := by
  intro v s u hst hvis
  have hst' : u.st ≠ .busy := (show s.st = u.st from (congrArg State.st hvis :)) ▸ hst
  have hstart : live (startOnly v s) = live (startOnly v u) := by
    rw [startOnly, startOnly, startRule_live, visible_beginCommand, hvis, ← visible_beginCommand, ← startRule_live]
  have hfuel : fuelFor (startOnly v s) = fuelFor (startOnly v u) := (congrArg fuelFor (visible_eq_of_live hstart) :)
  refine ⟨_, _, exec_command hst, exec_command hst', visible_eq_of_live ?_⟩
  rw [runCommand, runCommand, hfuel]
  exact runToEnd_live_congr hstart _

end Sys2Proof.Machine
end

section
/-! SUPPORT. What the host sees and does: reads, writes, read-only registers, the layout of the control registers, reset, and a
write to `CMD` (10_state.md R25, R30 to R32; 70_reset_and_hazards.md R320, R330, R331). -/

namespace Sys2Proof.Machine

/-! ### `CMD` after a command -/

/-- No transition writes `CMD`. -/
@[simp] theorem transition_cmd (s : State) : (transition s).cmd = s.cmd := by
  unfold transition
  split
  · rfl
  · unfold encLitStep closeLiteral emit
    split_ifs <;> simp [extendLiteral, openRepeat]
  · unfold encRepStep closeRepeat emit
    split_ifs <;> simp [extendRepeat, finishCompress]
  · unfold decSumStep sumBlock allocateOut
    split_ifs <;> simp
  · unfold expandByte endBlock
    simp only
    split_ifs <;> simp [finishDecompress]
  · unfold sizeStep sizeBlock
    split_ifs <;> simp [finishSize]
  · unfold serStep
    split_ifs <;> simp [writeBlock, finishSerialize]
  · unfold desStep acceptCount loadBlock
    repeat' split
    all_goals simp [finishDeserialize]

/-- No start rule writes `CMD`: the common start has done it (R300). -/
@[simp] theorem startRule_cmd (v : Byte) (s : State) : (startRule v s).cmd = s.cmd := by
  rcases startRule_spec v s with ⟨_, e⟩ | ⟨_, e⟩ | ⟨_, e⟩ | ⟨_, e⟩ | ⟨_, e⟩ | ⟨_, e⟩ | ⟨_, e⟩ | ⟨_, e⟩ <;> rw [e]
  · rfl
  · unfold startCompress; split <;> simp
  · unfold startDecompress; split <;> simp
  · unfold startSize; split <;> simp
  · unfold startSerialize preCheck writeHeader
    repeat' split
    all_goals simp
  · unfold startDeserialize; simp only; split <;> simp
  · rfl
  · simp [startReserved]

theorem runToEnd_cmd (fuel : Nat) (s : State) : (runToEnd fuel s).cmd = s.cmd := by
  induction fuel generalizing s with
  | zero => rfl
  | succ fuel ih =>
    by_cases hb : s.st = .busy
    · rw [runToEnd_busy hb, ih, transition_cmd]
    · rw [runToEnd_stopped hb]

/-- After a command `CMD` holds its code (R27, R300). -/
theorem exec_cmd {v : Byte} {s t : State} (h : exec (decodeCommand v) s = .next t) : t.cmd = v := by
  rw [exec_command (stopped_of_exec_command h)] at h
  cases h
  rw [runCommand, runToEnd_cmd, startOnly, startRule_cmd, beginCommand_cmd]

/-! ### Reads -/

theorem hostRead_stopped {s : State} (h : s.st ≠ .busy) (v : Word64) : hostRead v s = .next { s with lastRead := v } := if_neg h

theorem hostRead_busy {s : State} (h : s.st = .busy) (v : Word64) :
    hostRead v s = .next { s with lastRead := Config.busyRead s.draws, draws := s.draws + 1 } := if_pos h

theorem hostReadAt_below {a cap : Nat} (h : a < cap) (v : Byte) (s : State) : hostReadAt a cap v s = hostRead (v.setWidth 64) s :=
  if_pos h

theorem hostReadAt_beyond {a cap : Nat} (h : cap ≤ a) (v : Byte) (s : State) : hostReadAt a cap v s = .fault .noSuchAddress :=
  if_neg (Nat.not_lt.2 h)

/-- While not BUSY a read of any control register answers its value; of `STATUS` at any time. -/
theorem hostReadReg_stopped {s : State} (h : s.st ≠ .busy) (r : CReg) :
    hostReadReg r s = .next { s with lastRead := regWord s r } := by
  cases r with
  | status => rfl
  | _ => exact hostRead_stopped h _

theorem hostReadReg_busy {s : State} (h : s.st = .busy) {r : CReg} (hr : r ≠ .status) :
    hostReadReg r s = .next { s with lastRead := Config.busyRead s.draws, draws := s.draws + 1 } := by
  cases r with
  | status => exact absurd rfl hr
  | _ => exact hostRead_busy h _

/-- The fields of an entry other than `.present` read as they stand in the memory. -/
theorem fieldWord_of_ne {f : EntryField} (hf : f ≠ .present) (s : State) (b : Nat) :
    fieldWord s b f = s.blkMem.read .blk (fieldAddr b f) := by
  cases f with
  | present => exact absurd rfl hf
  | _ => rfl

theorem fieldWord_present (s : State) (b : Nat) :
    (fieldWord s b .present).setWidth 64 = if entryPresent s b then 1#64 else 0#64 := by
  rw [fieldWord]
  cases entryPresent s b <;> rfl

theorem regWord_status_busy {s : State} (h : s.st = .busy) : regWord s .status = 1#64 := by
  rw [regWord, statusWord, h]
  rfl

/-- Settles O60: the reads of each kind, while not BUSY, while BUSY and beyond a memory's end. -/
theorem hostReads : Obligations.HostReads := by
  refine fun s => ⟨rfl, regWord_status_busy, fun hst => ⟨hostReadReg_stopped hst, fun a ha => ?_, fun a ha => ?_, fun a ha => ?_,
      fun b => ?_, fun b f hf => ?_⟩,
    fun hb => ⟨fun r hr => hostReadReg_busy hb hr, fun a ha => ?_, fun a ha => ?_, fun a ha => ?_, fun b f => hostRead_busy hb _⟩,
    fun a => ⟨fun ha => hostReadAt_beyond ha _ _, fun ha => hostReadAt_beyond ha _ _, fun ha => hostReadAt_beyond ha _ _⟩⟩
  · exact (hostReadAt_below ha _ _).trans (hostRead_stopped hst _)
  · exact (hostReadAt_below ha _ _).trans (hostRead_stopped hst _)
  · exact (hostReadAt_below ha _ _).trans (hostRead_stopped hst _)
  · rw [← fieldWord_present]; exact hostRead_stopped hst _
  · rw [← fieldWord_of_ne hf]; exact hostRead_stopped hst _
  · exact (hostReadAt_below ha _ _).trans (hostRead_busy hb _)
  · exact (hostReadAt_below ha _ _).trans (hostRead_busy hb _)
  · exact (hostReadAt_below ha _ _).trans (hostRead_busy hb _)

/-! ### The layout of the control registers -/

/-- `FLAGS` as the host reads it, bit by bit (R32). -/
theorem regWord_flags_bits (s : State) :
    (regWord s .flags).getLsbD 0 = s.inPresent ∧ (regWord s .flags).getLsbD 1 = s.cdValid ∧
      (regWord s .flags).getLsbD 2 = s.outValid ∧ (regWord s .flags).getLsbD 3 = s.strPresent ∧
      (regWord s .flags).getLsbD 4 = s.strWritable ∧ (regWord s .flags).toNat < 32 := by
  simp only [regWord, flagsWord]
  generalize s.inPresent = i, s.cdValid = c, s.outValid = o, s.strPresent = p, s.strWritable = w
  revert i c o p w
  decide

/-- Settles O54: the codes of `ST` and `ERR` are the rule's numbers, and the bits of `FLAGS` stand where it puts them. -/
theorem statusErrAndFlagsLayout : Obligations.StatusErrAndFlagsLayout := by
  refine fun s => ⟨?_, ?_, regWord_flags_bits s⟩
  · rw [regWord, statusWord]
    cases s.st <;> rfl
  · rw [regWord, errWord]
    cases s.err <;> rfl

/-! ### Writes -/

theorem hostWrite_stopped {s : State} (h : s.st ≠ .busy) (t : State) : hostWrite t s = .next t := if_neg h

theorem hostWriteAt_below {s : State} (h : s.st ≠ .busy) {a cap : Nat} (ha : a < cap) (t : State) :
    hostWriteAt a cap t s = .next t := by rw [hostWriteAt, if_neg h, if_pos ha]

/-- Settles O53: a write of what is read-only leaves the state, and one of `FLAGS` leaves `OUT_VALID`. -/
theorem readOnlyToTheHost : Obligations.ReadOnlyToTheHost := by
  refine fun s hst => ⟨fun v => ?_, fun a v ha => hostWriteAt_below hst ha s, fun v t h => ?_⟩
  · have ignored : hostWrite s s = .next s := hostWrite_stopped hst s
    exact ⟨ignored, ignored, ignored, ignored, ignored⟩
  · obtain ⟨-, rfl⟩ := hostWrite_next h
    rfl

/-- What a field of an entry inside the store takes of a write is what it reads next. -/
theorem fieldWord_write {s : State} (hwf : s.blkMem.wf .blk) {b : Nat} (hb : b < s.cfg.blkCap) (f : EntryField) (v : Byte) :
    fieldWord { s with blkMem := s.blkMem.write .blk (fieldAddr b f) (fieldValue f v) } b f = fieldValue f v := by
  have hread := read_write_same hwf (fieldAddr b f) (fieldValue f v)
  cases f with
  | present =>
    have hbit : ∀ x : Byte, (BitVec.ofBool ((x &&& 1#8).getLsbD 0)).setWidth 8 = x &&& 1#8 := by decide
    simp only [fieldWord, entryPresent, hread, hb, decide_true, Bool.true_and]
    exact hbit v
  | ctrl => exact hread
  | plen => exact hread
  | pay k => exact hread

/-- Settles O55: each write changes one register, flag, byte or field, which reads back as written. -/
theorem hostReadsWhatItWrote : Obligations.HostReadsWhatItWrote := by
  intro s hst
  refine ⟨fun v => ⟨_, hostWrite_stopped hst _, rfl, hostRead_stopped (by exact hst) _⟩,
    fun v => ⟨_, hostWrite_stopped hst _, rfl, hostRead_stopped (by exact hst) _⟩,
    fun v => ⟨_, hostWrite_stopped hst _, rfl, hostRead_stopped (by exact hst) _⟩, fun v => ?flags,
    fun v => ⟨hostWrite_stopped hst _, hostWrite_stopped hst _, hostWrite_stopped hst _, hostWrite_stopped hst _⟩,
    fun v t h ht => ?cmd, fun a v ha hwf => ?inp, fun a v ha hwf => ?str, fun b f v hb hwf => ?entry⟩
  case flags =>
    have hset : writeReg .flags v s = { s with
        inPresent := v.getLsbD 0, cdValid := v.getLsbD 1, strPresent := v.getLsbD 3, strWritable := v.getLsbD 4 } := by
      simp [writeReg, setFlags]
    exact ⟨writeReg .flags v s, regWord (writeReg .flags v s) .flags, hostWrite_stopped hst _, hset,
      hostRead_stopped (by exact hst) _, hset ▸ regWord_flags_bits _⟩
  case cmd =>
    have hcmd : regWord t .cmd = v.setWidth 64 := by rw [regWord, exec_cmd h]
    exact hcmd ▸ hostReadReg_stopped ht .cmd
  case inp =>
    refine ⟨_, hostWriteAt_below hst ha _, rfl, (hostReadAt_below ha _ _).trans ?_, fun b hb => read_write_ne hwf hb.symm v⟩
    rw [inByte, read_write_same hwf]
    exact hostRead_stopped (by exact hst) _
  case str =>
    refine ⟨_, hostWriteAt_below hst ha _, rfl, (hostReadAt_below ha _ _).trans ?_, fun b hb => read_write_ne hwf hb.symm v⟩
    rw [strByte, read_write_same hwf]
    exact hostRead_stopped (by exact hst) _
  case entry =>
    refine ⟨_, hostWriteAt_below hst hb _, rfl, ?_, fun b' f' hne => read_write_ne hwf (fun he => hne ?_) _⟩
    · rw [hostAccess, fieldWord_write hwf hb]
      exact hostRead_stopped (by exact hst) _
    · obtain ⟨rfl, rfl⟩ := fieldAddr_injective he
      rfl

/-! ### Reset -/

/-- A memory in which nothing is listed reads as the free values of its epoch, but for `.present`. -/
theorem read_of_nil {sp : MemSpace} {m : Mem} {a : Nat} (hc : m.cells = []) (ha : unlisted sp a = none) :
    m.read sp a = Config.unwritten sp m.epoch a := by simp [Mem.read, hc, lookup, ha]

/-- No field but `.present` has a value of its own while nothing is written there. -/
theorem unlisted_fieldAddr {f : EntryField} (hf : f ≠ .present) (b : Nat) : unlisted .blk (fieldAddr b f) = none := by
  have hmod : fieldAddr b f % entrySize ≠ 0 := by
    cases f with
    | present => exact absurd rfl hf
    | ctrl => simp only [fieldAddr, entrySize]; omega
    | plen => simp only [fieldAddr, entrySize]; omega
    | pay k => simp only [fieldAddr, entrySize]; omega
  exact if_neg hmod

theorem regWord_resetWith (c : Config) (r : CReg) : regWord (State.resetWith c) r = 0#64 := by
  cases r with
  | flags => simp only [regWord, flagsWord, State.resetWith]; decide
  | _ => rfl

theorem regWord_resetEvent (s : State) (r : CReg) : regWord (resetEvent s) r = regWord (State.resetWith s.cfg) r := by
  cases r <;> rfl

/-- Settles O1: the registers of the reset state are 0, and its memories list nothing. -/
theorem resetStateValues : Obligations.ResetStateValues :=
  ⟨rfl, fun c => ⟨rfl, regWord_resetWith c, rfl, entryPresent_reset c,
    fun _ => ⟨read_of_nil rfl rfl, read_of_nil rfl rfl, read_of_nil rfl rfl⟩,
    fun b _ hf => read_of_nil rfl (unlisted_fieldAddr hf b)⟩⟩

/-- Settles O2: the reset event leaves the reset state's registers, with every memory forgotten. -/
theorem resetInAnyState : Obligations.ResetInAnyState :=
  fun s => ⟨resetEvent s, rfl, rfl, fun r => (regWord_resetEvent s r).trans (regWord_resetWith s.cfg r), rfl,
    entryPresent_forget (m := s.blkMem) rfl,
    fun _ => ⟨read_of_nil rfl rfl, read_of_nil rfl rfl, read_of_nil rfl rfl⟩,
    fun b _ hf => read_of_nil rfl (unlisted_fieldAddr hf b), rfl, rfl, rfl, rfl⟩

/-! ### The step and a write to `CMD` -/

/-- Settles O9: the clauses of `step` and `sequencerStep`, and the fetch of both passes that execute blocks. -/
theorem stepRunsTheFetchedInstruction : Obligations.StepRunsTheFetchedInstruction := by
  refine fun s => ⟨fun v rest h => by rw [step, h], fun k l rest h => by rw [step, h], fun c rest h => by rw [step, h],
    fun a rest h => by rw [step, h], fun hst => ⟨fun h => by rw [step, h]; exact if_neg hst, ?_⟩, fun hb h => ?_,
    fun hb rest h => by rw [step, h]; exact if_pos hb, fun hs => if_pos hs, fun hs => ?_, fun hp i rest h => ?_,
    fun hp h0 i rest h => ?_, fun hp h0 i rest hle h => ?_⟩
  · rintro rest (h | h)
    · rw [step, h]; exact if_neg hst
    · rw [step, h]; exact if_neg hst
  · obtain h | ⟨rest, h⟩ := h
    · rw [step, h]; exact if_pos hb
    · rw [step, h]; exact if_pos hb
  · rw [sequencerStep, if_neg (by simp [hs])]
    exact ⟨fun i h => by rw [h], fun k h => by rw [h], fun h => by rw [h]⟩
  · simp only [fetch, hp, fetchFrom, h]
  · simp only [fetch, hp, h0, if_true, inOrder_eq, headerBytes_eq, fetchFrom, h]
  · rw [fetch_block hp h0 hle, show decodeBlock ((stream s).drop s.sP) = .ok (i, rest) from h]

/-- What the start rule of a command that needs no pass leaves in `ST` (R301 to R303). -/
theorem startRule_st {v : Byte} (hv : v = 0x00#8 ∨ 0x06#8 ≤ v) (s : State) :
    (startRule v s).st = if v = 0x00#8 ∨ v = 0x06#8 then .done else .fail := by
  rcases startRule_spec v s with
    ⟨rfl, e⟩ | ⟨rfl, _⟩ | ⟨rfl, _⟩ | ⟨rfl, _⟩ | ⟨rfl, _⟩ | ⟨rfl, _⟩ | ⟨rfl, e⟩ | ⟨hlt, e⟩
  · rw [e]; rfl
  · exact absurd hv (by decide)
  · exact absurd hv (by decide)
  · exact absurd hv (by decide)
  · exact absurd hv (by decide)
  · exact absurd hv (by decide)
  · rw [e]; rfl
  · have h : ¬ (v = 0x00#8 ∨ v = 0x06#8) := by
      rintro (rfl | rfl)
      · exact absurd hlt (by decide)
      · exact absurd hlt (by decide)
    rw [e, if_neg h]
    rfl

/-- Settles O58: the common start at once, the command's own start rule with the sequencer's next step. -/
theorem commandWriteIsBusyAtOnce : Obligations.CommandWriteIsBusyAtOnce := by
  intro v s hst
  have hbusy : (writeCmd v s).st = .busy := beginCommand_st v s
  have hcmd : (writeCmd v s).cmd = v := beginCommand_cmd v s
  have hwidth : (v.setWidth 64 : Word64).setWidth 8 = v := by simp
  have hwrite : writeReg .cmd (v.setWidth 64) s = writeCmd v s := congrArg (writeCmd · s) hwidth
  refine ⟨?_, hbusy, rfl, busyPhase_ne _, fun rest => ?_, rfl, takeStart_writeCmd, fun hv => ?_⟩
  · rw [hostAccess, hwrite, hostWrite_stopped hst]
  · show Host.Outcome.next { writeCmd v s with host := rest, lastRead := regWord (writeCmd v s) .status } = _
    rw [regWord_status_busy hbusy]
  · rw [takeStart, hcmd, startRule_st hv]

end Sys2Proof.Machine
end

section
/-! SUPPORT. A command step by step and a block byte by byte (20_memory.md R71, R72): the sequencer leaves the host's list alone,
a waiting host sees the same end as a whole command gives, and a block in one step is its X1 transitions. -/

namespace Sys2Proof.Machine

/-! ### The host's list -/

/-- No transition of a pass takes an action off the host's list. -/
@[simp] theorem transition_host (s : State) : (transition s).host = s.host := by
  unfold transition
  split
  · rfl
  · unfold encLitStep closeLiteral emit
    split_ifs <;> simp [extendLiteral, openRepeat]
  · unfold encRepStep closeRepeat emit
    split_ifs <;> simp [extendRepeat, finishCompress]
  · unfold decSumStep sumBlock allocateOut
    split_ifs <;> simp
  · unfold expandByte endBlock
    simp only
    split_ifs <;> simp [finishDecompress]
  · unfold sizeStep sizeBlock
    split_ifs <;> simp [finishSize]
  · unfold serStep
    split_ifs <;> simp [writeBlock, finishSerialize]
  · unfold desStep acceptCount loadBlock
    repeat' split
    all_goals simp [finishDeserialize]

/-- No start rule takes an action off the host's list. -/
@[simp] theorem startRule_host (v : Byte) (s : State) : (startRule v s).host = s.host := by
  rcases startRule_spec v s with ⟨_, e⟩ | ⟨_, e⟩ | ⟨_, e⟩ | ⟨_, e⟩ | ⟨_, e⟩ | ⟨_, e⟩ | ⟨_, e⟩ | ⟨_, e⟩ <;> rw [e]
  · rfl
  · unfold startCompress; split <;> simp
  · unfold startDecompress; split <;> simp
  · unfold startSize; split <;> simp
  · unfold startSerialize preCheck writeHeader
    repeat' split
    all_goals simp
  · unfold startDeserialize; simp only; split <;> simp
  · rfl
  · simp [startReserved]

/-- What no transition changes, no run of them changes. -/
theorem runToEnd_unchanged {α : Type} {f : State → α} (h : ∀ s, f (transition s) = f s) (fuel : Nat) (s : State) :
    f (runToEnd fuel s) = f s := by
  induction fuel generalizing s with
  | zero => rfl
  | succ fuel ih =>
    by_cases hb : s.st = .busy
    · rw [runToEnd_busy hb, ih, h]
    · rw [runToEnd_stopped hb]

@[simp] theorem runToEnd_host (fuel : Nat) (s : State) : (runToEnd fuel s).host = s.host :=
  runToEnd_unchanged transition_host fuel s

@[simp] theorem runToEnd_starting (fuel : Nat) (s : State) : (runToEnd fuel s).starting = s.starting :=
  runToEnd_unchanged transition_starting fuel s

/-! ### A host that waits -/

/-- A run of the machine that begins with a step that goes on. -/
theorem run_succ {s t : State} (h : step s = .next t) (k : Nat) : core.run (k + 1) s = core.run k t := by
  simp only [Host.Core.run, show core.step s = .next t from h]

/-- While the host waits for a running command, a step is one of the sequencer. -/
theorem step_wait_busy {s : State} {rest : List HostAct} (hh : s.host = .wait :: rest) (hb : s.st = .busy) :
    step s = sequencerStep s := by
  rw [step, hh]
  exact if_pos hb

/-- The wait ends with the command. -/
theorem step_wait_stopped {s : State} {rest : List HostAct} (hh : s.host = .wait :: rest) (hst : s.st ≠ .busy) :
    step s = .next { s with host := rest } := by
  rw [step, hh]
  exact if_neg hst

/-- A host that waits for the running pass, step by step, sees the end that `n` transitions reach, its wait over (R72). -/
theorem run_wait {n : Nat} {s : State} {rest : List HostAct} (h : Inv s) (hns : s.starting = false)
    (hh : s.host = .wait :: rest) (hend : (runToEnd n s).st ≠ .busy) :
    ∃ k, core.run k s = .next { runToEnd n s with host := rest } := by
  induction n using Nat.strong_induction_on generalizing s with
  | _ n ih =>
    by_cases hb : s.st = .busy
    · obtain ⟨j, hstep, hbefore⟩ := sequencerStep_eq_run h hns hb
      have hj : j + 1 ≤ n := Nat.le_of_not_lt fun hlt => hend (hbefore n hlt)
      obtain ⟨m, rfl⟩ := Nat.exists_eq_add_of_le hj
      rw [runToEnd_add] at hend ⊢
      obtain ⟨k, hk⟩ := ih m (by omega) (runToEnd_inv h hns (j + 1)) (by simpa using hns) (by simpa using hh) hend
      exact ⟨k + 1, (run_succ ((step_wait_busy hh hb).trans hstep) k).trans hk⟩
    · rw [runToEnd_stopped hb]
      exact ⟨1, run_succ (step_wait_stopped hh hb) 0⟩

/-- Settles O51: the write to `CMD`, the start rule, the steps of the passes and the end of the wait. -/
theorem stepwiseRunEndsTheSame : Obligations.StepwiseRunEndsTheSame := by
  intro s v rest h hst hh
  have hns := h.started hst
  obtain ⟨hwrite, hbusy, -, -, -, hseq, htake, -⟩ := commandWriteIsBusyAtOnce v s hst
  have hstart : (startOnly v s).starting = false := by simp [startOnly, hns]
  have hinv := startOnly_inv h hst v
  obtain ⟨k, hk⟩ := run_wait hinv hstart (by simpa [startOnly] using hh) (runCommand_ended hinv hstart)
  have hwait : (writeCmd v s).host = .wait :: rest := by simpa [writeCmd] using hh
  have hown : step (writeCmd v s) = .next (startOnly v s) := by
    rw [step_wait_busy hwait hbusy, hseq, htake hns, startOnly]
  have hcmd : step { s with host := .access (.write .cmd (v.setWidth 64)) :: s.host } = .next (writeCmd v s) := hwrite
  exact ⟨k + 1 + 1, _, exec_command hst, (run_succ hcmd _).trans ((run_succ hown _).trans hk)⟩

/-! ### A block in the expansion pass -/

/-- In the expansion pass the sequencer executes the block of entry `D_B` (R24, R74). -/
theorem sequencerStep_expansion {s : State} (hns : s.starting = false) (hp : s.phase = .decExp) :
    sequencerStep s = .next (expandBlock (entryBlock s s.dB).expand s) := by
  have hdecode : decode .block (entryBytes s s.dB) = .ok ((entryBlock s s.dB).instr, []) := by
    rw [show entryBytes s s.dB = (entryBlock s s.dB).ctrl :: ((entryBlock s s.dB).payload ++ []) by simp [entryBytes]]
    exact decodeBlock_block (entryBlock_lengthOk s s.dB) []
  have hfetch : fetch s = .instr (entryBlock s s.dB).instr := by simp only [fetch, hp, fetchFrom, hdecode]
  rw [sequencerStep, if_neg (by simp [hns]), hfetch]
  cases entryBlock s s.dB with
  | lit payload => simp only [Block.instr, exec, execLit, executeBlock, hp, Block.expand]
  | rep len b => simp only [Block.instr, exec, execRep, executeBlock, hp, Block.expand]

/-- Settles O23: the block at `D_B`, from byte `D_K` on, is the X1 transitions that it has left. -/
theorem blockGrainIsNotObservable : Obligations.BlockGrainIsNotObservable := by
  intro s h hb hns hp
  have hpass : ExpandPass s := by simpa only [PassOk, hp] using h.pass hns
  obtain ⟨n, hn⟩ := Nat.exists_eq_add_of_lt hpass.position.2
  have hleft : lenOf (entryCtrl s s.dB) - s.dK = n + 1 := by omega
  obtain ⟨hbefore, hrun⟩ := expandBlock_eq_run hp hb hn.symm
  rw [hleft, sequencerStep_expansion hns hp, hrun]
  exact ⟨rfl, hbefore⟩

end Sys2Proof.Machine
end

section
/-! SUPPORT. What the readers find beyond the block store, and blocks outside the passes that execute them (20_memory.md R74,
R76). -/

namespace Sys2Proof.Machine

/-! ### Entries beyond the store -/

/-- An entry at or beyond `BLK_CAP` is absent (R76). -/
theorem entryPresent_beyond {s : State} {b : Nat} (h : s.cfg.blkCap ≤ b) : entryPresent s b = false := by
  rw [entryPresent, decide_eq_false (Nat.not_lt.2 h), Bool.false_and]

/-- A count of blocks above the capacity counts an absent entry. -/
theorem storeUsable_beyond {s : State} (h : s.cfg.blkCap < s.nblk.toNat) : storeUsable s = false :=
  Bool.eq_false_iff.2 fun hall => Nat.not_le.2 h (le_cap_of_allUsable hall)

theorem noData_eq_false {s : State} (hv : s.cdValid = true) (hn : 0 < s.nblk.toNat) : noData s = false := by
  have h0 : s.nblk ≠ 0#32 := by rintro he; simp [he] at hn
  simp [noData, hv, h0]

section
variable {s : State} (hst : s.st ≠ .busy) (hd : noData s = false) (hu : storeUsable s = false)
include hst hd hu

/-- SIZE of a store with an entry that is not usable (R182). -/
theorem exec_size_unusable : ∃ t, exec .size s = .next t ∧ failedWith .corruptStructure t := by
  obtain ⟨t, ht, hended⟩ := exec_size_data hst hd
  refine ⟨t, ht, ?_⟩
  cases hended with
  | done good result => rw [hu] at good; cases good
  | corrupt bad failed => rw [failed]; exact ⟨rfl, rfl⟩

/-- DECOMPRESS of a store with an entry that is not usable (R194). -/
theorem exec_decompress_unusable : ∃ t, exec .decompress s = .next t ∧ failedWith .corruptStructure t := by
  obtain ⟨t, ht, hended⟩ := exec_decompress_data hst hd
  refine ⟨t, ht, ?_⟩
  rcases hended.result with hdone | ⟨-, u, -, rfl⟩ | ⟨good, -⟩
  · exact absurd (hu.symm.trans hdone.usable) Bool.false_ne_true
  · exact ⟨rfl, rfl⟩
  · exact absurd (hu.symm.trans good) Bool.false_ne_true

/-- SERIALIZE of a store with an entry that is not usable, to a stream that can be written (R223). -/
theorem exec_serialize_unusable (hw : s.strWritable = true) :
    ∃ t, exec .serialize s = .next t ∧ failedWith .corruptStructure t := by
  have hstart : startSerialize (beginCommand 0x04#8 s) = serializeFailed .corruptStructure s := by
    rw [startSerialize_eq, if_neg (by simp [hd]), if_neg (by simp [hw]), if_pos hu]
  refine ⟨serializeFailed .corruptStructure s, ?_, rfl, rfl⟩
  rw [exec_serialize hst, hstart, runCommand_serializeFailed]

end

/-- Settles O38: the entry after the store is counted and absent, so that no reader finds the store usable. -/
theorem entriesBeyondTheStoreAreAbsent : Obligations.EntriesBeyondTheStoreAreAbsent := by
  intro s hst hv hcap hw
  have hd := noData_eq_false hv (Nat.zero_lt_of_lt hcap)
  have hu := storeUsable_beyond hcap
  exact ⟨fun b hb => entryPresent_beyond hb, exec_size_unusable hst hd hu, exec_decompress_unusable hst hd hu,
    exec_serialize_unusable hst hd hu hw⟩

/-! ### Blocks outside their pass -/

theorem executeBlock_outside {s : State} (hexp : s.phase ≠ .decExp) (hdes : s.phase ≠ .des) (ctrl : Byte)
    (payload bytes : List Byte) : executeBlock ctrl payload bytes s = .refused .blockOutsidePass := by
  unfold executeBlock
  cases hp : s.phase with
  | decExp => exact absurd hp hexp
  | des => exact absurd hp hdes
  | _ => rfl

/-- A header is executed by the stream reader alone, so that the expansion pass refuses one too (log entry 7). -/
theorem execCount_outside {s : State} (hdes : s.phase ≠ .des) (c : Word32) : execCount c s = .refused .blockOutsidePass := by
  unfold execCount
  cases hp : s.phase with
  | des => exact absurd hp hdes
  | _ => rfl

/-- Settles O22: the refusals of `executeBlock` and `execCount`. -/
theorem blocksOutsideTheirPass : Obligations.BlocksOutsideTheirPass := fun _ hexp hdes =>
  ⟨fun _ => executeBlock_outside hexp hdes _ _ _, fun _ _ => executeBlock_outside hexp hdes _ _ _, execCount_outside hdes⟩

end Sys2Proof.Machine
end

section
/-! SUPPORT. Decoding and encoding agree (30_encoding.md R94, R95, R102, R121): the words of the spec, the command codes, and
every well-formed instruction in its own space. -/

namespace Sys2Proof.Machine

/-! ### The command codes -/

theorem decodeCommand_reserved08 : ∀ low : BitVec 3, decodeCommand (0b00001#5 ++ low) = .reserved08 low := by decide
theorem decodeCommand_reserved10 : ∀ low : BitVec 4, decodeCommand (0b0001#4 ++ low) = .reserved10 low := by decide
theorem decodeCommand_reserved20 : ∀ low : BitVec 5, decodeCommand (0b001#3 ++ low) = .reserved20 low := by decide
theorem decodeCommand_reserved40 : ∀ low : BitVec 6, decodeCommand (0b01#2 ++ low) = .reserved40 low := by decide
theorem decodeCommand_reserved80 : ∀ low : BitVec 7, decodeCommand (0b1#1 ++ low) = .reserved80 low := by decide

/-- A command is encoded by one code, and that code decodes to it (R102, R303): the converse of `encode_decodeCommand`. -/
theorem command_code {i : Instr} (h : spaceOf i = .command) : ∃ v : Byte, encode i = [v] ∧ decodeCommand v = i := by
  cases i with
  | lit payload => cases h
  | rep len b => cases h
  | count c => cases h
  | pack kind len => cases h
  | unpack c => cases h
  | reserved08 low => exact ⟨_, rfl, decodeCommand_reserved08 low⟩
  | reserved10 low => exact ⟨_, rfl, decodeCommand_reserved10 low⟩
  | reserved20 low => exact ⟨_, rfl, decodeCommand_reserved20 low⟩
  | reserved40 low => exact ⟨_, rfl, decodeCommand_reserved40 low⟩
  | reserved80 low => exact ⟨_, rfl, decodeCommand_reserved80 low⟩
  | _ => exact ⟨_, rfl, rfl⟩

/-- Settles O5: a byte is the code of the command it decodes to, and a command is the decoding of its code. -/
theorem everyByteIsACommand : Obligations.EveryByteIsACommand :=
  ⟨fun v => ⟨spaceOf_decodeCommand v, encode_decodeCommand v⟩, fun _ h => (command_code h).imp fun _ hv => hv.2⟩

/-! ### Each space reads back what was encoded -/

theorem decode_encode_command {i : Instr} (h : spaceOf i = .command) (rest : List Byte) :
    decode (spaceOf i) (encode i ++ rest) = .ok (i, rest) := by
  obtain ⟨v, henc, hdec⟩ := command_code h
  rw [h, henc, ← hdec]
  rfl

theorem decodeHeader_le32 (c : Word32) (rest : List Byte) : decodeHeader (le32 c ++ rest) = .ok (.count c, rest) := by
  obtain ⟨b0, b1, b2, b3, hbytes, hvalue⟩ := le32_bytes c
  rw [hbytes, ← hvalue]
  rfl

theorem decode_packPort {len : Byte} (h : lengthOk len.toNat = true) (kind : Kind) (rest : List Byte) :
    decode .packPort (packLen kind len.toNat :: rest) = .ok (.pack kind len, rest) := by
  rw [decode, kindOf_packLen kind h, lenOf_packLen kind h, BitVec.ofNat_toNat, BitVec.setWidth_eq]

/-- Settles O4: each space reads back its own encoding, the commands through their codes. -/
theorem decodeEncodeRoundTrip : Obligations.DecodeEncodeRoundTrip := by
  intro i rest hwf
  cases i with
  | lit payload => exact decodeBlock_lit hwf rest
  | rep len b => exact decodeBlock_rep hwf b rest
  | count c => exact decodeHeader_le32 c rest
  | pack kind len => exact decode_packPort hwf kind rest
  | unpack c => rfl
  | _ => exact decode_encode_command rfl rest

/-- Settles O3: the decoder evaluated on each word. -/
theorem specWordsDecode : Obligations.SpecWordsDecode :=
  ⟨rfl, rfl, rfl, rfl, rfl, rfl, rfl, rfl, rfl, rfl, rfl, rfl⟩

end Sys2Proof.Machine
end

section
/-! SUPPORT. The header COUNT executed by the stream reader (44_stream.md R233, R234, R238; 60_exceptions.md R291). -/

namespace Sys2Proof.Machine

theorem exec_count_reader {s : State} (h : s.phase = .des) (c : Word32) : exec (.count c) s = .next (acceptCount c s) := by
  simp only [exec, execCount, h]

theorem acceptCount_accepted {c : Word32} {s : State} (hpos : 0 < c.toInt) (hcap : c.toNat ≤ s.cfg.blkCap) :
    acceptCount c s = { s with sCnt := c, sP := 4 } := by
  rw [acceptCount, if_neg (by omega), if_neg (by omega)]

/-- A count that is not positive is reported as malformed, whatever the capacity (R233, R234). -/
theorem acceptCount_rejected {c : Word32} {s : State} (h : c.toInt ≤ 0 ∨ s.cfg.blkCap < c.toNat) :
    acceptCount c s =
      raise (if c.toInt ≤ 0 then .malformedCount else .allocationFailure) { s with sCnt := c, sP := 4 } := by
  by_cases hneg : c.toInt ≤ 0
  · rw [acceptCount, if_pos hneg, if_pos hneg]
  · rw [acceptCount, if_neg hneg, if_neg hneg, if_pos (h.resolve_left hneg)]

/-- DESERIALIZE fails by releasing the store (R291). -/
theorem raise_deserialize {u : State} (h : u.cmd = 0x05#8) (k : ErrKind) : raise k u = setFail k (releaseStore u) := by
  rw [raise, cleanUp, if_pos (.inr h)]

/-- Settles O21: the reader's two answers to a header, the failure with the store released. -/
theorem countInTheReader : Obligations.CountInTheReader := by
  intro c s hphase
  rw [exec_count_reader hphase]
  refine ⟨fun hpos hcap => by rw [acceptCount_accepted hpos hcap], fun hbad hcmd => ⟨_, rfl, ?_⟩⟩
  rw [acceptCount_rejected hbad, raise_deserialize (u := { s with sCnt := c, sP := 4 }) hcmd]
  exact ⟨⟨rfl, rfl⟩, fun b => entryPresent_forget (m := s.blkMem) rfl b, rfl⟩

end Sys2Proof.Machine
end

section
/-! SUPPORT. The control byte and the two ports that pack and unpack it (40_control_byte.md R120 to R127). -/

namespace Sys2Proof.Machine

/-- Settles O6: both directions are laws of the control byte. -/
theorem packUnpackInverse : Obligations.PackUnpackInverse := by
  refine ⟨fun k len hpos hle => ?_, packLen_unpack⟩
  have hlen : lengthOk len = true := lengthOk_iff.2 ⟨hpos, hle⟩
  exact ⟨kindOf_packLen k hlen, lenOf_packLen k hlen⟩

theorem need_eq_ite (c : Byte) : need c = if kindOf c = .rep then 1 else lenOf c := by
  cases h : kindOf c with
  | lit => exact need_lit h
  | rep => exact need_rep h

/-- Settles O7: a Repeat carries one byte, a Literal its length; the control byte itself is one more. -/
theorem needAndSsize : Obligations.NeedAndSsize := fun c =>
  have hpos := need_pos c
  have hle := need_le c
  ⟨need_eq_ite c, rfl, hpos, hle, by rw [ssize]; omega, by rw [ssize]; omega⟩

/-! ### The ports -/

theorem exec_pack (k : Kind) (len : Byte) (s : State) :
    exec (.pack k len) s = .next { s with pkKind := k, pkLen := len } := rfl

theorem exec_unpack (c : Byte) (s : State) : exec (.unpack c) s = .next { s with upCtrl := c } := rfl

theorem packLen_outside (k : Kind) {len : Nat} (h : len = 0 ∨ 128 < len) : packLen k len = Config.packOutside k len := by
  have hlen : ¬ lengthOk len = true := fun hok => by
    obtain ⟨hpos, hle⟩ := lengthOk_iff.1 hok
    omega
  exact if_neg hlen

/-- `UP_LEN` is wide enough for every length. -/
theorem toNat_upLen (s : State) : (upLen s).toNat = lenOf s.upCtrl := by
  have hle := lenOf_le s.upCtrl
  rw [upLen, BitVec.toNat_ofNat, Nat.mod_eq_of_lt (by omega)]

/-- Settles O10: the step sets the inputs, and in the domain the output is the formula without overflow. -/
theorem packCompletes : Obligations.PackCompletes := fun k len s hpos hle =>
  ⟨exec_pack k len s, toNat_packLen k (lengthOk_iff.2 ⟨hpos, hle⟩)⟩

/-- Settles O11: the step sets the inputs, and outside the domain the output is the free value at them. -/
theorem packOutsideTheDomainIsFree : Obligations.PackOutsideTheDomainIsFree := fun k len s hout =>
  ⟨exec_pack k len s, packLen_outside k hout⟩

/-- Settles O12: the step sets the input, and the outputs are the two fields of the byte. -/
theorem unpackCompletes : Obligations.UnpackCompletes := fun c s =>
  ⟨exec_unpack c s, rfl, toNat_upLen { s with upCtrl := c }⟩

end Sys2Proof.Machine
end

section
/-! SUPPORT. The blocks of the normative sequence (41_encoder.md R142, R143, R147, R148): the spans are the largest ones, the blocks
cover the input, and what one block says about the next. -/

namespace Sys2Proof.Machine

/-! ### The spans are the largest -/

theorem le_litSpan_iff {cap m : Nat} {bytes : List Byte} : m ≤ litSpan cap bytes ↔
    m ≤ cap ∧ ∀ t < m, ∃ x y, bytes[t]? = some x ∧ bytes[t + 1]? = some y ∧ x ≠ y := by
  refine ⟨fun h => ⟨h.trans (litSpan_le_cap cap bytes), fun t ht => litSpan_differs cap bytes (ht.trans_le h)⟩,
    fun ⟨hcap, hd⟩ => ?_⟩
  by_contra hlt
  obtain ⟨x, y, hx, hy, hxy⟩ := hd _ (Nat.lt_of_not_le hlt)
  exact hxy (litSpan_stops cap (by omega) hx hy)

theorem le_repSpan_iff {cap r : Nat} {x : Byte} {bytes : List Byte} : r ≤ repSpan cap x bytes ↔
    r ≤ cap ∧ ∀ t < r, bytes[t]? = some x := by
  refine ⟨fun h => ⟨h.trans (repSpan_le_cap cap x bytes), fun t ht => repSpan_same cap x bytes (ht.trans_le h)⟩,
    fun ⟨hcap, hs⟩ => ?_⟩
  by_contra hlt
  exact repSpan_stops cap x bytes (by omega) (hs _ (Nat.lt_of_not_le hlt))

/-- Settles O24: a number up to the cap that passed the span would pass what stops it. -/
theorem spansAreLargest : Obligations.SpansAreLargest :=
  ⟨fun _ _ _ => le_litSpan_iff, fun _ _ _ _ => le_repSpan_iff⟩

/-! ### The block at the head -/

theorem headBlock_of_litSpan_pos {litMax : Nat} {x : Byte} {rest : List Byte} (h : 0 < litSpan litMax (x :: rest)) :
    headBlock litMax x rest = .lit ((x :: rest).take (litSpan litMax (x :: rest))) := if_pos h

theorem headBlock_of_litSpan_zero {litMax : Nat} {x : Byte} {rest : List Byte} (h : litSpan litMax (x :: rest) = 0) :
    headBlock litMax x rest = .rep (repSpan Config.repMax x (x :: rest)) x := if_neg (by omega)

/-- A Literal at the head is the literal span of the input. -/
theorem headBlock_of_kind_lit {litMax : Nat} {x : Byte} {rest : List Byte} (h : (headBlock litMax x rest).kind = .lit) :
    (headBlock litMax x rest).len = litSpan litMax (x :: rest) ∧
      (headBlock litMax x rest).payload = (x :: rest).take (litSpan litMax (x :: rest)) := by
  have hlt := litSpan_lt_length litMax (bytes := x :: rest) (by simp)
  rcases Nat.eq_zero_or_pos (litSpan litMax (x :: rest)) with hz | hpos
  · rw [headBlock_of_litSpan_zero hz] at h
    cases h
  · have hlen : (Block.lit ((x :: rest).take (litSpan litMax (x :: rest)))).len = litSpan litMax (x :: rest) :=
      List.length_take_of_le hlt.le
    rw [headBlock_of_litSpan_pos hpos]
    exact ⟨hlen, rfl⟩

/-- A Repeat at the head is the repeat span of the input, whose literal span is empty. -/
theorem headBlock_of_kind_rep {litMax : Nat} {x : Byte} {rest : List Byte} (h : (headBlock litMax x rest).kind = .rep) :
    litSpan litMax (x :: rest) = 0 ∧ (headBlock litMax x rest).len = repSpan Config.repMax x (x :: rest) := by
  rcases Nat.eq_zero_or_pos (litSpan litMax (x :: rest)) with hz | hpos
  · exact ⟨hz, by rw [headBlock_of_litSpan_zero hz]; rfl⟩
  · rw [headBlock_of_litSpan_pos hpos] at h
    cases h

/-- The expansion of the block at the head begins with the first byte. -/
theorem headBlock_expand_head? (litMax : Nat) (x : Byte) (rest : List Byte) :
    (headBlock litMax x rest).expand.head? = some x := by
  have hpos := headBlock_len_pos litMax x rest
  rw [headBlock_expand, List.head?_take, if_neg (by omega), List.head?_cons]

/-- Where the input before a block ends, a block of the sequence is the one the loop emits there, and the others follow from its
end on. -/
theorem encodeBytes_eq_append_cons {litMax : Nat} {bytes : List Byte} {front back : List Block} {k : Block}
    (h : encodeBytes litMax bytes = front ++ k :: back) :
    ∃ x rest, k = headBlock litMax x rest ∧ back = encodeBytes litMax ((x :: rest).drop k.len) := by
  induction front generalizing bytes with
  | nil =>
    cases bytes with
    | nil => cases h
    | cons x rest =>
      rw [encodeBytes_cons] at h
      obtain ⟨rfl, rfl⟩ := List.cons.inj h
      exact ⟨x, rest, rfl, rfl⟩
  | cons j front ih =>
    cases bytes with
    | nil => cases h
    | cons x rest =>
      rw [encodeBytes_cons] at h
      exact ih (List.cons.inj h).2

theorem exists_headBlock_of_mem {litMax : Nat} {bytes : List Byte} {k : Block} (h : k ∈ encodeBytes litMax bytes) :
    ∃ x rest, k = headBlock litMax x rest := by
  obtain ⟨front, back, hsplit⟩ := List.append_of_mem h
  obtain ⟨x, rest, hk, -⟩ := encodeBytes_eq_append_cons hsplit
  exact ⟨x, rest, hk⟩

theorem encodeBytes_eq_nil_iff {litMax : Nat} {bytes : List Byte} : encodeBytes litMax bytes = [] ↔ bytes = [] := by
  cases bytes with
  | nil => simp
  | cons x rest => simp [encodeBytes_cons]

/-! ### The blocks cover the input -/

theorem decodeBlocks_encodeBytes (litMax : Nat) (bytes : List Byte) : decodeBlocks (encodeBytes litMax bytes) = bytes := by
  induction bytes using encodeBytes_induction litMax with
  | nil => rfl
  | cons x rest ih => rw [encodeBytes_cons, decodeBlocks, ih, headBlock_expand, List.take_append_drop]

theorem length_encodeBytes_le (litMax : Nat) (bytes : List Byte) : (encodeBytes litMax bytes).length ≤ bytes.length := by
  induction bytes using encodeBytes_induction litMax with
  | nil => simp
  | cons x rest ih =>
    have hpos := headBlock_len_pos litMax x rest
    simp only [encodeBytes_cons, List.length_cons, List.length_drop] at ih ⊢
    omega

/-- One byte has no successor, so it is one Repeat (R147). -/
theorem encodeBytes_singleton (litMax : Nat) (x : Byte) : encodeBytes litMax [x] = [.rep 1 x] := by
  have hlit : litSpan litMax [x] = 0 := Nat.lt_one_iff.1 (litSpan_lt_length litMax (bytes := [x]) (by simp))
  have hrep : repSpan Config.repMax x [x] = 1 := Nat.le_antisymm (repSpan_le_length _ x [x]) (repSpan_pos 127 x [])
  rw [encodeBytes_cons, headBlock_of_litSpan_zero hlit, hrep]
  rfl

/-- Settles O25: inductions along the loop of R143, whose every iteration takes a prefix of 1 to 128 bytes. -/
theorem blocksCoverTheInput : Obligations.BlocksCoverTheInput := by
  intro litMax bytes hlm
  refine ⟨decodeBlocks_encodeBytes litMax bytes, ?_, fun k hk => ?_, fun hne => ?_, length_encodeBytes_le litMax bytes,
    encodeBytes_singleton litMax⟩
  · rw [← length_decodeBlocks, decodeBlocks_encodeBytes]
  · obtain ⟨x, rest, rfl⟩ := exists_headBlock_of_mem hk
    exact lengthOk_iff.1 (headBlock_lengthOk (by omega) x rest)
  · exact List.length_pos_iff.2 (mt encodeBytes_eq_nil_iff.1 hne)

/-! ### The canonical form -/

/-- The byte after the block at the head. -/
theorem headBlock_next_byte {litMax : Nat} {x y : Byte} {rest tail : List Byte}
    (hrest : (x :: rest).drop (headBlock litMax x rest).len = y :: tail) :
    (x :: rest)[(headBlock litMax x rest).len]? = some y := by
  rw [← List.head?_drop, hrest, List.head?_cons]

/-- A Literal does not end with the byte after it (R148 item 2). -/
theorem headBlock_lit_last_ne {litMax : Nat} {x y : Byte} {rest tail : List Byte} (h : (headBlock litMax x rest).kind = .lit)
    (hrest : (x :: rest).drop (headBlock litMax x rest).len = y :: tail) :
    (headBlock litMax x rest).payload.getLast? ≠ some y := by
  have hpos := headBlock_len_pos litMax x rest
  obtain ⟨hlen, hpay⟩ := headBlock_of_kind_lit h
  obtain ⟨a, b, ha, hb, hab⟩ := litSpan_differs litMax (x :: rest) (k := (headBlock litMax x rest).len - 1) (by omega)
  rw [Nat.sub_add_cancel hpos, headBlock_next_byte hrest] at hb
  rw [hpay, ← hlen, List.getLast?_take, if_neg (by omega), ha]
  simpa [← Option.some.inj hb] using hab

/-- A Repeat below 128 does not repeat the byte after it (R148 item 5). -/
theorem headBlock_rep_next_ne {litMax : Nat} {x y : Byte} {rest tail : List Byte} (h : (headBlock litMax x rest).kind = .rep)
    (hlt : (headBlock litMax x rest).len < 128)
    (hrest : (x :: rest).drop (headBlock litMax x rest).len = y :: tail) : x ≠ y := by
  obtain ⟨-, hlen⟩ := headBlock_of_kind_rep h
  have hstop := repSpan_stops Config.repMax x (x :: rest) (hlen ▸ hlt)
  rw [← hlen, headBlock_next_byte hrest] at hstop
  exact fun hxy => hstop (congrArg some hxy.symm)

/-- A Repeat that the rest of the input follows has length at least 2: the empty literal span is an equal pair (R148 item 4). -/
theorem two_le_len_of_headBlock_rep {litMax : Nat} (hlm : 0 < litMax) {x y : Byte} {rest tail : List Byte}
    (h : (headBlock litMax x rest).kind = .rep) (hrest : (x :: rest).drop (headBlock litMax x rest).len = y :: tail) :
    2 ≤ (headBlock litMax x rest).len := by
  obtain ⟨hlit, -⟩ := headBlock_of_kind_rep h
  have hpos := headBlock_len_pos litMax x rest
  by_contra hlt
  obtain rfl : rest = y :: tail := by simpa [show (headBlock litMax x rest).len = 1 by omega] using hrest
  have hxy : x = y := litSpan_stops litMax (bytes := x :: y :: tail) (by omega) (by simp [hlit]) (by simp [hlit])
  exact headBlock_rep_next_ne h (by omega) hrest hxy

/-- After a Literal below `LIT_MAX` stands an equal pair or the last byte, so a Repeat follows (R148 item 3). -/
theorem headBlock_rep_of_short_lit {litMax : Nat} {x y : Byte} {rest tail : List Byte}
    (h : (headBlock litMax x rest).kind = .lit) (hlt : (headBlock litMax x rest).len < litMax)
    (hrest : (x :: rest).drop (headBlock litMax x rest).len = y :: tail) : (headBlock litMax y tail).kind = .rep := by
  obtain ⟨hlen, -⟩ := headBlock_of_kind_lit h
  suffices hz : litSpan litMax (y :: tail) = 0 by rw [headBlock_of_litSpan_zero hz]; rfl
  by_contra hne
  obtain ⟨a, b, ha, hb, hab⟩ := litSpan_differs litMax (y :: tail) (Nat.pos_of_ne_zero hne)
  rw [← hrest, List.getElem?_drop, hlen] at ha hb
  exact hab (litSpan_stops litMax (hlen ▸ hlt) ha hb)

/-- The block at the head that ends with the input is a Repeat: no literal span contains the last byte (R148 item 1). -/
theorem headBlock_rep_of_last {litMax : Nat} {x : Byte} {rest : List Byte}
    (h : (x :: rest).drop (headBlock litMax x rest).len = []) : (headBlock litMax x rest).kind = .rep := by
  cases hk : (headBlock litMax x rest).kind with
  | rep => rfl
  | lit =>
    have hlt := litSpan_lt_length litMax (bytes := x :: rest) (by simp)
    have hle := List.drop_eq_nil_iff.1 h
    obtain ⟨hlen, -⟩ := headBlock_of_kind_lit hk
    omega

/-- Adjacent bytes of a literal span differ. -/
theorem isChain_take_litSpan (cap : Nat) (bytes : List Byte) : (bytes.take (litSpan cap bytes)).IsChain (· ≠ ·) := by
  rw [List.isChain_iff_getElem]
  intro t ht
  rw [List.length_take] at ht
  obtain ⟨x, y, hx, hy, hxy⟩ := litSpan_differs cap bytes (k := t) (by omega)
  obtain ⟨_, rfl⟩ := List.getElem?_eq_some_iff.1 hx
  obtain ⟨_, rfl⟩ := List.getElem?_eq_some_iff.1 hy
  simpa using hxy

/-- Settles O26: a block of the sequence is the one the loop emits on the input from there on, and so is the next one. -/
theorem canonicalForm : Obligations.CanonicalForm := by
  intro litMax bytes hlm
  refine ⟨fun k hk => ?_, fun k hk hkind => ?_, fun front back j k hsplit => ?_⟩
  · obtain ⟨front, hsplit⟩ := List.getLast?_eq_some_iff.1 hk
    obtain ⟨x, rest, rfl, hnil⟩ := encodeBytes_eq_append_cons hsplit
    exact headBlock_rep_of_last (encodeBytes_eq_nil_iff.1 hnil.symm)
  · obtain ⟨x, rest, rfl⟩ := exists_headBlock_of_mem hk
    obtain ⟨-, hpay⟩ := headBlock_of_kind_lit hkind
    exact hpay ▸ isChain_take_litSpan litMax (x :: rest)
  · obtain ⟨x, rest, rfl, hback⟩ := encodeBytes_eq_append_cons hsplit
    obtain ⟨y, tail, hrest⟩ : ∃ y tail, (x :: rest).drop (headBlock litMax x rest).len = y :: tail :=
      List.exists_cons_of_ne_nil fun hnil => by simp [hnil] at hback
    rw [hrest, encodeBytes_cons] at hback
    obtain ⟨rfl, -⟩ := List.cons.inj hback
    rw [headBlock_expand_head?, headBlock_expand_head?]
    exact ⟨fun hj => headBlock_lit_last_ne hj hrest, fun hj hlt => headBlock_rep_of_short_lit hj hlt hrest,
      fun hj => two_le_len_of_headBlock_rep (by omega) hj hrest,
      fun hj hlt => headBlock_rep_next_ne hj hlt hrest ∘ Option.some.inj⟩

end Sys2Proof.Machine
end

section
/-! SUPPORT. COMPRESS as the host sees it (41_encoder.md R140, R141, R144, R160): its two answers to a good input, its answer to
a bad one, and that it writes nothing else. -/

namespace Sys2Proof.Machine

/-- The input checks of R141, in the words of the rule. -/
theorem inputBad_iff {s : State} : inputBad s = true ↔
    s.inPresent = false ∨ s.n.toNat = 0 ∨ min s.cfg.nMax s.cfg.inCap < s.n.toNat := by
  have hn : s.n = 0#32 ↔ s.n.toNat = 0 := ⟨fun h => by rw [h]; rfl, fun h => BitVec.eq_of_toNat_eq h⟩
  simp only [inputBad, Bool.or_eq_true, Bool.not_eq_true', decide_eq_true_eq, hn, or_assoc]

/-- A state that agrees with `s` outside what COMPRESS writes is in its frame, once it is idle with the code in `CMD`. -/
theorem compressFrame_of_mask {s t : State} (h : maskCompress t = maskCompress s) (hcmd : t.cmd = 0x01#8)
    (hphase : t.phase = .idle) : CompressFrame s t := by
  cases s
  cases t
  simp_all [CompressFrame, maskCompress]

/-- A failed COMPRESS, whatever the kind, leaves an empty store (R157, R291). -/
theorem raise_compress_empty {u : State} (h : u.cmd = 0x01#8) (k : ErrKind) :
    failedWith k (raise k u) ∧ (raise k u).cdValid = false ∧ (raise k u).nblk = 0#32 ∧ storeEmpty (raise k u) := by
  obtain ⟨hv, hn, -, he⟩ := raise_released (.inl h) k
  exact ⟨⟨rfl, rfl⟩, hv, hn, he⟩

theorem Compressing.cmd {s t : State} (h : Compressing s t) : t.cmd = 0x01#8 := by
  rcases h.scan with ⟨_, hs⟩ | ⟨_, hs⟩ <;> exact hs.running.1

theorem CompressEnded.cfg {s t : State} (h : CompressEnded s t) : t.cfg = s.cfg := (congrArg State.cfg h.mask :)

theorem CompressEnded.frame {s t : State} (h : CompressEnded s t) : CompressFrame s t := by
  rcases h.result with ⟨hc, -⟩ | ⟨-, u, hu, rfl⟩
  · exact compressFrame_of_mask h.mask hc.cmd hc.phase
  · exact compressFrame_of_mask h.mask ((raise_cmd _ u).trans hu.cmd) rfl

/-- The sequence that the store holds is the one of the state before the command. -/
theorem CompressEnded.blocks {s t : State} (h : CompressEnded s t) (hc : Compressed t) :
    storedBlocks t = encodeBytes s.cfg.litMax (input s) := by
  rw [hc.blocks, h.cfg, input_of_mask h.mask]

theorem CompressEnded.compressed {s t : State} (h : CompressEnded s t)
    (hfits : (encodeBytes s.cfg.litMax (input s)).length ≤ s.cfg.blkCap) : Compressed t := by
  rcases h.result with ⟨hc, -⟩ | ⟨hsmall, -⟩
  · exact hc
  · omega

theorem CompressEnded.failed {s t : State} (h : CompressEnded s t)
    (hsmall : s.cfg.blkCap < (encodeBytes s.cfg.litMax (input s)).length) :
    failedWith .allocationFailure t ∧ t.cdValid = false ∧ t.nblk = 0#32 ∧ storeEmpty t := by
  rcases h.result with ⟨hc, -⟩ | ⟨-, u, hu, rfl⟩
  · have hfits := hc.fits
    rw [h.cfg, input_of_mask h.mask] at hfits
    omega
  · exact raise_compress_empty hu.cmd _

/-- Settles O32: the command fails its checks at once, or its run ends in one of the two ways that the room decides. -/
theorem compressResult : Obligations.CompressResult := by
  intro s hst hlegal
  cases hbad : inputBad s with
  | true =>
    have notGood : s.inPresent = true → s.n.toNat ≠ 0 → ¬ s.n.toNat ≤ min s.cfg.nMax s.cfg.inCap := fun hp hn hle =>
      absurd (inputBad_iff.1 hbad) (by simp [hp, hn, Nat.not_lt.2 hle])
    exact ⟨_, exec_compress_bad hst hbad, compressFrame_of_mask (maskCompress_raise _ rfl _) (raise_cmd _ _) rfl,
      fun hp hn hle => absurd hle (notGood hp hn), fun hp hn hle => absurd hle (notGood hp hn),
      fun _ => raise_compress_empty rfl _⟩
  | false =>
    obtain ⟨t, ht, hend⟩ := exec_compress_good hst hlegal hbad
    refine ⟨t, ht, hend.frame, fun _ _ _ hfits => ?_, fun _ _ _ hsmall => hend.failed hsmall,
      fun h => absurd (inputBad_iff.2 h) (by simp [hbad])⟩
    have hc := hend.compressed hfits
    have hblocks := hend.blocks hc
    exact ⟨⟨hc.st, hc.err⟩, hc.cdValid, by rw [← hblocks, storedBlocks, length_blocksFrom], hblocks, hc.wellFormed, hc.rest⟩

/-- Settles O33: the run from the start rule is the one whose every transition makes one step of progress. -/
theorem compressTransitionCount : Obligations.CompressTransitionCount := by
  intro s hlegal hgood hfits
  obtain ⟨t, hrun, hend, hc⟩ := compress_ends_exactly hlegal hgood hfits
  rw [startCompress_ok hgood, hrun.reaches]
  exact ⟨hrun.busyBefore, hc.st, hend.blocks hc⟩

end Sys2Proof.Machine
end

section
/-! SUPPORT. SIZE as the host sees it (42_size.md R180, R182, R183): what bounds a serialized size, and the three answers of the
command. -/

namespace Sys2Proof.Machine

/-! ### Serialized sizes -/

theorem need_le_lenOf (c : Byte) : need c ≤ lenOf c := by
  cases h : kindOf c with
  | lit => exact (need_lit h).le
  | rep => exact (need_rep h).trans_le (lenOf_pos c)

theorem two_le_ssize (c : Byte) : 2 ≤ ssize c := by
  have := need_pos c
  rw [ssize]; omega

/-- A block of length `l` costs at most `1 + l ≤ 2 * l` bytes (R183). -/
theorem ssize_ctrl_le {k : Block} (hk : lengthOk k.len = true) : ssize k.ctrl ≤ 2 * k.len := by
  have hneed : need k.ctrl ≤ k.len := (need_le_lenOf k.ctrl).trans_eq (lenOf_packLen k.kind hk)
  have hpos := (lengthOk_iff.1 hk).1
  rw [ssize]; omega

theorem two_le_totalSize {ks : List Block} (h : 0 < ks.length) : 2 ≤ totalSize ks := by
  cases ks with
  | nil => cases h
  | cons k ks => exact (two_le_ssize k.ctrl).trans (Nat.le_add_right _ _)

theorem totalSize_le {ks : List Block} (h : ∀ k ∈ ks, lengthOk k.len = true) : totalSize ks ≤ 2 * totalLen ks := by
  induction ks with
  | nil => exact Nat.le_refl 0
  | cons k ks ih =>
    have hk := ssize_ctrl_le (h k List.mem_cons_self)
    have hks := ih fun j hj => h j (List.mem_cons_of_mem k hj)
    rw [totalSize, totalLen]; omega

/-- Settles O31: the blocks cover the input, each costs at least 2 bytes and at most twice its length. -/
theorem sizeOfEncoding : Obligations.SizeOfEncoding := by
  intro litMax bytes hlm hne
  obtain ⟨-, hlen, hbounds, hsome, -, -⟩ := blocksCoverTheInput litMax bytes hlm
  refine ⟨two_le_totalSize (hsome hne), ?_⟩
  rw [← hlen]
  exact totalSize_le fun k hk => lengthOk_iff.2 (hbounds k hk)

/-! ### The command -/

/-- No data, in the words of the rule (R35, R182). -/
theorem noData_iff {s : State} : noData s = true ↔ s.cdValid = false ∨ s.nblk.toNat = 0 := by
  simp only [noData, Bool.or_eq_true, Bool.not_eq_true', decide_eq_true_eq, ← BitVec.toNat_inj, BitVec.toNat_ofNat, Nat.zero_mod]

/-- `ACC_W` bits hold the size of any store (R183). -/
theorem totalSize_storedBlocks_lt (s : State) : totalSize (storedBlocks s) < 2 ^ 64 := by
  have hle := totalSize_blocksFrom_le s 0 s.nblk.toNat
  have hn := s.nblk.isLt
  rw [storedBlocks]; omega

theorem toNat_size_sizeDone (s : State) : (sizeDone s).size.toNat = totalSize (storedBlocks s) :=
  Nat.mod_eq_of_lt (totalSize_storedBlocks_lt s)

theorem SizeEnded.frame {s t : State} (h : SizeEnded s t) : SizeFrame s t := by
  cases h with
  | done good result => rw [result]; rfl
  | corrupt bad failed => rw [failed]; rfl

/-- Settles O37: without data the command fails at once; with data its run ends in one of the two ways that the entries decide. -/
theorem sizeResult : Obligations.SizeResult := by
  intro s hst
  cases hd : noData s with
  | true =>
    have noBlocks : s.cdValid = true → ¬ s.nblk.toNat ≠ 0 := fun hv hn => (noData_iff.1 hd).elim (by simp [hv]) hn
    exact ⟨_, exec_size_noData hst hd, rfl, fun hv hn => absurd hn (noBlocks hv), fun hv hn => absurd hn (noBlocks hv),
      fun _ => ⟨⟨rfl, rfl⟩, rfl⟩⟩
  | false =>
    have hblocks : 0 < (storedBlocks s).length := by rw [storedBlocks, length_blocksFrom]; exact nblk_ne_zero hd
    have hdata : ¬ (s.cdValid = false ∨ s.nblk.toNat = 0) := mt noData_iff.2 (by simp [hd])
    obtain ⟨t, ht, hend⟩ := exec_size_data hst hd
    refine ⟨t, ht, hend.frame, fun _ _ hu => ?_, fun _ _ hu => ?_, fun h => absurd h hdata⟩
    · cases hend with
      | done good result =>
        rw [result, toNat_size_sizeDone]
        exact ⟨⟨rfl, rfl⟩, rfl, two_le_totalSize hblocks⟩
      | corrupt bad failed => exact absurd (hu.symm.trans bad) (by decide)
    · cases hend with
      | done good result => exact absurd (hu.symm.trans good) (by decide)
      | corrupt bad failed => rw [failed]; exact ⟨⟨rfl, rfl⟩, rfl⟩

end Sys2Proof.Machine
end

section
/-! SUPPORT. DECOMPRESS as the host sees it (43_decoder.md R190, R194, R207), and the blocks that its expansion pass executes (R191,
R203, R204). -/

namespace Sys2Proof.Machine

/-! ### The expansion of an entry -/

theorem expand_entryBlock_lit {s : State} {b : Nat} (h : kindOf (entryCtrl s b) = .lit) :
    (entryBlock s b).expand = entryPay s b (lenOf (entryCtrl s b)) := by
  simp only [entryBlock, h, Block.expand, entryPayload, entryNeed, need_lit h]

theorem expand_entryBlock_rep {s : State} {b : Nat} (h : kindOf (entryCtrl s b) = .rep) :
    (entryBlock s b).expand =
      List.replicate (lenOf (entryCtrl s b)) (s.blkMem.read .blk (fieldAddr b (.pay 0))) := by
  simp only [entryBlock, h, Block.expand]
  rfl

/-- Settles O19: one equation for each kind, and the length of any expansion. -/
theorem expansionOfAnEntry : Obligations.ExpansionOfAnEntry := by
  intro s b
  rw [expand_length, entryBlock_len]
  exact ⟨expand_entryBlock_lit, expand_entryBlock_rep, rfl, lenOf_pos _, lenOf_le _⟩

/-! ### A block executed in the expansion pass -/

theorem exec_block_expansion {s : State} (hp : s.phase = .decExp) (k : Block) :
    exec k.instr s = .next (expandBlock k.expand s) := by
  cases k with
  | lit payload => simp only [Block.instr, exec, execLit, executeBlock, hp, Block.expand]
  | rep len b => simp only [Block.instr, exec, execRep, executeBlock, hp, Block.expand]

@[simp] theorem endBlock_outMem (s : State) : (endBlock s).outMem = s.outMem := by
  unfold endBlock; split <;> rfl

theorem expandBlock_outMem (bytes : List Byte) (s : State) :
    (expandBlock bytes s).outMem = s.outMem.writeBytes .out s.dO (bytes.drop s.dK) := endBlock_outMem _

/-- A block that is executed moves the position registers past it, and ends the command after the last one (R203, R204). -/
theorem expandBlock_eq (bytes : List Byte) (s : State) :
    expandBlock bytes s = if s.dB + 1 = s.nblk.toNat then
        { s with
          outMem := (expandBlock bytes s).outMem, dO := s.dO + (bytes.length - s.dK), dK := 0, dB := s.dB + 1
          phase := .idle, st := .done, err := .none, outValid := true, outLen := BitVec.ofNat 64 s.dTotal }
      else
        { s with outMem := (expandBlock bytes s).outMem, dO := s.dO + (bytes.length - s.dK), dK := 0, dB := s.dB + 1 } := by
  rw [expandBlock_outMem, ← List.length_drop]
  rfl

/-- Settles O18: the block's bytes are one run of writes at `D_O`, and the end of a block decides what is next. -/
theorem blocksExpandInTheDecoder : Obligations.BlocksExpandInTheDecoder := by
  intro k s _ _ hp hwf _
  have hlen : (k.expand.drop s.dK).length = k.len - s.dK := by rw [List.length_drop, expand_length]
  refine ⟨_, exec_block_expansion hp k, ?_, fun a ha => ?_, ?_⟩
  · rw [outBytes, expandBlock_outMem, ← hlen, readBytes_writeBytes hwf]
  · rw [outByte, expandBlock_outMem, read_writeBytes_outside _ hwf _ _ (by rwa [hlen])]
    rfl
  · rw [← expand_length]
    exact expandBlock_eq k.expand s

/-! ### The command -/

theorem nblk_eq_zero_of_noData {s : State} (h : noData s = true) (hv : s.cdValid = true) : s.nblk.toNat = 0 :=
  (noData_iff.1 h).resolve_left (by simp [hv])

/-- A state that agrees with `s` outside what DECOMPRESS writes is in its frame, once it is idle with the code in `CMD`. -/
theorem decompressFrame_of_mask {s t : State} (h : maskDecompress t = maskDecompress s) (hcmd : t.cmd = 0x02#8)
    (hphase : t.phase = .idle) : DecompressFrame s t := by
  cases s
  cases t
  simp_all [DecompressFrame, maskDecompress]

/-- A failed DECOMPRESS, whatever the kind, leaves no output (R194, R291). -/
theorem raise_decompress_noOutput {u : State} (h : u.cmd = 0x02#8) (k : ErrKind) :
    failedWith k (raise k u) ∧ (raise k u).outValid = false ∧ (raise k u).outLen = 0#64 := by
  have hclean : raise k u = setFail k (forgetOut (releaseOutput u)) := by simp [raise, cleanUp, h]
  rw [hclean]
  exact ⟨⟨rfl, rfl⟩, rfl, rfl⟩

/-- `ACC_W` bits hold the length of any output (R193). -/
theorem totalLen_storedBlocks_lt (s : State) : totalLen (storedBlocks s) < 2 ^ 64 := by
  have hle := totalLen_blocksFrom_le s 0 s.nblk.toNat
  have hn := s.nblk.isLt
  rw [storedBlocks]; omega

theorem Decompressed.toNat_outLen {s t : State} (h : Decompressed s t) : t.outLen.toNat = totalLen (storedBlocks s) := by
  rw [h.outLen]
  exact Nat.mod_eq_of_lt (totalLen_storedBlocks_lt s)

theorem Decompressed.output_eq {s t : State} (h : Decompressed s t) : output t = decodeBlocks (storedBlocks s) := by
  rw [output, h.toNat_outLen, h.written]

theorem DecompressEnded.frame {s t : State} (h : DecompressEnded s t) : DecompressFrame s t := by
  rcases h.result with hd | ⟨-, u, hu, rfl⟩ | ⟨-, -, u, hu, rfl⟩
  · exact decompressFrame_of_mask h.mask hd.cmd hd.phase
  · exact decompressFrame_of_mask h.mask ((raise_cmd _ u).trans hu.cmd) rfl
  · exact decompressFrame_of_mask h.mask ((raise_cmd _ u).trans hu.cmd) rfl

theorem DecompressEnded.decompressed {s t : State} (h : DecompressEnded s t) (hu : storeUsable s = true)
    (hfits : totalLen (storedBlocks s) ≤ s.cfg.outCap) : Decompressed s t := by
  rcases h.result with hd | ⟨hbad, -⟩ | ⟨-, hbig, -⟩
  · exact hd
  · exact absurd (hu.symm.trans hbad) (by decide)
  · omega

theorem DecompressEnded.failed_tooLarge {s t : State} (h : DecompressEnded s t) (hu : storeUsable s = true)
    (hbig : s.cfg.outCap < totalLen (storedBlocks s)) :
    failedWith .allocationFailure t ∧ t.outValid = false ∧ t.outLen = 0#64 := by
  rcases h.result with hd | ⟨hbad, -⟩ | ⟨-, -, u, hrun, rfl⟩
  · have := hd.fits
    omega
  · exact absurd (hu.symm.trans hbad) (by decide)
  · exact raise_decompress_noOutput hrun.cmd _

theorem DecompressEnded.failed_unusable {s t : State} (h : DecompressEnded s t) (hbad : storeUsable s = false) :
    failedWith .corruptStructure t ∧ t.outValid = false ∧ t.outLen = 0#64 := by
  rcases h.result with hd | ⟨-, u, hrun, rfl⟩ | ⟨hu, -⟩
  · exact absurd (hd.usable.symm.trans hbad) (by decide)
  · exact raise_decompress_noOutput hrun.cmd _
  · exact absurd (hu.symm.trans hbad) (by decide)

/-- Settles O35: without data the command fails at once; with data its run ends in one of the three ways that the entries and the
room decide. -/
theorem decompressResult : Obligations.DecompressResult := by
  intro s hst
  cases hd : noData s with
  | true =>
    have noBlocks := nblk_eq_zero_of_noData hd
    exact ⟨_, exec_decompress_noData hst hd, decompressFrame_of_mask (maskDecompress_raise rfl _) (raise_cmd _ _) rfl,
      fun hv hn => absurd (noBlocks hv) hn, fun hv hn => absurd (noBlocks hv) hn, fun hv hn => absurd (noBlocks hv) hn,
      fun _ => raise_decompress_noOutput rfl _⟩
  | false =>
    obtain ⟨t, ht, hend⟩ := exec_decompress_data hst hd
    refine ⟨t, ht, hend.frame, fun _ _ hu hfits => ?_, fun _ _ => hend.failed_tooLarge, fun _ _ => hend.failed_unusable,
      fun h => absurd (noData_iff.2 h) (by simp [hd])⟩
    have hc := hend.decompressed hu hfits
    exact ⟨⟨hc.st, hc.err⟩, hc.outValid, hc.toNat_outLen, hc.output_eq⟩

/-- Settles O36: the run from the start rule is the one whose every transition makes one step of progress. -/
theorem decompressTransitionCount : Obligations.DecompressTransitionCount := by
  intro s hd hu hfits
  obtain ⟨t, hrun, -, hc⟩ := decompress_ends_exactly hd hu hfits
  rw [startDecompress_ok hd, hrun.reaches]
  exact ⟨hrun.busyBefore, hc.st⟩

end Sys2Proof.Machine
end

section
/-! SUPPORT. The stream as a format (44_stream.md R221, R231 to R237, R240): the parser and the serializer are inverse to each
other, and the order of the parser's failures. -/

namespace Sys2Proof.Machine

/-! ### Reading back and writing back -/

/-- A number of blocks below `2 ^ 31` is the same number as a block count, unsigned and signed (R95). -/
theorem count_ofNat {n : Nat} (h : n < 2 ^ 31) : (BitVec.ofNat 32 n).toNat = n ∧ (BitVec.ofNat 32 n).toInt = n := by
  have hn : (BitVec.ofNat 32 n).toNat = n := Nat.mod_eq_of_lt (by omega)
  refine ⟨hn, ?_⟩
  rw [BitVec.toInt_eq_toNat_cond, hn, if_pos (by omega)]

/-- A list of as many blocks as the count says is serialized with that count in the header (R221). -/
theorem serializeStream_of_length {ks : List Block} {c : Word32} (h : ks.length = c.toNat) :
    serializeStream ks = le32 c ++ serializeBlocks ks := by
  rw [serializeStream, h, BitVec.ofNat_toNat, BitVec.setWidth_eq]

/-- The parser reads back a stream that the serializer wrote, and leaves the bytes after it (R237, R240). -/
theorem parseStream_serializeStream {cap : Nat} {ks : List Block} (hk : ∀ k ∈ ks, lengthOk k.len = true) (hpos : 1 ≤ ks.length)
    (hfits : ks.length ≤ cap) (hcap : cap ≤ 2 ^ 31 - 1) (rest : List Byte) :
    parseStream cap (serializeStream ks ++ rest) = .ok (ks, rest) := by
  obtain ⟨hnat, hint⟩ := count_ofNat (n := ks.length) (by omega)
  rw [serializeStream, List.append_assoc, parseStream_le32, hnat, hint, if_neg (by omega), if_neg (by omega),
    parseBlocks_serializeBlocks hk]

/-- What the parser accepts is what the serializer writes for the blocks it gives, and the bytes left over (R240). -/
theorem parseStream_ok {cap : Nat} {bytes rest : List Byte} {ks : List Block} (h : parseStream cap bytes = .ok (ks, rest)) :
    bytes = serializeStream ks ++ rest := by
  rcases header_cases bytes with hshort | ⟨c, hbytes, -⟩
  · rw [parseStream_short hshort] at h
    cases h
  · rw [hbytes, parseStream_le32] at h
    split_ifs at h
    obtain ⟨hlen, -, htail⟩ := parseBlocks_ok h
    rw [hbytes, htail, serializeStream_of_length hlen, List.append_assoc]

/-- Settles O8: the header gives back the number of blocks, and the loops over the blocks are inverse to each other. -/
theorem streamRoundTrip : Obligations.StreamRoundTrip :=
  ⟨fun _ _ rest hk hpos hfits hcap =>
    parseStream_serializeStream (fun k hmem => lengthOk_iff.2 (hk k hmem)) hpos hfits hcap rest, fun _ _ _ _ => parseStream_ok⟩

/-! ### The failures -/

/-- Bytes that end at or inside a block hold no whole block (R235, R236). -/
theorem decodeBlock_cut {rest : List Byte} (h : rest = [] ∨ ∃ v tail, rest = v :: tail ∧ tail.length < need v) :
    ∃ e, decodeBlock rest = .error e := by
  rcases h with rfl | ⟨v, tail, rfl, hcut⟩
  · exact ⟨.noByte, rfl⟩
  · exact (decodeBlock_error_iff v tail).2 hcut

/-- The block loop fails when the bytes end before the last block does (R235, R236). -/
theorem parseBlocks_cut {count : Nat} {ks : List Block} {rest : List Byte} (hk : ∀ k ∈ ks, lengthOk k.len = true)
    (hmore : ks.length < count) (hcut : ∃ e, decodeBlock rest = .error e) :
    parseBlocks count (serializeBlocks ks ++ rest) = .error .malformedStream := by
  obtain ⟨missing, rfl⟩ := Nat.exists_eq_add_of_lt hmore
  obtain ⟨e, he⟩ := hcut
  rw [Nat.add_assoc, parseBlocks_add (parseBlocks_serializeBlocks hk rest), parseBlocks_short he]
  rfl

/-- Settles O41: the length of the header, the two bounds of the count, and the block at which the bytes end. -/
theorem parserFailures : Obligations.ParserFailures := by
  intro cap bytes
  refine ⟨parseStream_short, ?notPositive, ?tooMany, ?cut⟩
  case notPositive =>
    rintro c rest rfl hneg
    rw [parseStream_le32, if_pos hneg]
  case tooMany =>
    rintro c rest rfl hpos hcap
    rw [parseStream_le32, if_neg (by omega), if_pos hcap]
  case cut =>
    rintro c ks rest rfl hpos hcap hk hmore hcut
    rw [parseStream_le32, if_neg (by omega), if_neg (by omega)]
    exact parseBlocks_cut (fun k hmem => lengthOk_iff.2 (hk k hmem)) hmore (decodeBlock_cut hcut)

end Sys2Proof.Machine
end

section
/-! SUPPORT. DESERIALIZE as the host sees it (44_stream.md R230 to R239), and the blocks that its reader executes (R235, R238). -/

namespace Sys2Proof.Machine

/-! ### A block executed in the stream reader -/

theorem exec_block_reader {s : State} (hp : s.phase = .des) (k : Block) :
    exec k.instr s = .next (loadBlock k.ctrl k.payload s) := by
  cases k with
  | lit payload => simp only [Block.instr, exec, execLit, executeBlock, hp]; rfl
  | rep len b => simp only [Block.instr, exec, execRep, executeBlock, hp]; rfl

@[simp] theorem loadBlock_cfg (ctrl : Byte) (payload : List Byte) (s : State) : (loadBlock ctrl payload s).cfg = s.cfg := by
  unfold loadBlock; split <;> rfl

@[simp] theorem loadBlock_blkMem (ctrl : Byte) (payload : List Byte) (s : State) :
    (loadBlock ctrl payload s).blkMem = (storeEntry s.sB ctrl payload s).blkMem := by
  unfold loadBlock; split <;> rfl

/-- A block that is loaded moves the position registers past it, and ends the command after the last one (R235, R238). -/
theorem loadBlock_eq (ctrl : Byte) (payload : List Byte) (s : State) :
    loadBlock ctrl payload s = if s.sCnt.toNat ≤ s.sB + 1 then
        { s with
          blkMem := (loadBlock ctrl payload s).blkMem, sP := s.sP + 1 + payload.length, sB := s.sB + 1, phase := .idle
          st := .done, err := .none, nblk := s.sCnt, cdValid := true }
      else
        { s with blkMem := (loadBlock ctrl payload s).blkMem, sP := s.sP + 1 + payload.length, sB := s.sB + 1 } := by
  rw [loadBlock_blkMem]
  rfl

/-- Settles O20: loading is storing the entry `S_B`, and the count decides what is next. -/
theorem blocksLoadInTheReader : Obligations.BlocksLoadInTheReader := by
  intro k s hpos hle hp hwf hcap
  have hk : lengthOk k.len = true := lengthOk_iff.2 ⟨hpos, hle⟩
  have hblk := loadBlock_blkMem k.ctrl k.payload s
  have hblock : entryBlock (loadBlock k.ctrl k.payload s) s.sB = k :=
    (entryBlock_congr hblk s.sB).trans (entryBlock_storeEntry hwf s.sB hk)
  refine ⟨_, exec_block_reader hp k, ?_, ?_, ?_, fun b f hb => ?_, loadBlock_eq _ _ s⟩
  · rw [entryWellFormed_congr (s := storeEntry s.sB k.ctrl k.payload s) (loadBlock_cfg _ _ s) hblk]
    exact entryWellFormed_storeEntry hwf hcap hk
  · rw [← entryBlock_ctrl, hblock]
  · rw [← entryBlock_payload, hblock]
  · rw [hblk, fields_storeEntry_ne hwf hb _ (payload_length_le hk)]

/-! ### The command -/

/-- A state that agrees with `s` outside what DESERIALIZE writes is in its frame, once it is idle with the code in `CMD`. -/
theorem deserializeFrame_of_mask {s t : State} (h : maskDeserialize t = maskDeserialize s) (hcmd : t.cmd = 0x05#8)
    (hphase : t.phase = .idle) : DeserializeFrame s t := by
  cases s
  cases t
  simp_all [DeserializeFrame, maskDeserialize]

/-- A failed DESERIALIZE, whatever the kind, leaves an empty store (R239, R291). -/
theorem raise_deserialize_empty {u : State} (h : u.cmd = 0x05#8) (k : ErrKind) :
    failedWith k (raise k u) ∧ (raise k u).cdValid = false ∧ (raise k u).nblk = 0#32 ∧ storeEmpty (raise k u) := by
  obtain ⟨hv, hn, -, he⟩ := raise_released (.inr h) k
  exact ⟨⟨rfl, rfl⟩, hv, hn, he⟩

theorem DeserializeEnded.frame {s t : State} (h : DeserializeEnded s t) : DeserializeFrame s t := by
  rcases h.result with hd | ⟨k, u, -, hcmd, -, rfl⟩
  · exact deserializeFrame_of_mask h.mask hd.cmd hd.phase
  · exact deserializeFrame_of_mask h.mask ((raise_cmd k u).trans hcmd) rfl

/-- On a stream that the parser accepts, the store holds the parsed blocks (R230). -/
theorem DeserializeEnded.accepted {s t : State} (h : DeserializeEnded s t) {ks : List Block} {rest : List Byte}
    (hparse : parseStream s.cfg.blkCap (stream s) = .ok (ks, rest)) : Deserialized s t ∧ storedBlocks t = ks := by
  rcases h.result with hd | ⟨k, u, hwhy, -⟩
  · have hsame := hd.blocks.symm.trans hparse
    simp only [Except.ok.injEq, Prod.mk.injEq] at hsame
    exact ⟨hd, hsame.1⟩
  · rw [hparse] at hwhy
    cases hwhy

/-- On a stream that the parser refuses, the command fails with the parser's kind (R239). -/
theorem DeserializeEnded.refused {s t : State} (h : DeserializeEnded s t) {k : ErrKind}
    (hparse : parseStream s.cfg.blkCap (stream s) = .error k) :
    failedWith k t ∧ t.cdValid = false ∧ t.nblk = 0#32 ∧ storeEmpty t := by
  rcases h.result with hd | ⟨k', u, hwhy, hcmd, -, rfl⟩
  · have hblocks := hd.blocks
    rw [hparse] at hblocks
    cases hblocks
  · rw [hparse] at hwhy
    cases hwhy
    exact raise_deserialize_empty hcmd k

/-- Settles O40: without a stream the command fails at once; with one its run ends as the parser says. -/
theorem deserializeResult : Obligations.DeserializeResult := by
  intro s hst
  cases hpresent : s.strPresent with
  | false =>
    have hmask : maskDeserialize (startedDeserialize s) = maskDeserialize s := rfl
    exact ⟨_, exec_deserialize_absent hst hpresent,
      deserializeFrame_of_mask ((maskDeserialize_raise rfl _).trans hmask) (raise_cmd _ _) rfl, nofun, nofun,
      fun _ => raise_deserialize_empty rfl _⟩
  | true =>
    obtain ⟨t, ht, hend⟩ := exec_deserialize_present hst hpresent
    refine ⟨t, ht, hend.frame, fun ks rest _ hparse => ?_, fun k _ hparse => hend.refused hparse, nofun⟩
    obtain ⟨hd, hblocks⟩ := hend.accepted hparse
    exact ⟨⟨hd.st, hd.err⟩, hd.cdValid, by rw [← hblocks, storedBlocks, length_blocksFrom], hblocks, hd.wellFormed, hd.rest⟩

end Sys2Proof.Machine
end

section
/-! SUPPORT. SERIALIZE as the host sees it (44_stream.md R222 to R226): its one answer with a result, and the four conditions under
which nothing is written. -/

namespace Sys2Proof.Machine

/-- The serialization of the stored blocks has `NBLK` in its header (R225). -/
theorem serializeStream_storedBlocks (s : State) :
    serializeStream (storedBlocks s) = le32 s.nblk ++ serializeBlocks (storedBlocks s) :=
  serializeStream_of_length (length_blocksFrom s 0 _)

/-- A state that agrees with `s` outside what SERIALIZE writes is in its frame, once it is idle with the code in `CMD`. -/
theorem serializeFrame_of_mask {s t : State} (h : maskSerialize t = maskSerialize s) (hcmd : t.cmd = 0x04#8)
    (hphase : t.phase = .idle) : SerializeFrame s t := by
  cases s
  cases t
  simp_all [SerializeFrame, maskSerialize]

theorem Serialized.frame {s t : State} (h : Serialized s t) : SerializeFrame s t := serializeFrame_of_mask h.mask h.cmd h.phase

/-- `ACC_W` bits hold the length of any stream. -/
theorem Serialized.toNat_strLen {s t : State} (h : Serialized s t) : t.strLen.toNat = 4 + totalSize (storedBlocks s) := by
  have hle := totalSize_blocksFrom_le s 0 s.nblk.toNat
  have hn := s.nblk.isLt
  rw [h.length]
  refine Nat.mod_eq_of_lt ?_
  rw [storedBlocks]; omega

theorem Serialized.stream_eq {s t : State} (h : Serialized s t) : stream t = serializeStream (storedBlocks s) := by
  rw [stream, h.toNat_strLen, h.written, serializeStream_storedBlocks]

/-- The answers of SERIALIZE, by the four conditions of R223 in their order. -/
def SerializeAnswer (s t : State) : Prop :=
  if noData s then t = serializeFailed .invalidInput s
  else if s.strWritable = false then t = serializeFailed .ioFailure s
  else if storeUsable s = false then t = serializeFailed .corruptStructure s
  else if s.cfg.strCap < 4 + totalSize (storedBlocks s) then t = serializeFailed .ioFailure s
  else Serialized s t

theorem SerializeAnswer.frame {s t : State} (h : SerializeAnswer s t) : SerializeFrame s t := by
  have failed : ∀ k, t = serializeFailed k s → SerializeFrame s t := fun k hk => hk ▸ rfl
  unfold SerializeAnswer at h
  split_ifs at h
  case neg => exact h.frame
  all_goals exact failed _ h

theorem exec_serialize_answer {s : State} (hst : s.st ≠ .busy) : ∃ t, exec .serialize s = .next t ∧ SerializeAnswer s t := by
  have atOnce : ∀ k, startSerialize (beginCommand 0x04#8 s) = serializeFailed k s →
      exec .serialize s = .next (serializeFailed k s) := fun k hstart => by
    rw [exec_serialize hst, hstart, runCommand_serializeFailed]
  have hstart := startSerialize_eq s
  unfold SerializeAnswer
  split_ifs at hstart ⊢ with hd hw hu hf
  case neg => exact exec_serialize_good hst (by simpa using hd) (by simpa using hw) (by simpa using hu) (by omega)
  all_goals exact ⟨_, atOnce _ hstart, rfl⟩

/-- Settles O39: the four conditions end the command at its start, and without one its run writes the whole stream. -/
theorem serializeResult : Obligations.SerializeResult := by
  intro s hst
  obtain ⟨t, ht, hanswer⟩ := exec_serialize_answer hst
  have data : s.cdValid = true → s.nblk.toNat ≠ 0 → ¬ noData s = true := fun hv hn h =>
    (noData_iff.1 h).elim (by simp [hv]) hn
  have hframe := hanswer.frame
  unfold SerializeAnswer at hanswer
  refine ⟨t, ht, hframe, fun hv hn hw hu hf => ?written, fun hv hn hw hu hf => ?noRoom, fun hv hn hw hu => ?unusable,
    fun hv hn hw => ?readOnly, fun h => ?noData⟩
  case written =>
    rw [if_neg (data hv hn), if_neg (by simp [hw]), if_neg (by simp [hu]), if_neg (by omega)] at hanswer
    exact ⟨⟨hanswer.st, hanswer.err⟩, hanswer.present, hanswer.toNat_strLen, hanswer.stream_eq⟩
  case noRoom =>
    rw [if_neg (data hv hn), if_neg (by simp [hw]), if_neg (by simp [hu]), if_pos hf] at hanswer
    rw [hanswer]; rfl
  case unusable =>
    rw [if_neg (data hv hn), if_neg (by simp [hw]), if_pos hu] at hanswer
    rw [hanswer]; rfl
  case readOnly =>
    rw [if_neg (data hv hn), if_pos hw] at hanswer
    exact hanswer
  case noData =>
    rw [if_pos (noData_iff.2 h)] at hanswer
    exact hanswer

end Sys2Proof.Machine
end

section
/-! SUPPORT. The laws of the encoder as a function (45_properties.md R263 to R265, R268): what a run of equal bytes becomes, the
bounds of a block by its kind, and that kinds and lengths depend on the equal pairs of the input alone. -/

namespace Sys2Proof.Machine

/-! ### Runs of equal bytes -/

/-- The literal span is empty at an equal pair. -/
theorem litSpan_equal_pair (cap : Nat) (x : Byte) (rest : List Byte) : litSpan cap (x :: x :: rest) = 0 := by
  cases cap <;> simp [litSpan]

theorem getElem?_run {n t : Nat} (x : Byte) (rest : List Byte) (h : t < n) :
    (List.replicate n x ++ rest)[t]? = some x := by
  rw [List.getElem?_append_left (by simpa using h), List.getElem?_replicate_of_lt h]

/-- The repeat span of a run is the run, where the cap or another byte ends it. -/
theorem repSpan_run {cap n : Nat} {x : Byte} {rest : List Byte} (hcap : n ≤ cap) (hend : n = cap ∨ rest.head? ≠ some x) :
    repSpan cap x (List.replicate n x ++ rest) = n := by
  refine repSpan_unique hcap (fun k hk => getElem?_run x rest hk) fun hlt => ?_
  rw [List.getElem?_append_right (by simp), List.length_replicate, Nat.sub_self, ← List.head?_eq_getElem?]
  exact hend.resolve_left (by omega)

/-- A run of 2 to 128 equal bytes is one Repeat, where it is a full one or another byte ends it (R142, R143). -/
theorem encodeBytes_run {n : Nat} {x : Byte} {rest : List Byte} (litMax : Nat) (htwo : 2 ≤ n) (hle : n ≤ 128)
    (hend : n = 128 ∨ rest.head? ≠ some x) :
    encodeBytes litMax (List.replicate n x ++ rest) = .rep n x :: encodeBytes litMax rest := by
  obtain ⟨m, rfl⟩ := Nat.exists_eq_add_of_le' htwo
  have hrep := repSpan_run (cap := Config.repMax) hle hend
  simp only [List.replicate_succ, List.cons_append] at hrep ⊢
  rw [encodeBytes_cons, headBlock_of_litSpan_zero (litSpan_equal_pair _ _ _), hrep]
  simp [Block.len]

/-- Two different bytes are a Literal and, for the last byte, a Repeat. -/
theorem encodeBytes_unequal_pair {litMax : Nat} {x y : Byte} (hlm : 0 < litMax) (hxy : x ≠ y) :
    encodeBytes litMax [x, y] = [.lit [x], .rep 1 y] := by
  obtain ⟨cap, rfl⟩ := Nat.exists_eq_add_of_lt hlm
  have hspan : litSpan (0 + cap + 1) [x, y] = 1 := by simp [litSpan, hxy]
  rw [encodeBytes_cons, headBlock_of_litSpan_pos (by omega), hspan]
  exact congrArg _ (encodeBytes_singleton _ y)

/-- Settles O28: the pair is a run of two bytes that ends with the input. -/
theorem repeatPreference : Obligations.RepeatPreference := fun litMax x _ =>
  encodeBytes_run (n := 2) (rest := []) litMax (by decide) (by decide) (.inr (by simp))

/-- Settles O29: 128 bytes of the run are one Repeat, whatever follows, and what follows has one byte or two different ones. -/
theorem boundaryAt128 : Obligations.BoundaryAt128 := by
  intro litMax x y hlm
  have full : ∀ rest, encodeBytes litMax (List.replicate 128 x ++ rest) = .rep 128 x :: encodeBytes litMax rest := fun rest =>
    encodeBytes_run litMax (by decide) (by decide) (.inl rfl)
  have oneMore : List.replicate 129 x = List.replicate 128 x ++ [x] := List.replicate_succ'
  refine ⟨?_, ?_, fun hxy => ?_⟩
  · rw [← List.append_nil (List.replicate 128 x), full, encodeBytes_nil]
  · rw [oneMore, full, encodeBytes_singleton]
  · rw [oneMore, List.append_assoc, full]
    exact congrArg _ (encodeBytes_unequal_pair (by omega) hxy)

/-! ### Bounds of the lengths -/

theorem headBlock_len_le_litMax {litMax : Nat} {x : Byte} {rest : List Byte} (h : (headBlock litMax x rest).kind = .lit) :
    (headBlock litMax x rest).len ≤ litMax :=
  (headBlock_of_kind_lit h).1.trans_le (litSpan_le_cap _ _)

theorem headBlock_len_le_repMax {litMax : Nat} {x : Byte} {rest : List Byte} (h : (headBlock litMax x rest).kind = .rep) :
    (headBlock litMax x rest).len ≤ Config.repMax :=
  (headBlock_of_kind_rep h).2.trans_le (repSpan_le_cap _ _ _)

theorem encodeBytes_lengthOk {litMax : Nat} (hlm : litMax = 127 ∨ litMax = 128) {bytes : List Byte} {k : Block}
    (hk : k ∈ encodeBytes litMax bytes) : lengthOk k.len = true := by
  obtain ⟨x, rest, rfl⟩ := exists_headBlock_of_mem hk
  exact headBlock_lengthOk (by omega) x rest

/-- Settles O27: a block of the sequence is one span of the input, and the length field of an entry has no other values. -/
theorem lengthBounds : Obligations.LengthBounds := by
  refine ⟨fun litMax bytes hlm k hk => ?_, fun s b => lengthOk_iff.1 (entryBlock_lengthOk s b)⟩
  obtain ⟨hpos, hle⟩ := lengthOk_iff.1 (encodeBytes_lengthOk hlm hk)
  obtain ⟨x, rest, rfl⟩ := exists_headBlock_of_mem hk
  exact ⟨hpos, hle, headBlock_len_le_litMax, headBlock_len_le_repMax⟩

/-! ### The shape of an encoding -/

/-- Two inputs of one length whose adjacent equal pairs stand at the same positions (R268). -/
structure SamePairs (xs ys : List Byte) : Prop where
  length : xs.length = ys.length
  pairs : ∀ j, j + 1 < xs.length → (xs[j]? = xs[j + 1]? ↔ ys[j]? = ys[j + 1]?)

theorem SamePairs.drop {xs ys : List Byte} (h : SamePairs xs ys) (n : Nat) : SamePairs (xs.drop n) (ys.drop n) where
  length := by rw [List.length_drop, List.length_drop, h.length]
  pairs j hj := by
    rw [List.length_drop] at hj
    simpa only [List.getElem?_drop, Nat.add_assoc] using h.pairs (n + j) (by omega)

/-- A literal span, by the equal pairs alone. -/
theorem le_litSpan_iff_pairs {cap m : Nat} {bytes : List Byte} : m ≤ litSpan cap bytes ↔
    m ≤ cap ∧ ∀ t < m, t + 1 < bytes.length ∧ bytes[t]? ≠ bytes[t + 1]? := by
  rw [le_litSpan_iff]
  refine and_congr_right fun _ => forall₂_congr fun t _ => ⟨?_, fun ⟨hlen, hne⟩ => ?_⟩
  · rintro ⟨x, y, hx, hy, hxy⟩
    exact ⟨(List.getElem?_eq_some_iff.1 hy).1, by simpa [hx, hy] using hxy⟩
  · rw [List.getElem?_eq_getElem hlen, List.getElem?_eq_getElem (Nat.lt_of_succ_lt hlen)] at hne ⊢
    exact ⟨_, _, rfl, rfl, fun hxy => hne (congrArg some hxy)⟩

/-- A repeat span, by the equal pairs alone. -/
theorem le_repSpan_iff_pairs {cap r : Nat} {x : Byte} {rest : List Byte} : r ≤ repSpan cap x (x :: rest) ↔
    r ≤ cap ∧ ∀ t < r, t < (x :: rest).length ∧ (t + 1 < r → (x :: rest)[t]? = (x :: rest)[t + 1]?) := by
  rw [le_repSpan_iff]
  refine and_congr_right fun _ => ⟨fun hsame t ht => ?_, fun hpairs t ht => ?_⟩
  · exact ⟨(List.getElem?_eq_some_iff.1 (hsame t ht)).1, fun hnext => (hsame t ht).trans (hsame _ hnext).symm⟩
  · induction t with
    | zero => rfl
    | succ t ih =>
      obtain ⟨-, hpair⟩ := hpairs t (by omega)
      rw [← hpair ht, ih (by omega)]

theorem SamePairs.litSpan_eq {xs ys : List Byte} (h : SamePairs xs ys) (cap : Nat) : litSpan cap xs = litSpan cap ys := by
  refine eq_of_forall_le_iff fun m => ?_
  rw [le_litSpan_iff_pairs, le_litSpan_iff_pairs, ← h.length]
  exact and_congr_right fun _ => forall₂_congr fun t _ => and_congr_right fun ht => not_congr (h.pairs t ht)

theorem SamePairs.repSpan_eq {x y : Byte} {xs ys : List Byte} (h : SamePairs (x :: xs) (y :: ys)) (cap : Nat) :
    repSpan cap x (x :: xs) = repSpan cap y (y :: ys) := by
  have pass : ∀ {r t}, (∀ t < r, t < (x :: xs).length) → t + 1 < r →
      ((x :: xs)[t]? = (x :: xs)[t + 1]? ↔ (y :: ys)[t]? = (y :: ys)[t + 1]?) := fun hlen ht => h.pairs _ (hlen _ ht)
  refine eq_of_forall_le_iff fun r => ?_
  rw [le_repSpan_iff_pairs, le_repSpan_iff_pairs, ← h.length]
  simp only [forall_and]
  exact and_congr_right fun _ => and_congr_right fun hlen => forall₂_congr fun t _ => forall_congr' fun ht => pass hlen ht

/-- The kind and the length of a block. -/
def shape (k : Block) : Kind × Nat := (k.kind, k.len)

/-- The shape of the block at the head is a function of the two spans. -/
theorem shape_headBlock (litMax : Nat) (x : Byte) (rest : List Byte) : shape (headBlock litMax x rest) =
    if 0 < litSpan litMax (x :: rest) then (.lit, litSpan litMax (x :: rest))
    else (.rep, repSpan Config.repMax x (x :: rest)) := by
  cases hk : (headBlock litMax x rest).kind with
  | lit =>
    obtain ⟨hlen, -⟩ := headBlock_of_kind_lit hk
    rw [shape, hk, if_pos (hlen ▸ headBlock_len_pos litMax x rest), hlen]
  | rep =>
    obtain ⟨hlit, hlen⟩ := headBlock_of_kind_rep hk
    rw [shape, hk, if_neg (by omega), hlen]

theorem SamePairs.shape_headBlock_eq {x y : Byte} {xs ys : List Byte} (h : SamePairs (x :: xs) (y :: ys)) (litMax : Nat) :
    shape (headBlock litMax x xs) = shape (headBlock litMax y ys) := by
  rw [shape_headBlock, shape_headBlock, h.litSpan_eq, h.repSpan_eq]

/-- The two runs of the loop of R143 take blocks of the same length, so that the rests have the same pairs again. -/
theorem SamePairs.map_shape_encodeBytes {xs ys : List Byte} (h : SamePairs xs ys) (litMax : Nat) :
    (encodeBytes litMax xs).map shape = (encodeBytes litMax ys).map shape := by
  induction xs using encodeBytes_induction litMax generalizing ys with
  | nil => rw [List.length_eq_zero_iff.1 h.length.symm]
  | cons x xs ih =>
    cases ys with
    | nil => cases h.length
    | cons y ys =>
      have hhead := h.shape_headBlock_eq litMax
      have hlen : (headBlock litMax x xs).len = (headBlock litMax y ys).len := congrArg Prod.snd hhead
      rw [encodeBytes_cons, encodeBytes_cons, List.map_cons, List.map_cons, hhead, ← hlen, ih (h.drop _)]

/-- Settles O30: the encoder asks its input nothing but whether a byte equals the next one. -/
theorem shapeDependsOnEqualPairs : Obligations.ShapeDependsOnEqualPairs := fun litMax _ _ hlen hpairs =>
  SamePairs.map_shape_encodeBytes ⟨hlen, hpairs⟩ litMax

end Sys2Proof.Machine
end

section
/-! SUPPORT. The laws of the whole codec (45_properties.md R260 to R262, R266, R267): what COMPRESS and DESERIALIZE leave in the
block store, what the readers make of it, and the commands one after the other. -/

namespace Sys2Proof.Machine

/-! ### A store that holds given blocks -/

/-- The block store is valid and holds these blocks in usable entries. -/
structure StoreHolds (ks : List Block) (t : State) : Prop where
  valid : t.cdValid = true
  blocks : storedBlocks t = ks
  usable : storeUsable t = true

theorem length_storedBlocks (s : State) : (storedBlocks s).length = s.nblk.toNat := length_blocksFrom s 0 _

theorem StoreHolds.count {ks : List Block} {t : State} (h : StoreHolds ks t) : t.nblk.toNat = ks.length := by
  rw [← length_storedBlocks, h.blocks]

theorem StoreHolds.nblk_ne_zero {ks : List Block} {t : State} (h : StoreHolds ks t) (hne : ks ≠ []) : t.nblk.toNat ≠ 0 := by
  rw [h.count]
  exact mt List.length_eq_zero_iff.1 hne

theorem storeUsable_of_allWellFormed {t : State} (h : allWellFormed t 0 t.nblk.toNat = true) : storeUsable t = true :=
  allUsable_iff.2 fun k hk => usable_of_wellFormed (allWellFormed_iff.1 h k hk)

theorem done.not_busy {t : State} (h : done t) : t.st ≠ .busy := by simp [h.1]

theorem failedWith.not_busy {k : ErrKind} {t : State} (h : failedWith k t) : t.st ≠ .busy := by simp [h.1]

/-- What a command that fills the block store leaves: its blocks, or a failure and no store (R140, R144). -/
def StoreLeft (t : State) : Except ErrKind (List Block) → Prop
  | .ok ks => done t ∧ StoreHolds ks t
  | .error k => failedWith k t ∧ t.cdValid = false ∧ t.nblk = 0#32

theorem StoreLeft.not_busy {t : State} {r : Except ErrKind (List Block)} (h : StoreLeft t r) : t.st ≠ .busy := by
  cases r with
  | ok ks => exact h.1.not_busy
  | error k => exact h.1.not_busy

/-- What the host sees of the command's end is a function of its answer. -/
theorem StoreLeft.same {t w : State} {r : Except ErrKind (List Block)} (ht : StoreLeft t r) (hw : StoreLeft w r) :
    t.st = w.st ∧ t.err = w.err ∧ t.nblk = w.nblk ∧ storedBlocks t = storedBlocks w := by
  cases r with
  | ok ks =>
    obtain ⟨⟨hst, herr⟩, hks⟩ := ht
    obtain ⟨⟨hst', herr'⟩, hks'⟩ := hw
    exact ⟨hst.trans hst'.symm, herr.trans herr'.symm, BitVec.eq_of_toNat_eq (hks.count.trans hks'.count.symm),
      hks.blocks.trans hks'.blocks.symm⟩
  | error k =>
    obtain ⟨⟨hst, herr⟩, -, hn⟩ := ht
    obtain ⟨⟨hst', herr'⟩, -, hn'⟩ := hw
    exact ⟨hst.trans hst'.symm, herr.trans herr'.symm, hn.trans hn'.symm, by rw [storedBlocks, storedBlocks, hn, hn']; rfl⟩

/-! ### COMPRESS -/

/-- The answer of COMPRESS, a function of the parameters and its operands (R141, R143, R144). -/
def compressAnswer (c : Config) (present : Bool) (n : Word32) (bytes : List Byte) : Except ErrKind (List Block) :=
  if present = false ∨ n.toNat = 0 ∨ min c.nMax c.inCap < n.toNat then .error .invalidInput
  else if c.blkCap < (encodeBytes c.litMax bytes).length then .error .allocationFailure
  else .ok (encodeBytes c.litMax bytes)

theorem exec_compress_answer {s : State} (hst : s.st ≠ .busy) (hlegal : s.cfg.Legal) :
    ∃ t, exec .compress s = .next t ∧ CompressFrame s t ∧ StoreLeft t (compressAnswer s.cfg s.inPresent s.n (input s)) := by
  obtain ⟨t, ht, hframe, good, noRoom, bad⟩ := compressResult s hst hlegal
  refine ⟨t, ht, hframe, ?_⟩
  unfold compressAnswer
  by_cases hbad : s.inPresent = false ∨ s.n.toNat = 0 ∨ min s.cfg.nMax s.cfg.inCap < s.n.toNat
  · obtain ⟨hfail, hv, hn, -⟩ := bad hbad
    rw [if_pos hbad]
    exact ⟨hfail, hv, hn⟩
  · obtain ⟨hp, hn, hle⟩ : s.inPresent = true ∧ s.n.toNat ≠ 0 ∧ s.n.toNat ≤ min s.cfg.nMax s.cfg.inCap := by
      simpa [not_or] using hbad
    rw [if_neg hbad]
    split_ifs with hsmall
    · obtain ⟨hfail, hv, hn, -⟩ := noRoom hp hn hle hsmall
      exact ⟨hfail, hv, hn⟩
    · obtain ⟨hdone, hv, -, hblocks, hwf, -⟩ := good hp hn hle (Nat.le_of_not_lt hsmall)
      exact ⟨hdone, hv, hblocks, storeUsable_of_allWellFormed hwf⟩

theorem CompressFrame.cfg {s t : State} (h : CompressFrame s t) : t.cfg = s.cfg := (congrArg State.cfg h :)

theorem CompressFrame.strWritable {s t : State} (h : CompressFrame s t) : t.strWritable = s.strWritable :=
  (congrArg State.strWritable h :)

/-- COMPRESS of a good input with room for its blocks (R140). -/
theorem exec_compress_holds {s : State} (hst : s.st ≠ .busy) (hlegal : s.cfg.Legal) (hp : s.inPresent = true)
    (hpos : 1 ≤ s.n.toNat) (hle : s.n.toNat ≤ min s.cfg.nMax s.cfg.inCap)
    (hfits : (encodeBytes s.cfg.litMax (input s)).length ≤ s.cfg.blkCap) :
    ∃ t, exec .compress s = .next t ∧ CompressFrame s t ∧ done t ∧ StoreHolds (encodeBytes s.cfg.litMax (input s)) t := by
  obtain ⟨t, ht, hframe, hleft⟩ := exec_compress_answer hst hlegal
  rw [compressAnswer, if_neg (not_or.2 ⟨by simp [hp], by omega⟩), if_neg (by omega)] at hleft
  exact ⟨t, ht, hframe, hleft⟩

/-! ### SIZE -/

theorem storedBlocks_eq_nil {t : State} (h : t.nblk.toNat = 0) : storedBlocks t = [] :=
  List.length_eq_zero_iff.1 ((length_storedBlocks t).trans h)

theorem StoreLeft.usable {t : State} {r : Except ErrKind (List Block)} (h : StoreLeft t r) : storeUsable t = true := by
  cases r with
  | ok ks => exact h.2.usable
  | error k =>
    obtain ⟨-, -, hn⟩ := h
    rw [storeUsable, hn]
    rfl

theorem StoreLeft.nblk_of_invalid {t : State} {r : Except ErrKind (List Block)} (h : StoreLeft t r) (hv : t.cdValid = false) :
    t.nblk.toNat = 0 := by
  cases r with
  | ok ks => exact absurd (h.2.valid.symm.trans hv) (by decide)
  | error k =>
    obtain ⟨-, -, hn⟩ := h
    rw [hn]
    rfl

/-- After a command that fills the store, `SIZE` is the sum over what it left there, also where SIZE fails (R180, R182). -/
theorem StoreLeft.exec_size {t : State} {r : Except ErrKind (List Block)} (h : StoreLeft t r) :
    ∃ t', exec .size t = .next t' ∧ t'.size.toNat = totalSize (storedBlocks t) := by
  obtain ⟨t', ht', -, good, -, noBlocks⟩ := sizeResult t h.not_busy
  refine ⟨t', ht', ?_⟩
  by_cases hn : t.nblk.toNat = 0
  · rw [noBlocks (.inr hn) |>.2, storedBlocks_eq_nil hn]
    rfl
  · obtain ⟨-, hsize, -⟩ := good (by simpa using mt h.nblk_of_invalid hn) hn h.usable
    exact hsize

/-- Settles O34: the answer of COMPRESS is a function of its operands, and what it leaves is a function of its answer. -/
theorem compressIsDeterministic : Obligations.CompressIsDeterministic := by
  intro s u hst hut hlegal hcfg hp hn hin
  obtain ⟨t, ht, -, hleft⟩ := exec_compress_answer hst hlegal
  obtain ⟨w, hw, -, hleft'⟩ := exec_compress_answer hut (hcfg ▸ hlegal)
  rw [hcfg, hp, hn, hin] at hleft'
  obtain ⟨hstatus, herr, hnblk, hblocks⟩ := hleft.same hleft'
  obtain ⟨t', ht', hsize⟩ := hleft.exec_size
  obtain ⟨w', hw', hsize'⟩ := hleft'.exec_size
  exact ⟨t, w, ht, hw, hstatus, herr, hnblk, hblocks, t', w', ht', hw',
    BitVec.eq_of_toNat_eq (by rw [hsize, hsize', hblocks])⟩

/-! ### COMPRESS, DECOMPRESS -/

theorem length_input (s : State) : (input s).length = s.n.toNat := length_inBytes s 0 _

theorem totalLen_encodeBytes (litMax : Nat) (bytes : List Byte) : totalLen (encodeBytes litMax bytes) = bytes.length := by
  rw [← length_decodeBlocks, decodeBlocks_encodeBytes]

/-- DECOMPRESS of a store that holds an encoding, with room for the bytes that were encoded (R190). -/
theorem exec_decompress_encoding {litMax : Nat} {bytes : List Byte} {s : State} (hst : s.st ≠ .busy)
    (h : StoreHolds (encodeBytes litMax bytes) s) (hne : bytes ≠ []) (hfits : bytes.length ≤ s.cfg.outCap) :
    ∃ t, exec .decompress s = .next t ∧ done t ∧ t.outLen.toNat = bytes.length ∧ output t = bytes := by
  obtain ⟨t, ht, -, good, -⟩ := decompressResult s hst
  have hn := h.nblk_ne_zero (mt encodeBytes_eq_nil_iff.1 hne)
  rw [h.blocks, totalLen_encodeBytes, decodeBlocks_encodeBytes] at good
  obtain ⟨hdone, -, hlen, hout⟩ := good h.valid hn h.usable hfits
  exact ⟨t, ht, hdone, hlen, hout⟩

/-- Settles O42: COMPRESS leaves the encoding in the store, and DECOMPRESS finds it there. -/
theorem roundTrip : Obligations.RoundTrip := by
  refine ⟨fun litMax bytes _ => ⟨decodeBlocks_encodeBytes litMax bytes, totalLen_encodeBytes litMax bytes⟩, ?_⟩
  intro s hst hlegal hp hpos hle hfits hout
  obtain ⟨t, ht, hframe, hdone, hstore⟩ := exec_compress_holds hst hlegal hp hpos hle hfits
  have hne : input s ≠ [] := List.length_pos_iff.1 (by rwa [length_input])
  obtain ⟨u, hu, hdone', hlen, hbytes⟩ := exec_decompress_encoding hdone.not_busy hstore hne
    (by rwa [length_input, hframe.cfg])
  exact ⟨t, u, ht, hu, hdone', hlen.trans (length_input s), hbytes⟩

/-! ### SIZE, SERIALIZE -/

theorem length_serializeBlocks {ks : List Block} (h : ∀ k ∈ ks, lengthOk k.len = true) :
    (serializeBlocks ks).length = totalSize ks := by
  induction ks with
  | nil => rfl
  | cons k ks ih =>
    have hk := need_ctrl (h k List.mem_cons_self)
    have hks := ih fun j hj => h j (List.mem_cons_of_mem k hj)
    rw [serializeBlocks_cons, List.length_cons, List.length_append, hks, totalSize, ssize, hk]
    omega

theorem length_serializeStream {ks : List Block} (h : ∀ k ∈ ks, lengthOk k.len = true) :
    (serializeStream ks).length = 4 + totalSize ks := by
  rw [serializeStream, List.length_append, length_le32, length_serializeBlocks h]

theorem SizeFrame.storedBlocks_eq {s t : State} (h : SizeFrame s t) : storedBlocks t = storedBlocks s :=
  storedBlocks_congr (congrArg State.blkMem h :) (congrArg State.nblk h :)

/-- SIZE ends, and where it ends with a result this is the size of the store (R180). -/
theorem exec_size_ends {s : State} (hst : s.st ≠ .busy) :
    ∃ t, exec .size s = .next t ∧ SizeFrame s t ∧ t.st ≠ .busy ∧
      (t.st = .done → t.size.toNat = totalSize (storedBlocks s)) := by
  cases hd : noData s with
  | true => exact ⟨_, exec_size_noData hst hd, rfl, nofun, nofun⟩
  | false =>
    obtain ⟨t, ht, hend⟩ := exec_size_data hst hd
    refine ⟨t, ht, hend.frame, ?_⟩
    cases hend with
    | done good result => exact result ▸ ⟨nofun, fun _ => toNat_size_sizeDone s⟩
    | corrupt bad failed => rw [failed]; exact ⟨nofun, nofun⟩

/-- SERIALIZE ends DONE only with the whole stream written (R223, R226). -/
theorem SerializeAnswer.serialized {s t : State} (h : SerializeAnswer s t) (hdone : t.st = .done) : Serialized s t := by
  have failed : ∀ k, t ≠ serializeFailed k s := by
    rintro k rfl
    cases hdone
  unfold SerializeAnswer at h
  split_ifs at h
  case neg => exact h
  all_goals exact absurd h (failed _)

/-- Settles O43: SIZE leaves the store to SERIALIZE, whose stream is the header and the blocks that were summed. -/
theorem sizeAgreesWithTheStream : Obligations.SizeAgreesWithTheStream := by
  refine ⟨fun ks h => length_serializeStream fun k hk => lengthOk_iff.2 (h k hk), fun s hst => ?_⟩
  obtain ⟨t, ht, hframe, hstopped, hsize⟩ := exec_size_ends hst
  obtain ⟨u, hu, hanswer⟩ := exec_serialize_answer hstopped
  refine ⟨t, u, ht, hu, fun hdone hdone' => ?_⟩
  rw [(hanswer.serialized hdone'.1).toNat_strLen, hframe.storedBlocks_eq, hsize hdone.1, Nat.add_comm]

/-! ### COMPRESS, SERIALIZE, DESERIALIZE, DECOMPRESS -/

theorem SerializeFrame.cfg {s t : State} (h : SerializeFrame s t) : t.cfg = s.cfg := (congrArg State.cfg h :)

theorem DeserializeFrame.cfg {s t : State} (h : DeserializeFrame s t) : t.cfg = s.cfg := (congrArg State.cfg h :)

/-- SERIALIZE of a store that holds given blocks, to a stream with room for them (R222). -/
theorem exec_serialize_holds {ks : List Block} {s : State} (hst : s.st ≠ .busy) (h : StoreHolds ks s) (hne : ks ≠ [])
    (hw : s.strWritable = true) (hfits : 4 + totalSize ks ≤ s.cfg.strCap) :
    ∃ t, exec .serialize s = .next t ∧ SerializeFrame s t ∧ done t ∧ t.strPresent = true ∧
      stream t = serializeStream ks := by
  obtain ⟨t, ht, hframe, good, -⟩ := serializeResult s hst
  rw [h.blocks] at good
  obtain ⟨hdone, hp, -, hstream⟩ := good h.valid (h.nblk_ne_zero hne) hw h.usable hfits
  exact ⟨t, ht, hframe, hdone, hp, hstream⟩

/-- DESERIALIZE of a stream that the parser accepts (R230). -/
theorem exec_deserialize_holds {ks : List Block} {rest : List Byte} {s : State} (hst : s.st ≠ .busy) (hp : s.strPresent = true)
    (hparse : parseStream s.cfg.blkCap (stream s) = .ok (ks, rest)) :
    ∃ t, exec .deserialize s = .next t ∧ DeserializeFrame s t ∧ done t ∧ StoreHolds ks t := by
  obtain ⟨t, ht, hframe, good, -⟩ := deserializeResult s hst
  obtain ⟨hdone, hv, -, hblocks, hwf, -⟩ := good ks rest hp hparse
  exact ⟨t, ht, hframe, hdone, hv, hblocks, storeUsable_of_allWellFormed hwf⟩

/-- The parser reads an encoding of a non-empty input back from its serialization (R240). -/
theorem parseStream_encoding {litMax cap : Nat} (hlm : litMax = 127 ∨ litMax = 128) {bytes : List Byte} (hne : bytes ≠ [])
    (hfits : (encodeBytes litMax bytes).length ≤ cap) (hcap : cap ≤ 2 ^ 31 - 1) :
    parseStream cap (serializeStream (encodeBytes litMax bytes)) = .ok (encodeBytes litMax bytes, []) := by
  have hsome := List.length_pos_iff.2 (mt (encodeBytes_eq_nil_iff (litMax := litMax)).1 hne)
  have hparse := parseStream_serializeStream (fun k hk => encodeBytes_lengthOk hlm hk) hsome hfits hcap []
  rwa [List.append_nil] at hparse

/-- Settles O44: the stream takes the encoding from the store that COMPRESS left to the one that DECOMPRESS reads. -/
theorem persistenceRoundTrip : Obligations.PersistenceRoundTrip := by
  refine ⟨fun litMax cap bytes hlm hne hfits hcap =>
    ⟨_, _, parseStream_encoding hlm hne hfits hcap, decodeBlocks_encodeBytes litMax bytes⟩, ?_⟩
  intro s hst hlegal hp hpos hle hw hblk hstr hout
  have ⟨hlm, ⟨_, hcap⟩, _⟩ := hlegal
  have hlen := length_input s
  have hne : input s ≠ [] := List.length_pos_iff.1 (by omega)
  have hfits := (length_encodeBytes_le s.cfg.litMax (input s)).trans (hlen.trans_le hblk)
  obtain ⟨-, hsize⟩ := sizeOfEncoding s.cfg.litMax (input s) hlm hne
  obtain ⟨t, ht, htFrame, htDone, htStore⟩ := exec_compress_holds hst hlegal hp hpos hle hfits
  obtain ⟨u, hu, huFrame, huDone, huPresent, huStream⟩ := exec_serialize_holds htDone.not_busy htStore
    (mt encodeBytes_eq_nil_iff.1 hne) (htFrame.strWritable.trans hw) (by rw [htFrame.cfg]; omega)
  have huCfg : u.cfg = s.cfg := huFrame.cfg.trans htFrame.cfg
  obtain ⟨v, hv, hvFrame, hvDone, hvStore⟩ := exec_deserialize_holds huDone.not_busy huPresent
    (by rw [huStream, huCfg]; exact parseStream_encoding hlm hne hfits hcap)
  obtain ⟨w, hw', hwDone, -, hwBytes⟩ := exec_decompress_encoding hvDone.not_busy hvStore hne
    (by rw [hvFrame.cfg, huCfg]; omega)
  exact ⟨t, u, v, w, ht, hu, hv, hw', hwDone, hwBytes⟩

/-! ### No result -/

/-- Settles O45: the input checks of COMPRESS and the missing stream of DESERIALIZE, with the store released by the failure. -/
theorem failureSignals : Obligations.FailureSignals := by
  intro s hst
  refine ⟨fun h => ?_, fun h => ?_⟩
  · have hbad : inputBad s = true := inputBad_iff.2 (h.symm.imp_right .inl)
    obtain ⟨hfail, hv, -⟩ := raise_compress_empty (u := releaseStore (setBusy 0x01#8 s)) rfl .invalidInput
    exact ⟨_, exec_compress_bad hst hbad, hfail.1, hv⟩
  · obtain ⟨t, ht, -, -, -, noStream⟩ := deserializeResult s hst
    obtain ⟨hfail, hv, -⟩ := noStream h
    exact ⟨t, ht, hfail.1, hv⟩

end Sys2Proof.Machine
end

section
/-! SUPPORT. The command codes as the host sees them (60_exceptions.md R300 to R304): refused while BUSY, started alike, NOP,
RELEASE and the reserved codes; and what a failed command leaves (R290 to R292). -/

namespace Sys2Proof.Machine

/-! ### While BUSY -/

theorem exec_command_busy {s : State} (hb : s.st = .busy) (v : Byte) :
    exec (decodeCommand v) s = .refused .hostWriteWhileBusy := by rw [exec_decodeCommand, if_pos hb]

theorem hostWrite_busy {s : State} (hb : s.st = .busy) (t : State) : hostWrite t s = .refused .hostWriteWhileBusy := if_pos hb

theorem hostWriteAt_busy {s : State} (hb : s.st = .busy) (a cap : Nat) (t : State) :
    hostWriteAt a cap t s = .refused .hostWriteWhileBusy := if_pos hb

/-- Settles O14: `exec` of a command code and the two host writes look at `ST` before anything else. -/
theorem busyWritesAreRefused : Obligations.BusyWritesAreRefused := fun _ hb =>
  ⟨exec_command_busy hb, fun _ _ => hostWrite_busy hb _, fun _ _ => hostWrite_busy hb _,
    fun _ _ => ⟨hostWriteAt_busy hb _ _ _, hostWriteAt_busy hb _ _ _, hostWriteAt_busy hb _ _ _⟩,
    fun _ _ _ => hostWriteAt_busy hb _ _ _⟩

/-! ### The common start -/

/-- COMPRESS and DESERIALIZE start by releasing the store (R300). -/
theorem beginCommand_releases {v : Byte} (hv : v = 0x01#8 ∨ v = 0x05#8) (s : State) :
    beginCommand v s = releaseStore (setBusy v s) := if_pos hv

/-- A command without a pre-clear starts by writing `CMD`, `ST` and `ERR` (R300). -/
theorem beginCommand_plain {v : Byte} (h1 : v ≠ 0x01#8) (h5 : v ≠ 0x05#8) (h2 : v ≠ 0x02#8) (s : State) :
    beginCommand v s = setBusy v s := by rw [beginCommand, if_neg (not_or.2 ⟨h1, h5⟩), if_neg h2]

/-- Settles O13: `exec` is the start rule after the common start, run to its end, and the common start is one update for each of
the three pre-clears. -/
theorem commandStart : Obligations.CommandStart := by
  refine fun v s => ⟨exec_command, beginCommand_cmd v s, beginCommand_st v s, beginCommand_err v s, fun hv => ?_, ?_,
    fun h1 h5 h2 => beginCommand_plain h1 h5 h2 s⟩
  · obtain ⟨hvalid, hn, hempty⟩ := (beginCommand_pending v s).released (by rwa [beginCommand_cmd])
    exact ⟨hvalid, hn, hempty, by rw [beginCommand_releases hv]; rfl⟩
  · rintro rfl
    exact beginCommand_code02 s

/-! ### Commands that end with their start rule -/

theorem exec_command_atOnce {v : Byte} {s : State} (hst : s.st ≠ .busy) (hstop : (startOnly v s).st ≠ .busy) :
    exec (decodeCommand v) s = .next (startOnly v s) := by rw [exec_command hst, runCommand, runToEnd_stopped hstop]

/-- Settles O15: the start rule of NOP is the end of the command. -/
theorem nopCompletes : Obligations.NopCompletes := fun _ hst =>
  exec_command_atOnce (v := 0x00#8) hst (show St.done ≠ St.busy by decide)

theorem exec_release {s : State} (hst : s.st ≠ .busy) : exec .release s = .next (startOnly 0x06#8 s) :=
  exec_command_atOnce (v := 0x06#8) hst (show St.done ≠ St.busy by decide)

/-- Settles O16: RELEASE forgets the store, so that DECOMPRESS finds no data in it. -/
theorem releaseCompletes : Obligations.ReleaseCompletes := by
  intro s hst
  have hdone : (startOnly 0x06#8 s).st ≠ .busy := show St.done ≠ St.busy by decide
  obtain ⟨hfail, -⟩ := raise_decompress_noOutput (u := releaseOutput (setBusy 0x02#8 (startOnly 0x06#8 s))) rfl .invalidInput
  exact ⟨_, exec_release hst, entryPresent_forget (m := s.blkMem) rfl, rfl, _, exec_decompress_noData hdone rfl, hfail⟩

/-- The codes above RELEASE's are the reserved ones (R102, R303). -/
theorem startRule_reserved {v : Byte} (hv : 0x06#8 < v) (s : State) : startRule v s = startReserved s := by
  rcases startRule_spec v s with
    ⟨rfl, -⟩ | ⟨rfl, -⟩ | ⟨rfl, -⟩ | ⟨rfl, -⟩ | ⟨rfl, -⟩ | ⟨rfl, -⟩ | ⟨rfl, -⟩ | ⟨-, hrule⟩
  case inr.inr.inr.inr.inr.inr.inr => exact hrule
  all_goals exact absurd hv (by decide)

theorem startOnly_reserved {v : Byte} (hv : 0x06#8 < v) (s : State) :
    startOnly v s = { s with cmd := v, st := .fail, err := .illegalCommand, phase := .idle } :=
  (startRule_reserved hv _).trans (startReserved_beginCommand hv s)

theorem exec_reserved {v : Byte} {s : State} (hst : s.st ≠ .busy) (hv : 0x06#8 < v) :
    exec (decodeCommand v) s = .next { s with cmd := v, st := .fail, err := .illegalCommand, phase := .idle } := by
  rw [exec_command_atOnce hst (by simp [startOnly_reserved hv]), startOnly_reserved hv]

/-- Settles O17: each row's codes are above RELEASE's, and every such code fails with its start rule. -/
theorem reservedCodesFail : Obligations.ReservedCodesFail := by
  intro s hst
  refine ⟨exec_reserved (v := 0x07#8) hst (by decide), fun low => ?_, fun low => ?_, fun low => ?_, fun low => ?_,
    fun low => ?_⟩
  · rw [← decodeCommand_reserved08]; exact exec_reserved hst (by revert low; decide)
  · rw [← decodeCommand_reserved10]; exact exec_reserved hst (by revert low; decide)
  · rw [← decodeCommand_reserved20]; exact exec_reserved hst (by revert low; decide)
  · rw [← decodeCommand_reserved40]; exact exec_reserved hst (by revert low; decide)
  · rw [← decodeCommand_reserved80]; exact exec_reserved hst (by revert low; decide)

/-! ### What a failed command leaves -/

/-- `t` is what a failure of the command with code `v` leaves of `s`: the start sequence and the clean-up, hidden registers and
released bytes aside (R292). -/
def FailedPrecisely (v : Byte) (s t : State) : Prop :=
  visible t = visible { raise t.err (beginCommand v s) with blkMem := t.blkMem, outMem := t.outMem }

theorem failedPrecisely_raise_beginCommand (k : ErrKind) (v : Byte) (s : State) :
    FailedPrecisely v s (raise k (beginCommand v s)) := rfl

theorem CompressFrame.failedPrecisely {s t : State} (h : CompressFrame s t) (hst : t.st = .fail) (hv : t.cdValid = false)
    (hn : t.nblk = 0#32) : FailedPrecisely 0x01#8 s t := by
  rw [CompressFrame, hst, hv, hn] at h
  rw [FailedPrecisely, h]
  rfl

theorem DecompressFrame.failedPrecisely {s t : State} (h : DecompressFrame s t) (hst : t.st = .fail) (hv : t.outValid = false)
    (hlen : t.outLen = 0#64) : FailedPrecisely 0x02#8 s t := by
  rw [DecompressFrame, hst, hv, hlen] at h
  rw [FailedPrecisely, h]
  rfl

theorem SizeFrame.failedPrecisely {s t : State} (h : SizeFrame s t) (hst : t.st = .fail) (hsize : t.size = 0#64) :
    FailedPrecisely 0x03#8 s t := by
  rw [SizeFrame, hst, hsize] at h
  rw [FailedPrecisely, h]
  rfl

theorem serializeFailed_failedPrecisely (k : ErrKind) (s : State) : FailedPrecisely 0x04#8 s (serializeFailed k s) := rfl

theorem DeserializeFrame.failedPrecisely {s t : State} (h : DeserializeFrame s t) (hst : t.st = .fail) (hv : t.cdValid = false)
    (hn : t.nblk = 0#32) : FailedPrecisely 0x05#8 s t := by
  rw [DeserializeFrame, hst, hv, hn] at h
  rw [FailedPrecisely, h]
  rfl

/-! ### Each command, where it fails -/

theorem not_fail_of_done {t : State} (hdone : t.st = .done) : t.st ≠ .fail := by simp [hdone]

theorem exec_compress_failedPrecisely {s t : State} (hst : s.st ≠ .busy) (hlegal : s.cfg.Legal)
    (h : exec .compress s = .next t) (hfail : t.st = .fail) : FailedPrecisely 0x01#8 s t := by
  obtain ⟨t', ht', hframe, hleft⟩ := exec_compress_answer hst hlegal
  obtain rfl : t' = t := Host.Outcome.next.inj (ht'.symm.trans h)
  generalize compressAnswer s.cfg s.inPresent s.n (input s) = answer at hleft
  cases answer with
  | ok ks =>
    obtain ⟨⟨hdone, -⟩, -⟩ := hleft
    exact absurd hfail (not_fail_of_done hdone)
  | error k =>
    obtain ⟨-, hv, hn⟩ := hleft
    exact hframe.failedPrecisely hfail hv hn

theorem exec_decompress_failedPrecisely {s t : State} (hst : s.st ≠ .busy) (h : exec .decompress s = .next t)
    (hfail : t.st = .fail) : FailedPrecisely 0x02#8 s t := by
  cases hd : noData s with
  | true =>
    obtain rfl : _ = t := Host.Outcome.next.inj ((exec_decompress_noData hst hd).symm.trans h)
    exact failedPrecisely_raise_beginCommand .invalidInput 0x02#8 s
  | false =>
    obtain ⟨t', ht', hend⟩ := exec_decompress_data hst hd
    obtain rfl : t' = t := Host.Outcome.next.inj (ht'.symm.trans h)
    have released : t'.outValid = false ∧ t'.outLen = 0#64 := by
      rcases hend.result with hc | ⟨-, u, hu, rfl⟩ | ⟨-, -, u, hu, rfl⟩
      · exact absurd hfail (not_fail_of_done hc.st)
      · exact (raise_decompress_noOutput hu.cmd _).2
      · exact (raise_decompress_noOutput hu.cmd _).2
    exact hend.frame.failedPrecisely hfail released.1 released.2

theorem exec_size_failedPrecisely {s t : State} (hst : s.st ≠ .busy) (h : exec .size s = .next t) (hfail : t.st = .fail) :
    FailedPrecisely 0x03#8 s t := by
  cases hd : noData s with
  | true =>
    obtain rfl : _ = t := Host.Outcome.next.inj ((exec_size_noData hst hd).symm.trans h)
    rfl
  | false =>
    obtain ⟨t', ht', hend⟩ := exec_size_data hst hd
    obtain rfl : t' = t := Host.Outcome.next.inj (ht'.symm.trans h)
    refine hend.frame.failedPrecisely hfail ?_
    cases hend with
    | done good result => exact absurd hfail (not_fail_of_done (congrArg State.st result))
    | corrupt bad failed => exact congrArg State.size failed

theorem exec_serialize_failedPrecisely {s t : State} (hst : s.st ≠ .busy) (h : exec .serialize s = .next t)
    (hfail : t.st = .fail) : FailedPrecisely 0x04#8 s t := by
  obtain ⟨t', ht', hanswer⟩ := exec_serialize_answer hst
  obtain rfl : t' = t := Host.Outcome.next.inj (ht'.symm.trans h)
  unfold SerializeAnswer at hanswer
  split_ifs at hanswer
  case neg => exact absurd hfail (not_fail_of_done hanswer.st)
  all_goals exact hanswer ▸ serializeFailed_failedPrecisely _ s

theorem exec_deserialize_failedPrecisely {s t : State} (hst : s.st ≠ .busy) (h : exec .deserialize s = .next t)
    (hfail : t.st = .fail) : FailedPrecisely 0x05#8 s t := by
  cases hp : s.strPresent with
  | false =>
    obtain rfl : _ = t := Host.Outcome.next.inj ((exec_deserialize_absent hst hp).symm.trans h)
    rfl
  | true =>
    obtain ⟨t', ht', hend⟩ := exec_deserialize_present hst hp
    obtain rfl : t' = t := Host.Outcome.next.inj (ht'.symm.trans h)
    have hframe := hend.frame
    rcases hend.result with hd | ⟨k, u, -, hcmd, -, rfl⟩
    · exact absurd hfail (not_fail_of_done hd.st)
    · obtain ⟨-, hv, hn, -⟩ := raise_deserialize_empty hcmd k
      exact hframe.failedPrecisely hfail hv hn

theorem exec_release_not_fail {s t : State} (hst : s.st ≠ .busy) (h : exec .release s = .next t) : t.st ≠ .fail := by
  obtain rfl : _ = t := Host.Outcome.next.inj ((exec_release hst).symm.trans h)
  exact not_fail_of_done rfl

/-- Every failure is precise: NOP and RELEASE have none, a reserved code fails with its start rule, and the five commands with
passes fail from their start rule or from a pass (R292). -/
theorem exec_failedPrecisely {v : Byte} {s t : State} (hst : s.st ≠ .busy) (hlegal : s.cfg.Legal)
    (h : exec (decodeCommand v) s = .next t) (hfail : t.st = .fail) : FailedPrecisely v s t := by
  rcases startRule_spec v (beginCommand v s) with
    ⟨rfl, -⟩ | ⟨rfl, -⟩ | ⟨rfl, -⟩ | ⟨rfl, -⟩ | ⟨rfl, -⟩ | ⟨rfl, -⟩ | ⟨rfl, -⟩ | ⟨hv, hrule⟩
  · have ht : t = startOnly 0x00#8 s := exec_of_startOnly_stopped hst h (show St.done ≠ St.busy by decide)
    exact absurd hfail (not_fail_of_done (congrArg State.st ht))
  · exact exec_compress_failedPrecisely hst hlegal h hfail
  · exact exec_decompress_failedPrecisely hst h hfail
  · exact exec_size_failedPrecisely hst h hfail
  · exact exec_serialize_failedPrecisely hst h hfail
  · exact exec_deserialize_failedPrecisely hst h hfail
  · exact absurd hfail (exec_release_not_fail hst h)
  · have ht : t = startOnly v s := exec_of_startOnly_stopped hst h (by simp [startOnly_reserved hv])
    exact (ht.trans hrule) ▸ failedPrecisely_raise_beginCommand .illegalCommand v s

/-- A precise failure of COMPRESS or DESERIALIZE leaves no valid store (R291). -/
theorem FailedPrecisely.cdValid_eq_false {v : Byte} {s t : State} (h : FailedPrecisely v s t) (hv : v = 0x01#8 ∨ v = 0x05#8) :
    t.cdValid = false := by
  have hraise : t.cdValid = (raise t.err (beginCommand v s)).cdValid := (congrArg State.cdValid h :)
  obtain ⟨hvalid, -⟩ := raise_released (u := beginCommand v s) (by rwa [beginCommand_cmd]) t.err
  exact hraise.trans hvalid

theorem OwnOnly.blkMem_eq {v : Byte} {s t : State} (h : OwnOnly v s t) (h1 : v ≠ 0x01#8) (h5 : v ≠ 0x05#8) (h6 : v ≠ 0x06#8) :
    t.blkMem = s.blkMem := congrArg (fun store => store.2.2) (h.store h1 h5 h6)

theorem OwnOnly.outMem_eq {v : Byte} {s t : State} (h : OwnOnly v s t) (h2 : v ≠ 0x02#8) : t.outMem = s.outMem :=
  congrArg (fun out => out.2.2) (h.out h2)

/-- Settles O46: what a failure of each command leaves, with the store full or empty where the command writes it, and what other
commands write left alone. -/
theorem failuresArePrecise : Obligations.FailuresArePrecise := by
  intro v s t hst hlegal h hfail
  have hprecise := exec_failedPrecisely hst hlegal h hfail
  have hown := exec_ownOnly hst hlegal h
  refine ⟨hprecise, fun hv => ?_, fun h1 h5 => ?_, hown.outMem_eq⟩
  · rcases exec_store hst hlegal h (hv.imp_right .inl) with ⟨hvalid, -⟩ | ⟨-, -, hempty⟩
    · exact absurd (hvalid.symm.trans (hprecise.cdValid_eq_false hv)) (by decide)
    · exact hempty
  · have h6 : v ≠ 0x06#8 := by
      rintro rfl
      exact exec_release_not_fail hst h hfail
    exact hown.blkMem_eq h1 h5 h6

end Sys2Proof.Machine
end

section
/-! SUPPORT. The machine goes on under a host that keeps its duties (70_reset_and_hazards.md R330, R331): the sequencer always
does, and every access and command that the host may make is answered. -/

namespace Sys2Proof.Machine

/-- A running command goes on: its start rule if that is pending, else one or more transitions of its pass (R20). -/
theorem sequencerStep_goesOn {s : State} (h : Inv s) (hb : s.st = .busy) : goesOn (sequencerStep s) := by
  cases hs : s.starting with
  | true => exact ⟨takeStart s, if_pos hs⟩
  | false =>
    obtain ⟨j, hrun, -⟩ := sequencerStep_eq_run h hs hb
    exact ⟨_, hrun⟩

/-- A read of an address inside a memory goes on, BUSY or not (R331, U3). -/
theorem hostReadAt_goesOn {a cap : Nat} (ha : a < cap) (v : Byte) (s : State) : goesOn (hostReadAt a cap v s) := by
  rw [hostReadAt_below ha]
  by_cases hb : s.st = .busy
  · exact ⟨_, hostRead_busy hb _⟩
  · exact ⟨_, hostRead_stopped hb _⟩

/-- Every access that the host may make is answered (R330, R331). -/
theorem hostAccess_goesOn {a : HostAccess} {s : State} (h : accessAllowed a s) : goesOn (hostAccess a s) := by
  cases a with
  | reset => exact ⟨resetEvent s, rfl⟩
  | read r =>
    cases r with
    | status => exact ⟨_, rfl⟩
    | _ => exact ⟨_, hostRead_stopped h _⟩
  | write r v => exact ⟨_, hostWrite_stopped h _⟩
  | writeFlag f v => exact ⟨_, hostWrite_stopped h _⟩
  | writeIn x v => exact ⟨_, hostWriteAt_below h.1 h.2 _⟩
  | writeOut x v => exact ⟨_, hostWriteAt_below h.1 h.2 _⟩
  | writeStr x v => exact ⟨_, hostWriteAt_below h.1 h.2 _⟩
  | writeEntry b f v => exact ⟨_, hostWriteAt_below h.1 h.2 _⟩
  | readIn x => exact hostReadAt_goesOn h.2 _ s
  | readOut x => exact hostReadAt_goesOn h.2 _ s
  | readStr x => exact hostReadAt_goesOn h.2 _ s
  | readEntry b f => exact ⟨_, hostRead_stopped h _⟩

/-- Where the sequencer has its turn, the machine goes on: BUSY with the running command, else with what the idle block answers. -/
theorem goesOn_sequencerTurn {s : State} (h : Inv s) (t : State) :
    goesOn (if s.st = .busy then sequencerStep s else .next t) := by
  split
  · next hb => exact sequencerStep_goesOn h hb
  · exact ⟨t, rfl⟩

/-- Settles O52, by the host's next action: none, `.wait` and `.tick` leave the turn to the sequencer, a command and an access are
answered where the host may take them, and the ports always. -/
theorem machineNeverStopsAnObedientHost : Obligations.MachineNeverStopsAnObedientHost := by
  intro s h hobeys
  cases hh : s.host with
  | nil =>
    rw [step, hh]
    exact goesOn_sequencerTurn h s
  | cons action rest =>
    have shorter : Inv { s with host := rest } := h.aside rest s.lastRead s.draws s.pkKind s.pkLen s.upCtrl
    rw [hostObeys, hh] at hobeys
    rw [step, hh]
    cases action with
    | access a => exact hostAccess_goesOn (s := { s with host := rest }) hobeys
    | command v => exact ⟨_, exec_command (s := { s with host := rest }) hobeys⟩
    | wait => exact goesOn_sequencerTurn h _
    | tick => exact goesOn_sequencerTurn shorter _
    | pack k len => exact ⟨_, rfl⟩
    | unpack c => exact ⟨_, rfl⟩

end Sys2Proof.Machine
end
